-- ==== Sys2Proof/Word.lean ====
section
/-! DEFINITION. The word types of the block and of the channel engines (R9, 00_scope.md): widths only. -/

namespace Sys2Proof

/-- A buffer entry, a pin value or direction byte, an ICSP command, a sample (R9). -/
abbrev Byte := BitVec 8

/-- A 16-bit value: a decoded ICSP word, an identifier, a divisor, a cartridge word (R9). -/
abbrev Half := BitVec 16

/-- A 22-bit ICSP target address (R9, R60). -/
abbrev TargetAddr := BitVec 22

end Sys2Proof
end

