-- ==== Sys2Proof/Config.lean ====
section
/-! DEFINITION. What is fixed for the machine: the names of channels, banks and modes, the constants the
spec fixes, the OPEN parameters of R8 as one record with the constraints the spec puts on them, the vector
configuration VC (D50), and the free values, opaque constants without a body. -/

namespace Sys2Proof

/-- The channel mode of a session (R21). -/
inductive Mode where
  | icsp
  | cart
deriving DecidableEq, Repr, Inhabited

/-- A channel: the single channel of `ICSP` mode, and A and B of `CART` mode (R21, R30). The three have an
engine each (log entry 11). -/
inductive Chan where
  | icsp
  | a
  | b
deriving DecidableEq, Repr, Inhabited

/-- The channel mode a channel belongs to (R21). -/
def Chan.mode : Chan → Mode
  | .icsp => .icsp
  | .a => .cart
  | .b => .cart

/-- A bank of eight lines of a channel (R16, R30). -/
inductive Bank where
  | lo
  | hi
deriving DecidableEq, Repr, Inhabited

/-- Who takes a step: the block, or the engine of a channel (R13, R354). -/
inductive Agent where
  | block
  | engine (c : Chan)
deriving DecidableEq, Repr, Inhabited

/-- What the transport answers to one call (R45): an error, or success with a count. For a `write` the count
is how many bytes were taken, a count of the length or more being all of them; for a `read` it bounds how many
bytes are returned; `readExact`, `setBitMode` and `close` do not use it. -/
inductive Answer where
  | error
  | count (n : Nat)
deriving DecidableEq, Repr, Inhabited

/-- How the ready line's level is produced (R281). -/
inductive ReadyModel where
  | external
  | wired (m : Byte)
deriving DecidableEq, Repr, Inhabited

namespace Config

/-! ## Values the spec fixes (R8) -/

/-- `OP_SET_LO` (R94). -/
def opSetLo : Byte := 0x80
/-- `OP_READ_LO` (R94). -/
def opReadLo : Byte := 0x81
/-- `OP_SET_HI` (R94). -/
def opSetHi : Byte := 0x82
/-- `OP_READ_HI` (R94). -/
def opReadHi : Byte := 0x83
/-- `OP_LOOP_ON` (R94). -/
def opLoopOn : Byte := 0x84
/-- `OP_LOOP_OFF` (R94). -/
def opLoopOff : Byte := 0x85
/-- `OP_SET_DIV` (R94). -/
def opSetDiv : Byte := 0x86
/-- `OP_WAIT_HIGH` (R94). -/
def opWaitHigh : Byte := 0x88
/-- `OP_WAIT_SHORT` (R94). -/
def opWaitShort : Byte := 0x8E
/-- `OP_WAIT_LONG` (R94). -/
def opWaitLong : Byte := 0x8F
/-- `PROBE`, the synchronization probe byte (R94, R135). -/
def probe : Byte := 0xAA
/-- `ECHO_BAD`, the first byte of the probe echo (R8, R135). -/
def echoBad : Byte := 0xFA
/-- `MARGIN`, the long-wait margin factor (R8, R386). -/
def margin : Nat := 2
/-- `DAT_BIT`, the ICSP data line of the low bank (R8, R170). -/
def datBit : Fin 8 := 5
/-- `READ_GAP_M1`, the short-wait operand before the 24 read pulses (R8, R176). -/
def readGapM1 : Nat := 1
/-- `BATCH`, the words of one batched read (R8, R183). -/
def batch : Nat := 64
/-- `N_USERID` (R8, R230). -/
def nUserId : Nat := 32
/-- `N_CONFIG` (R8, R231). -/
def nConfig : Nat := 10
/-- `N_DEVID` (R8, R232). -/
def nDevId : Nat := 2
/-- `N_CYCLES`, the read cycles of one `ReadROM512` (R8, R294). -/
def nCycles : Nat := 256
/-- `CTRL_BANK` (R8): the cartridge control lines are on the low bank. -/
def ctrlBank : Bank := .lo
/-- `DATA_BANK` (R8): the cartridge data lines are on the high bank. -/
def dataBank : Bank := .hi

/-- `CPU_US`: clocks per microsecond, `F_ICSP = 2` and `F_CART = 10` (R8). -/
def cpuUs : Mode → Nat
  | .icsp => 2
  | .cart => 10

/-- `CPU_MS = 1000 * CPU_US` (R8, R130). -/
def cpuMs (m : Mode) : Nat := 1000 * cpuUs m

/-! ## The OPEN parameters -/

/-- The parameters R8 leaves OPEN: 'the model takes it as an argument'. State holds one such record, which
nothing writes (log entry 6). -/
structure Params where
  /-- `CAP`, buffer capacity in bytes. -/
  cap : Nat
  divIcsp : Half
  divCart : Half
  clkBit : Fin 8
  mclrBit : Fin 8
  icspBase : Byte
  icspDir : Byte
  idleVal : Byte
  idleDir : Byte
  closeVal : Byte
  opLoadPc : Byte
  opReadInc : Byte
  opProgInc : Byte
  opProgByte : Byte
  opIncAddr : Byte
  opBulkErase : Byte
  key0 : Byte
  key1 : Byte
  key2 : Byte
  key3 : Byte
  tIdleUs : Nat
  tHoldUs : Nat
  tKeyUs : Nat
  tProgWordUs : Nat
  tProgByteUs : Nat
  tCloseUs : Nat
  tEraseMs : Nat
  aUserId : TargetAddr
  aConfig : TargetAddr
  aDevId : TargetAddr
  /-- `PM_LEN`, a partial map as a list of pairs; the first pair with the key counts. -/
  pmLen : List (Half × Nat)
  rbEeprom : BitVec 4
  rbFlash : BitVec 4
  rbUserId : BitVec 4
  rbConfig : BitVec 4
  csA : Byte
  rdA : Byte
  alehA : Byte
  alelA : Byte
  rstA : Byte
  ctrlIdleA : Byte
  ctrlDirA : Byte
  rdB : Byte
  ctrlIdleB : Byte
  ctrlDirB : Byte
  waitInB : Byte
  readyModel : ReadyModel
  tCartSettleUs : Nat
  tCartResetUs : Nat
deriving DecidableEq, Repr, Inhabited

/-- The byte with only bit `i` set. -/
def bitMask (i : Fin 8) : Byte := 1#8 <<< i.val

/-- A mask that is one single bit. -/
def singleBit {n : Nat} (x : BitVec n) : Bool := x != 0#n && (x &&& (x - 1#n)) == 0#n

/-- `CLK` (R170). -/
def Params.clk (p : Params) : Byte := bitMask p.clkBit
/-- `DAT` (R170). -/
def dat : Byte := bitMask datBit
/-- The mask of the reset line `MCLR` (R170). -/
def Params.mclr (p : Params) : Byte := bitMask p.mclrBit
/-- `HALF = CAP / 2` (R8, R21). -/
def Params.half (p : Params) : Nat := p.cap / 2

/-- The masks of the channel-A control lines (R285). -/
def Params.linesA (p : Params) : List Byte := [p.csA, p.rdA, p.alehA, p.alelA, p.rstA]

/-- Capacity and device constraints: `CAP >= 16384` and even (R8). -/
def Params.capWf (p : Params) : Bool := 16384 ≤ p.cap && p.cap % 2 == 0

/-- ICSP line constraints (R8, R170, R249): distinct lines, the base byte leaves clock, data and reset low,
clock, data and reset are outputs, and the close value holds the reset line high. -/
def Params.linesWf (p : Params) : Bool :=
  p.clkBit != p.mclrBit && p.clkBit != datBit && p.mclrBit != datBit
    && p.icspBase &&& (p.clk ||| dat) == 0#8 && p.icspBase &&& p.mclr == 0#8
    && p.icspDir &&& (p.clk ||| dat ||| p.mclr) == (p.clk ||| dat ||| p.mclr)
    && p.closeVal &&& p.mclr == p.mclr

/-- Key, delay and region constraints (R8): ASCII key bytes, `T_PROG_BYTE_US > T_PROG_WORD_US`, four distinct
single region bits with `RB_FLASH | RB_USERID = 0b0011`. -/
def Params.codesWf (p : Params) : Bool :=
  [p.key0, p.key1, p.key2, p.key3].all (fun k => k.toNat < 128)
    && p.tProgWordUs < p.tProgByteUs
    && [p.rbEeprom, p.rbFlash, p.rbUserId, p.rbConfig].all singleBit
    && [p.rbEeprom, p.rbFlash, p.rbUserId, p.rbConfig].Nodup
    && (p.rbFlash ||| p.rbUserId) == 3#4

/-- Cartridge line constraints (R8, R281, R285): distinct single bits on A, the reset line high in
`CTRL_IDLE_A`, `WAIT_IN_B` a single bit that is an input in `CTRL_DIR_B`, a wired ready line a single bit. -/
def Params.cartWf (p : Params) : Bool :=
  p.linesA.all singleBit && p.linesA.Nodup
    && p.ctrlIdleA &&& p.rstA == p.rstA
    && singleBit p.waitInB && p.ctrlDirB &&& p.waitInB == 0#8
    && (match p.readyModel with
        | .external => true
        | .wired m => singleBit m)

/-- Every constraint the spec puts on the OPEN parameters. -/
def Params.wf (p : Params) : Bool := p.capWf && p.linesWf && p.codesWf && p.cartWf

/-- The vector configuration VC (D50), the values of spec/95_test_vectors.md. It is an illustration, not a
claim about hardware; tests use it. -/
def vc : Params where
  cap := 16384
  divIcsp := 14
  divCart := 2
  clkBit := 4
  mclrBit := 3
  icspBase := 0x00
  icspDir := 0x38
  idleVal := 0x08
  idleDir := 0x38
  closeVal := 0x08
  opLoadPc := 0x80
  opReadInc := 0xFE
  opProgInc := 0xE0
  opProgByte := 0xE0
  opIncAddr := 0xF8
  opBulkErase := 0x18
  key0 := 0x4D
  key1 := 0x43
  key2 := 0x48
  key3 := 0x50
  tIdleUs := 1000
  tHoldUs := 1000
  tKeyUs := 1000
  tProgWordUs := 150
  tProgByteUs := 11000
  tCloseUs := 1000
  tEraseMs := 20
  aUserId := 0x200000
  aConfig := 0x300000
  aDevId := 0x3FFFFC
  pmLen := [(0x7420, 0x20000)]
  rbEeprom := 0x4
  rbFlash := 0x2
  rbUserId := 0x1
  rbConfig := 0x8
  csA := 0x08
  rdA := 0x10
  alehA := 0x40
  alelA := 0x20
  rstA := 0x80
  ctrlIdleA := 0x98
  ctrlDirA := 0xF8
  rdB := 0x10
  ctrlIdleB := 0x10
  ctrlDirB := 0x10
  waitInB := 0x20
  readyModel := .external
  tCartSettleUs := 1
  tCartResetUs := 1000

/-- DESIGN CHOICE (log entry 6). The parameters of one machine, open: nothing in Lean knows them. -/
opaque chosen : Params

/-- The parameters of the machine at reset: any record that meets the spec's constraints (log entry 6). -/
def params : Params := if chosen.wf then chosen else vc

/-! ## Free values (log entries 5 and 7) -/

/-- The `n`-th sample of a channel that no list has fixed (R70, U5). -/
opaque sample : Chan → Nat → Byte

/-- The ready line's level at the `n`-th poll that no list has fixed (R281, U6). -/
opaque level : Nat → Bool

/-- The transport's `n`-th answer that no list has fixed (R45, R346, U9). -/
opaque answer : Nat → Answer

/-- The `n`-th turn that no list has fixed (R76, R121). -/
opaque turn : Nat → Agent

end Config
end Sys2Proof
end

