-- ==== Sys2Proof/Syntax.lean ====
section
/-! DEFINITION. The instructions: one constructor per row of spec/opcode_table.json in the table's order, and
the pseudo-instructions of R106. -/

namespace Sys2Proof

/-- The instructions of both layers. Layer 1 (R94) are the adapter instructions the block emits and a channel
engine executes; layer 2 (R104) are the ICSP units the block emits as streams of layer-1 instructions.
An operand the spec calls a natural with a range check (R126, R127, R134, R228, R244, R245, R247) is a natural
here; `Instr.wellFormed` says the range. -/
inductive Instr where
  /-- `SETLO v, d` (R122). -/
  | setlo (v d : Byte)
  /-- `READLO` (R124). -/
  | readlo
  /-- `SETHI v, d` (R123). -/
  | sethi (v d : Byte)
  /-- `READHI` (R125). -/
  | readhi
  /-- `LOOPON` (R132). -/
  | loopon
  /-- `LOOPOFF` (R133). -/
  | loopoff
  /-- `SETDIV n` (R134). -/
  | setdiv (n : Nat)
  /-- `WAITHI` (R131). -/
  | waithi
  /-- `WAITS u` (R126). -/
  | waits (u : Nat)
  /-- `WAITL n` (R127). -/
  | waitl (n : Nat)
  /-- `PROBE` (R135). -/
  | probe
  /-- `LOADADDR a` (R228). -/
  | loadaddr (a : Nat)
  /-- `READWORD` (R229). -/
  | readword
  /-- `PROGWORD w` (R244). -/
  | progword (w : Nat)
  /-- `PROGBYTE b` (R245). -/
  | progbyte (b : Nat)
  /-- `INCADDR` (R244). -/
  | incaddr
  /-- `ERASE m` (R247). -/
  | erase (m : Nat)
  /-- `KEY0`: `icspCommand(KEY[0])` (R227). -/
  | key0
  /-- `KEY1`: `icspCommand(KEY[1])` (R227). -/
  | key1
  /-- `KEY2`: `icspCommand(KEY[2])` (R227). -/
  | key2
  /-- `KEY3`: `icspCommand(KEY[3])` (R227). -/
  | key3
deriving DecidableEq, Repr, Inhabited

/-- The instructions of layer 1 (R94), those an engine can execute. -/
def Instr.layerOne : Instr → Bool
  | .setlo _ _ | .readlo | .sethi _ _ | .readhi | .loopon | .loopoff | .setdiv _ | .waithi | .waits _
  | .waitl _ | .probe => true
  | .loadaddr _ | .readword | .progword _ | .progbyte _ | .incaddr | .erase _ | .key0 | .key1 | .key2
  | .key3 => false

/-- What the block can be told to emit: an instruction of the table, or a pseudo-instruction (R106) that
expands to layer-1 instructions. Byte and payload operands are naturals, since their emitters check them
(R172, R173, R186). -/
inductive Emitter where
  /-- An instruction of the table. -/
  | instr (i : Instr)
  /-- `WAITUS t` (R129). -/
  | waitUs (t : Nat)
  /-- `WAITMS t` (R130). -/
  | waitMs (t : Nat)
  /-- `ICSPBIT b` (R171). -/
  | icspBit (b : Bool)
  /-- `ICSPCMD c` (R172). -/
  | icspCmd (c : Nat)
  /-- `ICSPFRAME p` of a payload of width `w` (R174). -/
  | icspFrame (w p : Nat)
  /-- `ICSPREAD` (R176). -/
  | icspRead
  /-- `CLATCH ch, x` (R186). -/
  | cartLatch (x : Nat)
  /-- `CRELEASE ch` (R187). -/
  | cartRelease
  /-- `CSAMPLE ch` (R188). -/
  | cartSample
deriving DecidableEq, Repr, Inhabited

end Sys2Proof
end

