-- ==== Sys2Proof/WellFormed.lean ====
section
/-! DEFINITION. Which instructions are well formed: each operand fits its field (R92, R94, R101). -/

namespace Sys2Proof

/-- An instruction whose operands fit their fields: `u` in 0..7 (R92, R126), 16-bit `n` (R93, R127, R134),
payload widths 22, 16, 8 and 4 (R101, R175). -/
def Instr.wellFormed : Instr → Bool
  | .setlo _ _ | .readlo | .sethi _ _ | .readhi | .loopon | .loopoff | .waithi | .probe => true
  | .setdiv n => n < 2 ^ 16
  | .waits u => u < 8
  | .waitl n => n < 2 ^ 16
  | .loadaddr a => a < 2 ^ 22
  | .progword w => w < 2 ^ 16
  | .progbyte b => b < 2 ^ 8
  | .erase m => m < 2 ^ 4
  | .readword | .incaddr | .key0 | .key1 | .key2 | .key3 => true

end Sys2Proof
end

