-- ==== Sys2Proof/Decode.lean ====
section
/-! DEFINITION. The two encoding layers: the decoder and encoder of the adapter instructions (layer 1, R90 to
R100), those of the ICSP units on the wire (layer 2, R101 to R104), and `decodeTableWord`. -/

namespace Sys2Proof

/-! ## Byte order -/

/-- `lo8(v) = v mod 256` (R10). -/
def lo8 (v : Nat) : Byte := BitVec.ofNat 8 v

/-- `hi8(v) = (v >> 8) mod 256` (R10). -/
def hi8 (v : Nat) : Byte := BitVec.ofNat 8 (v >>> 8)

/-- The 16-bit operand of format F3-LE16, low byte first (R63, R93). -/
def le16 (b0 b1 : Byte) : Nat := b0.toNat + 256 * b1.toNat

/-! ## Layer 1 -/

/-- Why bytes are no instruction: not all of its bytes are there (R100), the first byte is not in the table
(R97), or a `WAITS` byte above 7 (R92, R97). -/
inductive DecodeError where
  | incomplete
  | unlistedOpcode (b : Byte)
  | reservedOperand (u : Byte)
deriving DecidableEq, Repr

/-- The length of an instruction, from its first byte alone (R90, R99). -/
def instrLength (op : Byte) : Option Nat :=
  if op = Config.opReadLo ∨ op = Config.opReadHi ∨ op = Config.opLoopOn ∨ op = Config.opLoopOff
      ∨ op = Config.opWaitHigh ∨ op = Config.probe then some 1
  else if op = Config.opWaitShort then some 2
  else if op = Config.opSetLo ∨ op = Config.opSetHi ∨ op = Config.opSetDiv ∨ op = Config.opWaitLong then some 3
  else none

/-- The instructions of format F1 (R91). -/
def decodeF1 (op : Byte) : Option Instr :=
  if op = Config.opReadLo then some .readlo
  else if op = Config.opReadHi then some .readhi
  else if op = Config.opLoopOn then some .loopon
  else if op = Config.opLoopOff then some .loopoff
  else if op = Config.opWaitHigh then some .waithi
  else if op = Config.probe then some .probe
  else none

/-- The instructions of format F3, with their two operand readings (R93). -/
def decodeF3 (op b1 b2 : Byte) : Option Instr :=
  if op = Config.opSetLo then some (.setlo b1 b2)
  else if op = Config.opSetHi then some (.sethi b1 b2)
  else if op = Config.opSetDiv then some (.setdiv (le16 b1 b2))
  else if op = Config.opWaitLong then some (.waitl (le16 b1 b2))
  else none

/-- Reads the instruction at the front of a byte stream and returns it with the bytes after it (R94, R99).
Total on every stream. -/
def decode : List Byte → Except DecodeError (Instr × List Byte)
  | [] => .error .incomplete
  | op :: rest =>
    match decodeF1 op with
    | some i => .ok (i, rest)
    | none =>
      if op = Config.opWaitShort then
        match rest with
        | [] => .error .incomplete
        | u :: rest' => if u.toNat < 8 then .ok (.waits u.toNat, rest') else .error (.reservedOperand u)
      else if instrLength op = none then .error (.unlistedOpcode op)
      else
        match rest with
        | b1 :: b2 :: rest' =>
          match decodeF3 op b1 b2 with
          | some i => .ok (i, rest')
          | none => .error (.unlistedOpcode op)
        | _ => .error .incomplete

/-- The bytes of a layer-1 instruction in emission order (R94). Layer-2 instructions have no byte of their
own: they are streams (R104), and their wire form is `encodeUnit`. -/
def encode : Instr → List Byte
  | .setlo v d => [Config.opSetLo, v, d]
  | .readlo => [Config.opReadLo]
  | .sethi v d => [Config.opSetHi, v, d]
  | .readhi => [Config.opReadHi]
  | .loopon => [Config.opLoopOn]
  | .loopoff => [Config.opLoopOff]
  | .setdiv n => [Config.opSetDiv, lo8 n, hi8 n]
  | .waithi => [Config.opWaitHigh]
  | .waits u => [Config.opWaitShort, lo8 u]
  | .waitl n => [Config.opWaitLong, lo8 n, hi8 n]
  | .probe => [Config.probe]
  | .loadaddr _ | .readword | .progword _ | .progbyte _ | .incaddr | .erase _ | .key0 | .key1 | .key2
  | .key3 => []

/-- The instructions of a whole byte stream, or the error that ends it (R99). `fuel` bounds the number of
instructions; the length of the stream is always enough. -/
def decodeAll : Nat → List Byte → Except DecodeError (List Instr)
  | _, [] => .ok []
  | 0, _ :: _ => .error .incomplete
  | fuel + 1, b :: bs =>
    match decode (b :: bs) with
    | .error e => .error e
    | .ok (i, rest) =>
      match decodeAll fuel rest with
      | .error e => .error e
      | .ok is => .ok (i :: is)

/-! ## Layer 2: the ICSP wire -/

/-- The command byte of a layer-2 instruction (R103, R104). -/
def commandOf (p : Config.Params) : Instr → Option Byte
  | .loadaddr _ => some p.opLoadPc
  | .readword => some p.opReadInc
  | .progword _ => some p.opProgInc
  | .progbyte _ => some p.opProgByte
  | .incaddr => some p.opIncAddr
  | .erase _ => some p.opBulkErase
  | .key0 => some p.key0
  | .key1 => some p.key1
  | .key2 => some p.key2
  | .key3 => some p.key3
  | .setlo _ _ | .readlo | .sethi _ _ | .readhi | .loopon | .loopoff | .setdiv _ | .waithi | .waits _
  | .waitl _ | .probe => none

/-- The payload of a layer-2 instruction and its width `W`, for those a payload frame follows (R104, R175). -/
def payloadOf : Instr → Option (Nat × Nat)
  | .loadaddr a => some (22, a)
  | .progword w => some (16, w)
  | .progbyte b => some (8, b)
  | .erase m => some (4, m)
  | .readword | .incaddr | .key0 | .key1 | .key2 | .key3
  | .setlo _ _ | .readlo | .sethi _ _ | .readhi | .loopon | .loopoff | .setdiv _ | .waithi | .waits _
  | .waitl _ | .probe => none

/-- The 24-bit frame of a payload: `F = (p << 1) mod 2^24` (R101, R173). -/
def frameValue (p : Nat) : BitVec 24 := BitVec.ofNat 24 (p <<< 1)

/-- The three bytes of a frame, `F[23:16]`, `F[15:8]`, `F[7:0]` in that order (R102). -/
def frameBytes (f : BitVec 24) : List Byte := [f.extractLsb' 16 8, f.extractLsb' 8 8, f.extractLsb' 0 8]

/-- The wire form of a layer-2 instruction: the command byte and, where one follows, the bytes of its payload
frame (R101, R104). -/
def encodeUnit (p : Config.Params) (i : Instr) : List Byte :=
  match commandOf p i with
  | none => []
  | some c =>
    match payloadOf i with
    | none => [c]
    | some (_, x) => c :: frameBytes (frameValue x)

/-- The payload of three frame bytes, where start, padding and stop are as R102 says for width `w`. -/
def framePayload (w : Nat) (b2 b1 b0 : Byte) : Option Nat :=
  let f := b2.toNat * 65536 + b1.toNat * 256 + b0.toNat
  if f % 2 = 0 ∧ f / 2 < 2 ^ w then some (f / 2) else none

/-- One reading of a wire form: the instruction of one row of R104, where the bytes fit that row. -/
def readRow (bytes : List Byte) (cmd : Byte) (width : Option Nat) (mk : Nat → Instr) : Option Instr :=
  match bytes, width with
  | [c], none => if c = cmd then some (mk 0) else none
  | [c, b2, b1, b0], some w => if c = cmd then (framePayload w b2 b1 b0).map mk else none
  | _, _ => none

/-- Every layer-2 instruction with the given wire form. The command values are parameters that may coincide
(VC has `OP_PROG_INC = OP_PROG_BYTE`, D14), so a wire form can have several readings; the empty list means
the bytes are no unit of R104 (log entry 27). -/
def decodeUnit (p : Config.Params) (bytes : List Byte) : List Instr :=
  [readRow bytes p.opLoadPc (some 22) .loadaddr,
   readRow bytes p.opReadInc none (fun _ => .readword),
   readRow bytes p.opProgInc (some 16) .progword,
   readRow bytes p.opProgByte (some 8) .progbyte,
   readRow bytes p.opIncAddr none (fun _ => .incaddr),
   readRow bytes p.opBulkErase (some 4) .erase,
   readRow bytes p.key0 none (fun _ => .key0),
   readRow bytes p.key1 none (fun _ => .key1),
   readRow bytes p.key2 none (fun _ => .key2),
   readRow bytes p.key3 none (fun _ => .key3)].filterMap id

/-! ## The table's words -/

/-- The three bytes of an instruction word `w` of `nbits` bits, the first byte lowest; bits at and above
`nbits` are 0. Three bytes are the longest instruction (R90). -/
def wordBytes (nbits w : Nat) : List Byte :=
  let v := w % 2 ^ nbits
  [BitVec.ofNat 8 v, BitVec.ofNat 8 (v >>> 8), BitVec.ofNat 8 (v >>> 16)]

/-- The instruction the layer-1 decoder reads from a word of the table. -/
def decodeTableWord (nbits w : Nat) : Option Instr :=
  match decode (wordBytes nbits w) with
  | .ok (i, _) => some i
  | .error _ => none

end Sys2Proof
end

