-- ==== Sys2Proof/Machine/State.lean ====
section
/-! DEFINITION. The state of the block and of the channel engines it feeds (10_state.md), as plain data: the
command buffer and its cursors, the engines, the session registers, the fault mark, the operation in progress,
and the inputs of the environment. -/

namespace Sys2Proof.Machine

/-! ## Per-channel data -/

/-- One value for each channel. -/
structure PerChan (α : Type) where
  icsp : α
  a : α
  b : α
deriving DecidableEq, Repr

/-- Answers of the environment: those already fixed, first to come first, and how many free values have been
used after the list ran out (log entry 7). -/
structure Draws (α : Type) where
  script : List α
  count : Nat
deriving DecidableEq, Repr

/-- The block's side of a channel (R21, R22, R26). -/
structure Port where
  /-- The cursor, the next write offset (R22). -/
  cur : Nat
  /-- `nreq(ch)`: pin reads emitted since the cursor was last reset (R26). -/
  nreq : Nat
  /-- Samples the last flush requested and the block has not read back (R66, log entry 35). -/
  owed : Nat
  /-- The response bytes of the last read-back (R238, log entry 35). -/
  got : List Byte
deriving DecidableEq, Repr

/-- An engine's status (R35). -/
inductive Status where
  | running
  | blocked
deriving DecidableEq, Repr

/-- A channel engine (R30 to R35). -/
structure Engine where
  /-- `val[e][LO]` (R30). -/
  valLo : Byte
  /-- `dir[e][LO]` (R30). -/
  dirLo : Byte
  /-- `val[e][HI]` (R30). -/
  valHi : Byte
  /-- `dir[e][HI]` (R30). -/
  dirHi : Byte
  /-- `loop[e]` (R33). -/
  loop : Bool
  /-- `div[e]` (R34). -/
  div : Half
  /-- `st[e]` (R35). -/
  st : Status
  /-- `q[e]`, the bytes flushed and not yet executed (R31). -/
  q : List Byte
  /-- `rsp[e]`, the response bytes not yet read (R32). -/
  rsp : List Byte
  /-- The length in units of the last delay executed: an annotation nothing reads (R126 to R128, log entry 25). -/
  delay : Nat
  /-- What the lines of this engine will read at its next pin reads (R70, log entry 7). -/
  samples : Draws Byte
deriving DecidableEq, Repr

/-! ## Sessions, operations and their outcomes -/

/-- `sess` (R40). -/
inductive Session where
  | closed
  | opening
  | ready
  | failed
deriving DecidableEq, Repr

/-- `sessC` (R44). -/
inductive CartSession where
  | closed
  | ready
  | failed
deriving DecidableEq, Repr

/-- The session registers (R41, R42). `none` is the spec's own 'no value' of R43 and R47: before a successful
Open and after Close they hold none, and a read of one is `fault NotReady` (log entry 22). -/
structure SessionRegs where
  devId : Option Half
  revId : Option Half
  revMajor : Option Byte
  revMinor : Option (BitVec 6)
  userId : Option (Vector Half 32)
  config : Option (Vector Byte 10)
  addr : Option Nat
  pmLen : Option Nat
deriving DecidableEq, Repr

/-- The operations of the block (42_icsp_sequencer.md, 43_dual_channel.md). -/
inductive OpName where
  | openIcsp
  | read
  | seek
  | write
  | bulkErase
  | close
  | setupPins
  | resetCart
  | setAddress
  | readRom512
  | releaseCart
deriving DecidableEq, Repr

/-- The positions a `Seek` counts from; any other `whence` is unsupported (R241). -/
inductive Whence where
  | start
  | current
  | other
deriving DecidableEq, Repr

/-- A call of the caller with its operands (R221, R237, R241, R243, R247, R249, R287 to R289, R294, R300). -/
inductive Call where
  | openIcsp
  | read (n : Nat)
  | seek (offset : Int) (whence : Whence)
  | write (bytes : List Byte)
  | bulkErase (regions : Nat)
  | close
  | setupPins
  | resetCart
  | setAddress (a : Nat)
  | readRom512
  | releaseCart
deriving DecidableEq, Repr

/-- The calls of the transport's contract (R45). -/
inductive TransportCall where
  | write
  | read
  | readExact
  | setBitMode
  | reset
  | close
deriving DecidableEq, Repr

/-- The self-test steps of Open that can fail on what they read (R222 to R224). -/
inductive SelfTest where
  | o1
  | o2
  | o3
deriving DecidableEq, Repr

/-- The six errors of the source, with what R341 says each records. -/
inductive OpError where
  | transport (op : OpName) (call : TransportCall)
  | protocolSync (step : SelfTest) (bytes : List Byte)
  | unsupportedDevice (devId : Half)
  | invalidOffset (offset : Int)
  | outOfRange (position : Int)
  | endOfMemory
deriving DecidableEq, Repr

/-- The eight model-only faults of R348. Each sets `faulted` and ends the operation; it is a next state
(log entry 8). -/
inductive Mark where
  | bufferOverflow
  | paramRange
  | waitLengthOverflow
  | notReady
  | unalignedCursor
  | writeBeyondEnd
  | unsupportedWhence
  | unmodelled
deriving DecidableEq, Repr

/-- How an operation ended. `marked` is the model's own record of a fault of R348, 'not a value a caller can
receive from the hardware'. -/
inductive Result where
  | done
  | bytes (bs : List Byte)
  | count (n : Nat)
  | position (n : Nat)
  | error (e : OpError)
  | marked (f : Mark)
deriving DecidableEq, Repr

/-! ## The operation in progress -/

/-- One step of an operation of the block. An operation is a list of them (42_icsp_sequencer.md,
43_dual_channel.md). -/
inductive BlockStep where
  /-- Start of a buffer composition (R23). -/
  | begin
  /-- Emit on a channel (R12). -/
  | emit (ch : Chan) (e : Emitter)
  /-- Flush of the single channel (R65). -/
  | flush
  /-- Paired flush, B then A (R283). -/
  | flushPair
  /-- `readExact` of the samples the last flush of the channel requested (R66, R284). -/
  | readBack (ch : Chan)
  /-- O1 and O3: one `read` that must return nothing (R222, R224). -/
  | readEmpty (t : SelfTest)
  /-- O2: `read` until two bytes are there, then compare (R223). -/
  | readEcho
  /-- O7 (R230). -/
  | storeUserId
  /-- O8 (R231). -/
  | storeConfig
  /-- O9 (R232, R233). -/
  | storeIds
  /-- O10: `addr <- 0` (R234). -/
  | clearAddr
  /-- O11 (R235). -/
  | resolveLength
  /-- O12 (R236). -/
  | finishOpen
  /-- Read: append the first `want` bytes of the decoded words to the output (R238, R239). -/
  | collect (want : Nat)
  /-- Read: `addr <- addr + m`, return the output (R237). -/
  | finishRead (m : Nat)
  /-- Write: `addr <- addr + n`, return `n` (R243). -/
  | finishWrite (n : Nat)
  /-- BulkErase, ResetCart, SetAddress: return (R247, R288, R292). -/
  | finishPlain
  /-- A transport call with no bytes: `setBitMode` and `close` of Close (R249). -/
  | transport (c : TransportCall)
  /-- Close: the session is closed and its registers lose their values (R249). -/
  | finishClose
  /-- SetupPins: `sessC <- Ready` (R287). -/
  | finishSetup
  /-- ReadROM512: interleave the samples of the two channels (R296). -/
  | finishRom
deriving DecidableEq, Repr

/-- The command buffer: the offsets that hold a byte, strictly rising. An unlisted offset has no value
(R25, log entry 9). -/
abbrev Memory := List Host.Cell

/-- What the block held before an operation and gets back at an error: buffer, ports and session registers (R352:
'the state after an error is the state before the operation', log entry 37). -/
structure Saved where
  buf : Memory
  ports : PerChan Port
  regs : SessionRegs
deriving DecidableEq, Repr

/-- The operation in progress: its name, the steps left, the bytes read so far (`out`, R238), the first transport
error of a Close (R249, log entry 20), and what the block held before it (R352, log entry 37). -/
structure Task where
  op : OpName
  prog : List BlockStep
  out : List Byte
  firstError : Option OpError
  before : Saved
deriving DecidableEq, Repr

/-! ## The machine -/

/-- The state of the machine. -/
structure State where
  /-- The OPEN parameters of R8; nothing writes them (log entry 6). -/
  params : Config.Params
  /-- `BUF` (R20). -/
  buf : Memory
  /-- The channel mode (R21). -/
  mode : Mode
  /-- Cursors and request counts (R22, R26). -/
  ports : PerChan Port
  /-- The channel engines (R30 to R35). -/
  engines : PerChan Engine
  /-- `sess` (R40). -/
  sess : Session
  /-- `sessC` (R44). -/
  sessC : CartSession
  /-- The session registers (R41, R42). -/
  regs : SessionRegs
  /-- The sticky fault mark (R46). -/
  faulted : Bool
  /-- The operation in progress (log entry 26). -/
  task : Option Task
  /-- The channel operand of the emitter being run (R12, log entry 12). -/
  emitCh : Chan
  /-- The caller's calls not yet begun (log entry 26). -/
  calls : List Call
  /-- What the operations ended with, oldest first (log entry 26). -/
  results : List Result
  /-- The agent of the next step (R76, R121, log entry 5). -/
  turn : Agent
  /-- The turns after it (log entry 5). -/
  turns : Draws Agent
  /-- The ready line's levels at the polls to come (R281, log entry 7). -/
  levels : Draws Bool
  /-- The transport's answers to come (R45, log entry 7). -/
  answers : Draws Answer
deriving DecidableEq, Repr

/-- Why the machine stops. -/
inductive Fault where
  /-- A flush met an offset below the cursor that no emission has written: 'a read of them is a fault, not a
  value' (R25, U1). Raised by the flush alone. Safe: the model stops where the buffer has no value. -/
  | bufferGarbage (offset : Nat)
deriving DecidableEq, Repr

/-- Where the model gives no meaning. -/
inductive Refusal where
  /-- An instruction without a meaning yet, by mnemonic. Raised by no arm of this model. Safe. -/
  | notModelled (mnemonic : String)
  /-- An engine met a first byte outside the table (R97, U14: refuse). Raised by the engine's fetch. Safe. -/
  | unlistedOpcode (b : Byte)
  /-- An engine met a `WAITS` byte above 7, which is no encoding (R92, R97). Raised by the engine's fetch. Safe. -/
  | reservedOperand (u : Byte)
  /-- An engine was given an operand no encoding holds (R97 'unencodable'). Raised by the execution of `SETDIV`,
  `WAITS` and `WAITL` on a term the decoder never gives. Safe. -/
  | unencodableOperand
  /-- `WAITHI` on an engine other than B: the spec gives its execution on B alone (R131). Raised by the
  execution of `WAITHI`. Safe. -/
  | waitHighOffB (c : Chan)
deriving DecidableEq, Repr

/-! ## Reset -/

/-- An engine at reset (R47): queues empty, running; the pin, loopback and divisor registers, which R47 leaves
unspecified, zero (DESIGN CHOICE, log entries 1 to 3). -/
def Engine.reset : Engine where
  valLo := 0
  dirLo := 0
  valHi := 0
  dirHi := 0
  loop := false
  div := 0
  st := .running
  q := []
  rsp := []
  delay := 0
  samples := ⟨[], 0⟩

/-- The session registers with no value (R43, R47). -/
def SessionRegs.none : SessionRegs where
  devId := Option.none
  revId := Option.none
  revMajor := Option.none
  revMinor := Option.none
  userId := Option.none
  config := Option.none
  addr := Option.none
  pmLen := Option.none

/-- A port at reset, its cursor at the given base (R47). -/
def Port.reset (base : Nat) : Port where
  cur := base
  nreq := 0
  owed := 0
  got := []

/-- The machine after reset with given OPEN parameters (R47, R380). -/
def State.resetWith (p : Config.Params) : State where
  params := p
  buf := []
  mode := .icsp
  ports := ⟨Port.reset 0, Port.reset 0, Port.reset p.half⟩
  engines := ⟨Engine.reset, Engine.reset, Engine.reset⟩
  sess := .closed
  sessC := .closed
  regs := SessionRegs.none
  faulted := false
  task := Option.none
  emitCh := .icsp
  calls := []
  results := []
  turn := .block
  turns := ⟨[], 0⟩
  levels := ⟨[], 0⟩
  answers := ⟨[], 0⟩

/-- The machine right after reset (R47, R380), with the open parameters of one machine (log entry 6). -/
def State.reset : State := State.resetWith Config.params

end Sys2Proof.Machine
end

