-- ==== Sys2Proof/Machine/Ops.lean ====
section
/-! DEFINITION. The named operations over the buffer, the ports, the engines and the session: the bound-checked
emission of R24, the read below the cursor of R25, the draws of the environment, and the end of an operation by
a result, an error (R341) or a fault (R348). -/

namespace Sys2Proof.Machine

/-! ## Channels -/

/-- The value of a channel. -/
def PerChan.get {α : Type} (p : PerChan α) : Chan → α
  | .icsp => p.icsp
  | .a => p.a
  | .b => p.b

/-- Replaces the value of a channel. -/
def PerChan.set {α : Type} (p : PerChan α) (c : Chan) (x : α) : PerChan α :=
  match c with
  | .icsp => { p with icsp := x }
  | .a => { p with a := x }
  | .b => { p with b := x }

/-- The block's side of a channel. -/
def State.port (s : State) (c : Chan) : Port := s.ports.get c

/-- Replaces the block's side of a channel. -/
def State.setPort (s : State) (c : Chan) (p : Port) : State := { s with ports := s.ports.set c p }

/-- The engine of a channel. -/
def State.engine (s : State) (c : Chan) : Engine := s.engines.get c

/-- Replaces the engine of a channel. -/
def State.setEngine (s : State) (c : Chan) (e : Engine) : State := { s with engines := s.engines.set c e }

/-- `base` of a channel's region (R22). -/
def State.base (s : State) : Chan → Nat
  | .icsp => 0
  | .a => 0
  | .b => s.params.half

/-- `limit` of a channel's region (R22). -/
def State.limit (s : State) : Chan → Nat
  | .icsp => s.params.cap
  | .a => s.params.half
  | .b => s.params.cap

/-! ## Draws -/

/-- The next answer: the head of the list, or the free value. -/
def Draws.value {α : Type} (free : Nat → α) (d : Draws α) : α :=
  match d.script with
  | x :: _ => x
  | [] => free d.count

/-- What is left after one answer. -/
def Draws.next {α : Type} (d : Draws α) : Draws α :=
  match d.script with
  | _ :: xs => ⟨xs, d.count⟩
  | [] => ⟨[], d.count + 1⟩

/-- The transport's answer to the call being made (R45). -/
def State.answer (s : State) : Answer := s.answers.value Config.answer

/-- The state once that answer is used. -/
def State.popAnswer (s : State) : State := { s with answers := s.answers.next }

/-- The byte the next pin read of an engine reports (R70). -/
def State.sample (s : State) (c : Chan) : Byte := (s.engine c).samples.value (Config.sample c)

/-- The ready line at the poll being made: a draw, or the wired output of engine A's control bank (R281). -/
def State.readyLevel (s : State) : Bool :=
  match s.params.readyModel with
  | .external => s.levels.value Config.level
  | .wired m =>
    ((s.engine .a).valLo &&& m) != 0#8 && ((s.engine .a).dirLo &&& m) != 0#8

/-- The state once that level is read: an external level is used up, a wired one is not (R281). -/
def State.popLevel (s : State) : State :=
  match s.params.readyModel with
  | .external => { s with levels := s.levels.next }
  | .wired _ => s

/-- The next agent is drawn (R76, R121). -/
def State.nextTurn (s : State) : State :=
  { s with turn := s.turns.value Config.turn, turns := s.turns.next }

/-! ## The command buffer -/

/-- The byte at an offset, or none where the buffer has no value (R25). -/
def Memory.read : Memory → Nat → Option Byte
  | [], _ => none
  | (k, x) :: rest, i => if i = k then some x else Memory.read rest i

/-- Writes one byte and keeps the offsets strictly rising. -/
def Memory.write : Memory → Nat → Byte → Memory
  | [], i, x => [(i, x)]
  | (k, y) :: rest, i, x =>
    if i < k then (i, x) :: (k, y) :: rest
    else if i = k then (i, x) :: rest
    else (k, y) :: Memory.write rest i x

/-- `BufWrite(i, bytes)` (R11). -/
def Memory.writeBytes : Memory → Nat → List Byte → Memory
  | m, _, [] => m
  | m, i, x :: xs => Memory.writeBytes (Memory.write m i x) (i + 1) xs

/-- The canonical form: offsets strictly rising. No offset is listed with the value an unlisted one has, since
an unlisted one has none (log entry 9). -/
def Memory.wf : Memory → Bool
  | [] => true
  | [_] => true
  | (k, _) :: (l, y) :: rest => k < l && Memory.wf ((l, y) :: rest)

/-- A read of the buffer by the block: only offsets from the base up to the cursor have a value (R25). -/
def State.readBuf (s : State) (ch : Chan) (i : Nat) : Except Fault Byte :=
  if s.base ch ≤ i ∧ i < (s.port ch).cur then
    match Memory.read s.buf i with
    | some x => .ok x
    | none => .error (.bufferGarbage i)
  else .error (.bufferGarbage i)

/-- The bytes of the given offsets, or the first fault. -/
def State.readOffsets (s : State) (ch : Chan) : List Nat → Except Fault (List Byte)
  | [] => .ok []
  | i :: is =>
    match s.readBuf ch i with
    | .error f => .error f
    | .ok x =>
      match State.readOffsets s ch is with
      | .error f => .error f
      | .ok xs => .ok (x :: xs)

/-- `BUF[base .. cur-1]`, what a flush sends (R25, R65). -/
def State.composed (s : State) (ch : Chan) : Except Fault (List Byte) :=
  s.readOffsets ch (List.range' (s.base ch) ((s.port ch).cur - s.base ch))

/-- Every cursor of the mode at its base, with no request counted (R23). -/
def State.beginBuffer (s : State) : State :=
  match s.mode with
  | .icsp => s.setPort .icsp { s.port .icsp with cur := s.base .icsp, nreq := 0 }
  | .cart =>
    (s.setPort .a { s.port .a with cur := s.base .a, nreq := 0 }).setPort .b
      { s.port .b with cur := s.base .b, nreq := 0 }

/-! ## How an operation ends -/

/-- An operation ends with a result. -/
def State.endTask (s : State) (r : Result) : State :=
  { s with task := none, results := s.results ++ [r] }

/-- `fault <Name>` (R11, R46, R348): the mark is set, the operation ends, nothing else changes. THE shared
operation of every fault of R348 (log entry 8). -/
def State.fault (s : State) (f : Mark) : State :=
  { s with faulted := true, task := none, results := s.results ++ [.marked f] }

/-- Whether an operation belongs to the cartridge session (R44, R341). -/
def OpName.isCart : OpName → Bool
  | .setupPins | .resetCart | .setAddress | .readRom512 | .releaseCart => true
  | .openIcsp | .read | .seek | .write | .bulkErase | .close => false

/-- What the block holds before an operation (R352). -/
def State.saved (s : State) : Saved := ⟨s.buf, s.ports, s.regs⟩

/-- What the operation in progress found before it; with none in progress, what the block holds now. -/
def State.before (s : State) : Saved :=
  match s.task with
  | some t => t.before
  | none => s.saved

/-- Buffer and ports as they were before the operation (R352, log entry 37). -/
def State.restoreBuffer (s : State) : State := { s with buf := s.before.buf, ports := s.before.ports }

/-- What a fatal error leaves of the session: `Failed` (R341), and the registers as they were before the operation
(R43, R349, R352, log entry 22). The cartridge session has no registers (R44). -/
def State.failSession (s : State) (op : OpName) : State :=
  if op.isCart then { s with sessC := .failed }
  else { s with sess := .failed, regs := s.before.regs }

/-- An error that is fatal to the operation and to its session (R341 codes 1 to 3): but for the session's state, the
block is as it was before the operation (R352, log entry 37). -/
def State.fatal (s : State) (op : OpName) (e : OpError) : State :=
  (s.failSession op).restoreBuffer.endTask (.error e)

/-- `raise TransportError` at a failing transport call (R342, R346): fatal to the operation in progress, but in
Close it is recorded and Close goes on (R249, log entry 20). -/
def State.transportError (s : State) (c : TransportCall) : State :=
  match s.task with
  | none => s
  | some t =>
    if t.op = .close then
      { s with task := some { t with firstError := some (t.firstError.getD (.transport t.op c)) } }
    else s.fatal t.op (.transport t.op c)

/-- The block waits: the step it is at is run again at its next turn (R389). -/
def State.again (s : State) (m : BlockStep) : State :=
  { s with task := s.task.map (fun t => { t with prog := m :: t.prog }) }

/-! ## Session registers -/

/-- A session register is read: with no value it is `fault NotReady` (R43, R348). -/
def readRegister {α : Type} (r : Option α) : Except Mark α :=
  match r with
  | some x => .ok x
  | none => .error .notReady

/-- The numeric code of an error (R341). -/
def OpError.code : OpError → Nat
  | .transport _ _ => 1
  | .protocolSync _ _ => 2
  | .unsupportedDevice _ => 3
  | .invalidOffset _ => 4
  | .outOfRange _ => 5
  | .endOfMemory => 6

/-- `EndOfMemory` is 'not a failure'; the other five are failures (R340, R347). -/
def OpError.isFailure : OpError → Bool
  | .endOfMemory => false
  | .transport _ _ | .protocolSync _ _ | .unsupportedDevice _ | .invalidOffset _ | .outOfRange _ => true

end Sys2Proof.Machine
end

