-- ==== Sys2Proof/Machine/Operands.lean ====
section
/-! DEFINITION. The operands the block computes: delay lengths (R126 to R130, R137), pin states of the ICSP lines
(R170), control states of the cartridge lines (R285), and the operand checks of the emitters. -/

namespace Sys2Proof.Machine

/-! ## Delays -/

/-- The length `emitWaitMicro(t)` encodes, on unbounded naturals (R129, R137). -/
def microLength (m : Mode) (t : Nat) : Nat := (Config.cpuUs m * t * Config.margin) >>> 3

/-- The length `emitWaitMilli(t)` encodes (R130, R137). -/
def milliLength (m : Mode) (t : Nat) : Nat := (Config.cpuMs m * t * Config.margin) >>> 3

/-- Units a short delay lasts: `u + 1` (R126). -/
def shortUnits (u : Nat) : Nat := u + 1

/-- Units a long delay lasts: `8 * (n + 1)` (R127). -/
def longUnits (n : Nat) : Nat := 8 * (n + 1)

/-- Periods of the adapter's base clock in one unit: `2 * (1 + div)` (R128). The base clock itself is open. -/
def unitBaseClocks (div : Half) : Nat := 2 * (1 + div.toNat)

/-! ## ICSP pin states (R170) -/

/-- `b ? DAT : 0`. -/
def dataLevel (b : Bool) : Byte := if b then Config.dat else 0#8

/-- `Wh(b)`: data `b`, clock high, data driven. -/
def pinWh (p : Config.Params) (b : Bool) : Instr :=
  .setlo (p.icspBase ||| dataLevel b ||| p.clk) p.icspDir

/-- `Wl(b)`: data `b`, clock low, data driven. -/
def pinWl (p : Config.Params) (b : Bool) : Instr := .setlo (p.icspBase ||| dataLevel b) p.icspDir

/-- `Rh`: clock high, data line input. -/
def pinRh (p : Config.Params) : Instr := .setlo (p.icspBase ||| p.clk) (p.icspDir &&& ~~~Config.dat)

/-- `Rl`: clock low, data line input. -/
def pinRl (p : Config.Params) : Instr := .setlo p.icspBase (p.icspDir &&& ~~~Config.dat)

/-- `Ro`: clock low, data driven low. -/
def pinRo (p : Config.Params) : Instr := .setlo p.icspBase p.icspDir

/-! ## Cartridge control states (R285) -/

/-- The `OR` of masks. -/
def orMasks (ms : List Byte) : Byte := ms.foldl (· ||| ·) 0#8

/-- `ctrlA(S)`. -/
def ctrlA (p : Config.Params) (ms : List Byte) : Byte := p.ctrlIdleA ^^^ orMasks ms

/-- `ctrlB(S)`. -/
def ctrlB (p : Config.Params) (ms : List Byte) : Byte := p.ctrlIdleB ^^^ orMasks ms

/-- `emitPinWrite(bank, v, d)` as an instruction (R122, R123). -/
def pinWrite : Bank → Byte → Byte → Instr
  | .lo, v, d => .setlo v d
  | .hi, v, d => .sethi v d

/-- `emitPinRead(bank)` as an instruction (R124, R125). -/
def pinRead : Bank → Instr
  | .lo => .readlo
  | .hi => .readhi

/-- `setA(S)` (R285). -/
def setA (p : Config.Params) (ms : List Byte) : Instr := pinWrite Config.ctrlBank (ctrlA p ms) p.ctrlDirA

/-- `setB(S)` (R285). -/
def setB (p : Config.Params) (ms : List Byte) : Instr := pinWrite Config.ctrlBank (ctrlB p ms) p.ctrlDirB

/-! ## Emission -/

/-- The pin reads an instruction requests (R26, R136): one for a pin read, none for any other. -/
def samplesOf : Instr → Nat
  | .readlo | .readhi => 1
  | .setlo _ _ | .sethi _ _ | .loopon | .loopoff | .setdiv _ | .waithi | .waits _ | .waitl _ | .probe
  | .loadaddr _ | .readword | .progword _ | .progbyte _ | .incaddr | .erase _ | .key0 | .key1 | .key2
  | .key3 => 0

/-- The check an emitter of layer 1 makes on its operand, its channel and the mode before it writes
(R126, R127, R131, R134). -/
def State.emitCheck (s : State) (ch : Chan) : Instr → Option Mark
  | .waits u => if u > 7 then some .paramRange else none
  | .waitl n => if n > 0xFFFF then some .waitLengthOverflow else none
  | .setdiv n => if n > 0xFFFF then some .paramRange else none
  | .waithi => if s.mode = .cart ∧ ch = .b then none else some .unmodelled
  | .setlo _ _ | .readlo | .sethi _ _ | .readhi | .loopon | .loopoff | .probe
  | .loadaddr _ | .readword | .progword _ | .progbyte _ | .incaddr | .erase _ | .key0 | .key1 | .key2
  | .key3 => none

/-- `emit(ch, bytes)` with the bound check: all bytes are written and the cursor and the request count move, or
`fault BufferOverflow` and nothing is written (R11, R24, R26). -/
def State.emitBytes (s : State) (ch : Chan) (bytes : List Byte) (reads : Nat) : Except Mark State :=
  let p := s.port ch
  if p.cur + bytes.length ≤ s.limit ch then
    .ok ({ s with buf := Memory.writeBytes s.buf p.cur bytes }.setPort ch
      { p with cur := p.cur + bytes.length, nreq := p.nreq + reads })
  else .error .bufferOverflow

/-- One layer-1 emitter: its check, then its bytes at the cursor (R120). -/
def State.emitInstr (s : State) (ch : Chan) (i : Instr) : Except Mark State :=
  match s.emitCheck ch i with
  | some f => .error f
  | none => s.emitBytes ch (encode i) (samplesOf i)

/-- Emitters in order, each at the cursor the one before it left (R138); the first fault ends the operation and
what was written before it stays written (R24). -/
def State.emitAll (s : State) (ch : Chan) : List Instr → State
  | [] => s
  | i :: is =>
    match s.emitInstr ch i with
    | .error f => s.fault f
    | .ok t => State.emitAll t ch is

/-- Emission of a stream whose operand check comes before any byte (R350): a fault of the check, or the
stream. -/
def State.emitStream (s : State) (ch : Chan) : Except Mark (List Instr) → State
  | .error f => s.fault f
  | .ok is => s.emitAll ch is

end Sys2Proof.Machine
end

