-- ==== Sys2Proof/Machine/Flags.lean ====
section
/-! DEFINITION. The machine has no condition flags (R28); an engine's flag-like state is its loopback bit (R33) and
its status (R35). Here are their writes, the other effects of layer-1 execution on an engine, and the two sides of
an instruction: emitted by the block, executed by an engine. -/

namespace Sys2Proof.Machine

/-- `loop[e] <- b` (R132, R133). -/
def State.setLoop (s : State) (c : Chan) (b : Bool) : State :=
  s.setEngine c { s.engine c with loop := b }

/-- `st[e] <- x` (R131). -/
def State.setStatus (s : State) (c : Chan) (x : Status) : State :=
  s.setEngine c { s.engine c with st := x }

/-- `val[e][b] <- v; dir[e][b] <- d` (R122, R123). -/
def State.drivePins (s : State) (c : Chan) (b : Bank) (v d : Byte) : State :=
  match b with
  | .lo => s.setEngine c { s.engine c with valLo := v, dirLo := d }
  | .hi => s.setEngine c { s.engine c with valHi := v, dirHi := d }

/-- `rsp[e] <- rsp[e] ++ bytes` (R124, R135). -/
def State.respond (s : State) (c : Chan) (bytes : List Byte) : State :=
  s.setEngine c { s.engine c with rsp := (s.engine c).rsp ++ bytes }

/-- One pin read: a draw is appended to the response FIFO and used up (R70, R124). -/
def State.samplePins (s : State) (c : Chan) : State :=
  s.setEngine c
    { s.engine c with
      rsp := (s.engine c).rsp ++ [s.sample c]
      samples := (s.engine c).samples.next }

/-- `div[e] <- n` (R134). -/
def State.setDivisor (s : State) (c : Chan) (n : Half) : State :=
  s.setEngine c { s.engine c with div := n }

/-- A delay of `n` units: nothing observable, its length left as an annotation (R126, R127, log entry 25). -/
def State.delayFor (s : State) (c : Chan) (n : Nat) : State :=
  s.setEngine c { s.engine c with delay := n }

/-- `WAITHI` starts on a running engine: it becomes blocked; on a blocked one it polls the ready line once and
runs on if the line is high (R131). -/
def State.waitHigh (s : State) (c : Chan) : State :=
  match (s.engine c).st with
  | .running => s.setStatus c .blocked
  | .blocked => s.popLevel.setStatus c (if s.readyLevel then .running else .blocked)

/-- The two sides of a layer-1 instruction (40_assembler.md): on the block's turn it is emitted on the channel
given; on an engine's turn that engine executes it (log entry 13). -/
def State.bySide (s : State) (i : Instr) (run : Chan → Host.Outcome State Fault Refusal) :
    Host.Outcome State Fault Refusal :=
  match s.turn with
  | .block => .next (s.emitAll s.emitCh [i])
  | .engine c => run c

end Sys2Proof.Machine
end

