-- ==== Sys2Proof/Machine/Assembler.lean ====
section
/-! DEFINITION. The Command Assembler instructions (40_assembler.md): one meaning for each of layer 1, its Emit on
the block's turn and its Execution on an engine's turn. -/

namespace Sys2Proof.Machine

/-- `SETLO v, d` (R122). -/
def execSetlo (v d : Byte) (s : State) : Host.Outcome State Fault Refusal :=
  s.bySide (.setlo v d) fun c => .next (s.drivePins c .lo v d)

/-- `READLO` (R124). -/
def execReadlo (s : State) : Host.Outcome State Fault Refusal :=
  s.bySide .readlo fun c => .next (s.samplePins c)

/-- `SETHI v, d` (R123). -/
def execSethi (v d : Byte) (s : State) : Host.Outcome State Fault Refusal :=
  s.bySide (.sethi v d) fun c => .next (s.drivePins c .hi v d)

/-- `READHI` (R125). -/
def execReadhi (s : State) : Host.Outcome State Fault Refusal :=
  s.bySide .readhi fun c => .next (s.samplePins c)

/-- `LOOPON` (R132). -/
def execLoopon (s : State) : Host.Outcome State Fault Refusal :=
  s.bySide .loopon fun c => .next (s.setLoop c true)

/-- `LOOPOFF` (R133). -/
def execLoopoff (s : State) : Host.Outcome State Fault Refusal :=
  s.bySide .loopoff fun c => .next (s.setLoop c false)

/-- `SETDIV n` (R134). An engine has a meaning only for an operand that an encoding holds (log entry 16). -/
def execSetdiv (n : Nat) (s : State) : Host.Outcome State Fault Refusal :=
  s.bySide (.setdiv n) fun c =>
    if n < 2 ^ 16 then .next (s.setDivisor c (BitVec.ofNat 16 n)) else .refused .unencodableOperand

/-- `WAITHI` (R131). It executes on engine B alone (log entry 15). -/
def execWaithi (s : State) : Host.Outcome State Fault Refusal :=
  s.bySide .waithi fun c =>
    match c with
    | .b => .next (s.waitHigh .b)
    | .icsp => .refused (.waitHighOffB .icsp)
    | .a => .refused (.waitHighOffB .a)

/-- `WAITS u` (R126). An engine has a meaning only for an operand that an encoding holds (log entry 16). -/
def execWaits (u : Nat) (s : State) : Host.Outcome State Fault Refusal :=
  s.bySide (.waits u) fun c =>
    if u < 8 then .next (s.delayFor c (shortUnits u)) else .refused .unencodableOperand

/-- `WAITL n` (R127). An engine has a meaning only for an operand that an encoding holds (log entry 16). -/
def execWaitl (n : Nat) (s : State) : Host.Outcome State Fault Refusal :=
  s.bySide (.waitl n) fun c =>
    if n < 2 ^ 16 then .next (s.delayFor c (longUnits n)) else .refused .unencodableOperand

/-- `PROBE` (R135): the engine answers with the echo `ECHO_BAD, PROBE`. -/
def execProbe (s : State) : Host.Outcome State Fault Refusal :=
  s.bySide .probe fun c => .next (s.respond c [Config.echoBad, Config.probe])

end Sys2Proof.Machine
end

