-- ==== Sys2Proof/Machine/Codec.lean ====
section
/-! DEFINITION. The Bit/Word Codec (41_codec.md): ICSP bits, commands and frames as layer-1 streams, the read frame,
the decoding of samples, and the cartridge latches. -/

namespace Sys2Proof.Machine

/-! ## Transmit -/

/-- `icspBit(b)` (R171). -/
def icspBit (p : Config.Params) (b : Bool) : List Instr := [pinWh p b, pinWl p b]

/-- The bits of a byte, bit 7 first (R64, R172). -/
def byteBits (x : Byte) : List Bool :=
  [x.getLsbD 7, x.getLsbD 6, x.getLsbD 5, x.getLsbD 4, x.getLsbD 3, x.getLsbD 2, x.getLsbD 1, x.getLsbD 0]

/-- The bits of a byte clocked out (R172). -/
def icspByte (p : Config.Params) (x : Byte) : List Instr := (byteBits x).flatMap (icspBit p)

/-- `icspCommand(c)`: `fault ParamRange` above 8 bits (R172). -/
def icspCommand (p : Config.Params) (c : Nat) : Except Mark (List Instr) :=
  if c > 0xFF then .error .paramRange else .ok (icspByte p (lo8 c))

/-- `frame(p)` of a payload of width `w`, with its range check (R173). A width outside R173's four, for which no rule
is given, is `fault ParamRange` as well (DESIGN CHOICE, log entry 39); no operation asks for one. -/
def checkedFrame (w x : Nat) : Except Mark (BitVec 24) :=
  if w ∈ [4, 8, 16, 22] ∧ x < 2 ^ w then .ok (frameValue x) else .error .paramRange

/-- `icspFrame(p)` (R174). -/
def icspFrame (p : Config.Params) (w x : Nat) : Except Mark (List Instr) :=
  match checkedFrame w x with
  | .error f => .error f
  | .ok f => .ok ((frameBytes f).flatMap (icspByte p))

/-! ## Read frame -/

/-- One pulse of the read frame: clock high, clock low, sample (R176). -/
def readPulse (p : Config.Params) : List Instr := [pinRh p, pinRl p, .readlo]

/-- `icspReadFrame()` (R176). -/
def icspReadFrame (p : Config.Params) : List Instr :=
  [pinRl p, .waits Config.readGapM1] ++ (List.replicate 24 (readPulse p)).flatten ++ [pinRo p]

/-! ## Decoding -/

/-- `bit(s) = s[5]` (R178). -/
def sampleBit (x : Byte) : Bool := x.getLsbD 5

/-- One step of the fold: `w = (w << 1) | bit` (R179). -/
def foldBit (w : Half) (b : Bool) : Half := (w <<< 1) ||| (if b then 1#16 else 0#16)

/-- `decodeWord`: the fold of samples 7 to 22, MSB first (R179). Total on every list (R182). -/
def decodeWord (samples : List Byte) : Half :=
  ((samples.drop 7).take 16).foldl (fun w x => foldBit w (sampleBit x)) 0#16

/-- The samples of word `j`: `24j .. 24j+23` (R183). -/
def wordSamples (samples : List Byte) (j : Nat) : List Byte := (samples.drop (24 * j)).take 24

/-- The first `k` words of a read-back (R183, R184). -/
def decodeWords (k : Nat) (samples : List Byte) : List Half :=
  (List.range k).map fun j => decodeWord (wordSamples samples j)

/-- The block's output bytes for a word, low byte first (R67, R181). -/
def outputBytes (w : Half) : List Byte := [w.extractLsb' 0 8, w.extractLsb' 8 8]

/-- `swap16(w)`, the value the source returns; no rule consumes it (R181, 90_conflicts.md C5). -/
def swap16 (w : Half) : Half := (w.extractLsb' 0 8) ++ (w.extractLsb' 8 8)

/-- The output bytes of a batch of `k` words (R183, R238). -/
def batchBytes (k : Nat) (samples : List Byte) : List Byte := (decodeWords k samples).flatMap outputBytes

/-! ## Cartridge latches -/

/-- `cartLatch(ch, x)`: `fault ParamRange` above 8 bits (R186). -/
def cartLatch (x : Nat) : Except Mark Instr :=
  if x > 0xFF then .error .paramRange else .ok (pinWrite Config.dataBank (lo8 x) 0xFF)

/-- `cartRelease(ch)` (R187). -/
def cartRelease : Instr := pinWrite Config.dataBank 0x00 0x00

/-- `cartSample(ch)` (R188). -/
def cartSample : Instr := pinRead Config.dataBank

/-- Word `i` of a cartridge read: `(SB[i] << 8) | SA[i]` (R189). -/
def cartWord (a b : Byte) : Half := b ++ a

/-- The words of a cartridge read (R189). -/
def cartWords (sa sb : List Byte) : List Half := (sa.zip sb).map fun x => cartWord x.1 x.2

/-- The output bytes `SA[0], SB[0], SA[1], SB[1], ..` (R68, R189). -/
def cartBytes (sa sb : List Byte) : List Byte := (sa.zip sb).flatMap fun x => [x.1, x.2]

/-! ## Pseudo-instructions (R106) -/

/-- The layer-1 stream of an emitter on a channel, or the fault of its operand check. An instruction of the table
is run by its own meaning, so here it stands for itself. -/
def expand (p : Config.Params) (ch : Chan) : Emitter → Except Mark (List Instr)
  | .instr i => .ok [i]
  | .waitUs t => .ok [.waitl (microLength ch.mode t)]
  | .waitMs t => .ok [.waitl (milliLength ch.mode t)]
  | .icspBit b => .ok (icspBit p b)
  | .icspCmd c => icspCommand p c
  | .icspFrame w x => icspFrame p w x
  | .icspRead => .ok (icspReadFrame p)
  | .cartLatch x =>
    match cartLatch x with
    | .error f => .error f
    | .ok i => .ok [i]
  | .cartRelease => .ok [cartRelease]
  | .cartSample => .ok [cartSample]

end Sys2Proof.Machine
end

