-- ==== Sys2Proof/Machine/Icsp.lean ====
section
/-! DEFINITION. The layer-2 instructions (R104) and the ICSP operations as the steps the block runs
(42_icsp_sequencer.md). -/

namespace Sys2Proof.Machine

/-! ## Layer-2 instructions -/

/-- A command followed by a payload frame and a delay, with the operand check first (R104, R350). -/
def commandFrame (p : Config.Params) (c : Byte) (w x : Nat) (after : List Instr) : Except Mark (List Instr) :=
  match icspFrame p w x with
  | .error f => .error f
  | .ok is => .ok (icspByte p c ++ is ++ after)

/-- `loadAddress(a)` (R228). -/
def loadAddressStream (p : Config.Params) (a : Nat) : Except Mark (List Instr) :=
  commandFrame p p.opLoadPc 22 a []

/-- `readWord` (R177, R229). -/
def readWordStream (p : Config.Params) : List Instr := icspByte p p.opReadInc ++ icspReadFrame p

/-- `PROGWORD w` (R244). -/
def progWordStream (p : Config.Params) (w : Nat) : Except Mark (List Instr) :=
  commandFrame p p.opProgInc 16 w [.waitl (microLength .icsp p.tProgWordUs)]

/-- `PROGBYTE b` (R245). -/
def progByteStream (p : Config.Params) (b : Nat) : Except Mark (List Instr) :=
  commandFrame p p.opProgByte 8 b [.waitl (microLength .icsp p.tProgByteUs)]

/-- `ERASE m` (R247). -/
def eraseStream (p : Config.Params) (m : Nat) : Except Mark (List Instr) :=
  commandFrame p p.opBulkErase 4 m [.waitl (milliLength .icsp p.tEraseMs)]

/-- `LOADADDR a` (R228). -/
def execLoadaddr (a : Nat) (s : State) : Host.Outcome State Fault Refusal :=
  .next (s.emitStream .icsp (loadAddressStream s.params a))

/-- `READWORD` (R229). -/
def execReadword (s : State) : Host.Outcome State Fault Refusal :=
  .next (s.emitAll .icsp (readWordStream s.params))

/-- `PROGWORD w` (R244). -/
def execProgword (w : Nat) (s : State) : Host.Outcome State Fault Refusal :=
  .next (s.emitStream .icsp (progWordStream s.params w))

/-- `PROGBYTE b` (R245). -/
def execProgbyte (b : Nat) (s : State) : Host.Outcome State Fault Refusal :=
  .next (s.emitStream .icsp (progByteStream s.params b))

/-- `INCADDR` (R244). -/
def execIncaddr (s : State) : Host.Outcome State Fault Refusal :=
  .next (s.emitAll .icsp (icspByte s.params s.params.opIncAddr))

/-- `ERASE m` (R247). -/
def execErase (m : Nat) (s : State) : Host.Outcome State Fault Refusal :=
  .next (s.emitStream .icsp (eraseStream s.params m))

/-- `KEY0` (R227). -/
def execKey0 (s : State) : Host.Outcome State Fault Refusal :=
  .next (s.emitAll .icsp (icspByte s.params s.params.key0))

/-- `KEY1` (R227). -/
def execKey1 (s : State) : Host.Outcome State Fault Refusal :=
  .next (s.emitAll .icsp (icspByte s.params s.params.key1))

/-- `KEY2` (R227). -/
def execKey2 (s : State) : Host.Outcome State Fault Refusal :=
  .next (s.emitAll .icsp (icspByte s.params s.params.key2))

/-- `KEY3` (R227). -/
def execKey3 (s : State) : Host.Outcome State Fault Refusal :=
  .next (s.emitAll .icsp (icspByte s.params s.params.key3))

/-! ## Footprints (R136, R250) -/

/-- The bytes an instruction emits: its own for layer 1, those of its stream for layer 2. -/
def footprint : Instr → Nat
  | .setlo _ _ | .sethi _ _ | .setdiv _ | .waitl _ => 3
  | .readlo | .readhi | .loopon | .loopoff | .waithi | .probe => 1
  | .waits _ => 2
  | .loadaddr _ => 192
  | .readword => 224
  | .progword _ | .progbyte _ | .erase _ => 195
  | .incaddr | .key0 | .key1 | .key2 | .key3 => 48

/-! ## Open -/

/-- One emission of an instruction on the single channel. -/
def onIcsp (i : Instr) : BlockStep := .emit .icsp (.instr i)

/-- `KEYENTRY` (R227). -/
def keyEntry (p : Config.Params) : List BlockStep :=
  [onIcsp (.setlo p.icspBase p.icspDir), .emit .icsp (.waitUs p.tHoldUs), onIcsp .key0, onIcsp .key1,
   onIcsp .key2, onIcsp .key3, .emit .icsp (.waitUs p.tKeyUs)]

/-- One identity read: load the address, read `n` words in one buffer, and keep them (R230 to R232). -/
def identityRead (a : TargetAddr) (n : Nat) (store : BlockStep) : List BlockStep :=
  [onIcsp (.loadaddr a.toNat)] ++ List.replicate n (onIcsp .readword) ++ [.flush, .readBack .icsp, store]

/-- Open, steps O1 to O12 in order (R220 to R236), grouped into buffers as D43 says. -/
def openProgram (p : Config.Params) : List BlockStep :=
  [.begin, onIcsp .loopon, .flush, .readEmpty .o1]
  ++ [onIcsp .probe, .flush, .readEcho]
  ++ [onIcsp .loopoff, .flush, .readEmpty .o3]
  ++ [onIcsp (.setdiv p.divIcsp.toNat), .flush]
  ++ [onIcsp (.setlo p.idleVal p.idleDir), .emit .icsp (.waitUs p.tIdleUs)] ++ keyEntry p ++ [.flush]
  ++ identityRead p.aUserId Config.nUserId .storeUserId
  ++ identityRead p.aConfig Config.nConfig .storeConfig
  ++ identityRead p.aDevId Config.nDevId .storeIds
  ++ [onIcsp (.loadaddr 0), .flush, .clearAddr]
  ++ [.resolveLength, .finishOpen]

/-! ## Read, Write, BulkErase, Close -/

/-- The words of the next round trip while `rem` bytes are wanted: a batch while 64 whole words are (R238). -/
def roundWords (rem : Nat) : Nat := if rem ≥ 2 * Config.batch then Config.batch else 1

/-- The round trips of a Read (R238): `load` is the address load of the first buffer. `fuel` bounds the
number of round trips; `rem` itself is always enough. -/
def readRounds : Nat → Nat → List BlockStep → List BlockStep
  | 0, _, _ => []
  | fuel + 1, rem, load =>
    if rem = 0 then []
    else
      load ++ List.replicate (roundWords rem) (onIcsp .readword)
        ++ [.flush, .readBack .icsp, .collect (min rem (2 * roundWords rem))]
        ++ readRounds fuel (rem - 2 * roundWords rem) []

/-- Read of `m >= 1` bytes at `addr` (R238). -/
def readProgram (addr m : Nat) : List BlockStep :=
  [.begin] ++ readRounds m m [onIcsp (.loadaddr addr)] ++ [.finishRead m]

/-- The units of a Write: whole words, low byte first, with `0xFFFF` the sentinel, then the trailing byte
(R243 to R245). -/
def writeUnits : List Byte → List Instr
  | b0 :: b1 :: rest =>
    (if le16 b0 b1 = 0xFFFF then .incaddr else .progword (le16 b0 b1)) :: writeUnits rest
  | [b] => [.progbyte b.toNat]
  | [] => []

/-- Units appended to the current buffer while they fit the capacity, else a new buffer is started
(R243, R251, D22). -/
def cutUnits (cap : Nat) : Nat → List Instr → List BlockStep
  | _, [] => []
  | used, u :: us =>
    if used + footprint u ≤ cap then onIcsp u :: cutUnits cap (used + footprint u) us
    else .flush :: onIcsp u :: cutUnits cap (footprint u) us

/-- Write of at least one byte at `addr` (R243). -/
def writeProgram (p : Config.Params) (addr : Nat) (bytes : List Byte) : List BlockStep :=
  [.begin, onIcsp (.loadaddr addr)] ++ cutUnits p.cap (footprint (.loadaddr addr)) (writeUnits bytes)
    ++ [.flush, .finishWrite bytes.length]

/-- BulkErase (R247). -/
def eraseProgram (regions : Nat) : List BlockStep := [.begin, onIcsp (.erase regions), .flush, .finishPlain]

/-- Close of an open session (R249). -/
def closeProgram (p : Config.Params) : List BlockStep :=
  [.begin, onIcsp (.setlo p.closeVal p.icspDir), .emit .icsp (.waitUs p.tCloseUs), .flush,
   .transport .setBitMode, .transport .close, .finishClose]

end Sys2Proof.Machine
end

