-- ==== Sys2Proof/Machine/Dispatch.lean ====
section
/-! DEFINITION. One arm per instruction. -/

namespace Sys2Proof.Machine

def exec (i : Instr) (s : State) : Host.Outcome State Fault Refusal :=
  match i with
  | .setlo v d => Sys2Proof.Machine.execSetlo v d s
  | .readlo => Sys2Proof.Machine.execReadlo s
  | .sethi v d => Sys2Proof.Machine.execSethi v d s
  | .readhi => Sys2Proof.Machine.execReadhi s
  | .loopon => Sys2Proof.Machine.execLoopon s
  | .loopoff => Sys2Proof.Machine.execLoopoff s
  | .setdiv n => Sys2Proof.Machine.execSetdiv n s
  | .waithi => Sys2Proof.Machine.execWaithi s
  | .waits u => Sys2Proof.Machine.execWaits u s
  | .waitl n => Sys2Proof.Machine.execWaitl n s
  | .probe => Sys2Proof.Machine.execProbe s
  | .loadaddr a => Sys2Proof.Machine.execLoadaddr a s
  | .readword => Sys2Proof.Machine.execReadword s
  | .progword w => Sys2Proof.Machine.execProgword w s
  | .progbyte b => Sys2Proof.Machine.execProgbyte b s
  | .incaddr => Sys2Proof.Machine.execIncaddr s
  | .erase m => Sys2Proof.Machine.execErase m s
  | .key0 => Sys2Proof.Machine.execKey0 s
  | .key1 => Sys2Proof.Machine.execKey1 s
  | .key2 => Sys2Proof.Machine.execKey2 s
  | .key3 => Sys2Proof.Machine.execKey3 s

end Sys2Proof.Machine
end

