-- ==== Sys2Proof/Machine/Cartridge.lean ====
section
/-! DEFINITION. The cartridge operations as the two streams the block composes and the steps it runs
(43_dual_channel.md). -/

namespace Sys2Proof.Machine

/-- Emissions of one stream, in order, on one channel. -/
def onChan (ch : Chan) (es : List Emitter) : List BlockStep := es.map (.emit ch)

/-- `gateA(H, body)` (R286). -/
def gateA (p : Config.Params) (held : List Byte) (body : List Emitter) : List Emitter :=
  [.instr (setA p (held ++ [p.csA]))] ++ body ++ [.instr (setA p held)]

/-- `gateB(body)` (R286). -/
def gateB (body : List Emitter) : List Emitter := .instr .waithi :: body

/-! ## SetupPins and ResetCart -/

/-- The A stream of SetupPins (R287). -/
def setupA (p : Config.Params) : List Emitter :=
  [.instr (.setdiv p.divCart.toNat), .instr (setA p []), .cartRelease]

/-- The B stream of SetupPins (R287). -/
def setupB (p : Config.Params) : List Emitter :=
  [.instr (.setdiv p.divCart.toNat), .instr (setB p []), .cartRelease]

/-- SetupPins (R287). The rule does not say which stream is composed first; the model composes all of A, then all of B
(DESIGN CHOICE, log entry 40). -/
def setupProgram (p : Config.Params) : List BlockStep :=
  [.begin] ++ onChan .a (setupA p) ++ onChan .b (setupB p) ++ [.flushPair, .finishSetup]

/-- The A stream of ResetCart; the B stream is empty (R288). -/
def resetA (p : Config.Params) : List Emitter :=
  [.instr (setA p [p.rstA]), .waitUs p.tCartResetUs, .instr (setA p [])]

/-- ResetCart (R288). -/
def resetProgram (p : Config.Params) : List BlockStep :=
  [.begin] ++ onChan .a (resetA p) ++ [.flushPair, .finishPlain]

/-! ## SetAddress -/

/-- The four phases of one address half on channel A: the half `v` and its address-enable line `l` (R290). -/
def addressHalfA (p : Config.Params) (v : Nat) (l : Byte) : List Emitter :=
  gateA p [] [.cartLatch (lo8 v).toNat] ++ gateA p [l] [] ++ gateA p [l] [.waitUs p.tCartSettleUs]
    ++ gateA p [] []

/-- The four phases of one address half on channel B (R291). -/
def addressHalfB (p : Config.Params) (v : Nat) : List Emitter :=
  gateB [.cartLatch (hi8 v).toNat] ++ gateB [] ++ gateB [.waitUs p.tCartSettleUs] ++ gateB []

/-- The A stream of SetAddress, high half first (R289, R290). -/
def addressA (p : Config.Params) (a : Nat) : List Emitter :=
  addressHalfA p (a >>> 16) p.alehA ++ addressHalfA p (a % 65536) p.alelA ++ [.cartRelease]

/-- The B stream of SetAddress (R289, R291). -/
def addressB (p : Config.Params) (a : Nat) : List Emitter :=
  addressHalfB p (a >>> 16) ++ addressHalfB p (a % 65536) ++ [.cartRelease]

/-- SetAddress (R289 to R292), A composed before B (DESIGN CHOICE, log entry 40): where both settle delays are too
long, A's is the fault (R350). -/
def addressProgram (p : Config.Params) (a : Nat) : List BlockStep :=
  [.begin] ++ onChan .a (addressA p a) ++ onChan .b (addressB p a) ++ [.flushPair, .finishPlain]

/-! ## ReadROM512 -/

/-- One read cycle on channel A (R294). -/
def romCycleA (p : Config.Params) : List Emitter :=
  [.instr (setA p [p.csA]), .instr (setA p [p.csA, p.rdA]), .waitUs p.tCartSettleUs, .cartSample,
   .instr (setA p [p.csA]), .instr (setA p [])]

/-- One read cycle on channel B (R295). -/
def romCycleB (p : Config.Params) : List Emitter :=
  [.instr .waithi, .instr (setB p [p.rdB]), .waitUs p.tCartSettleUs, .cartSample, .instr (setB p [])]

/-- `n` cycles of a stream. -/
def cycles (n : Nat) (c : List Emitter) : List Emitter := (List.replicate n c).flatten

/-- ReadROM512 (R294 to R296): A composed before B (DESIGN CHOICE, log entry 40), one paired flush, then the read-back
of B and of A. -/
def romProgram (p : Config.Params) : List BlockStep :=
  [.begin] ++ onChan .a (cycles Config.nCycles (romCycleA p)) ++ onChan .b (cycles Config.nCycles (romCycleB p))
    ++ [.flushPair, .readBack .b, .readBack .a, .finishRom]

end Sys2Proof.Machine
end

