-- ==== Sys2Proof/Machine/Transport.lean ====
section
/-! DEFINITION. The block's transport calls (R45): the flush of a channel (R65), the paired flush (R73, R283), the
read-back of samples (R66, R284), and the reads of the self-test (R222 to R224). -/

namespace Sys2Proof.Machine

/-- The port of a channel after a flush: cursor at the base, no request counted, the samples requested owed
(R65, R66, R283). -/
def State.afterFlush (s : State) (ch : Chan) : State :=
  s.setPort ch { cur := s.base ch, nreq := 0, owed := (s.port ch).nreq, got := [] }

/-- Bytes reach an engine's queue (R45). -/
def State.enqueue (s : State) (ch : Chan) (bytes : List Byte) : State :=
  s.setEngine ch { s.engine ch with q := (s.engine ch).q ++ bytes }

/-- One transport `write` of a channel's composed bytes (R45, R65): whether it succeeded, and the state. An error
appends nothing; a short count appends what it counts and is a failure (log entry 18). -/
def State.writeOut (s : State) (ch : Chan) : Except Fault (Bool × State) :=
  match s.composed ch with
  | .error f => .error f
  | .ok bytes =>
    match s.answer with
    | .error => .ok (false, s.popAnswer)
    | .count k =>
      if bytes.length ≤ k then .ok (true, s.popAnswer.enqueue ch bytes)
      else .ok (false, s.popAnswer.enqueue ch (bytes.take k))

/-- Flush of the single channel (R65). Where its write fails, cursor and count go back to what they were before the
operation, with the whole state of the block (R352, log entry 37); in Close, which goes on, at its end (log entry
20). -/
def State.flushIcsp (s : State) : Host.Outcome State Fault Refusal :=
  match s.writeOut .icsp with
  | .error f => .fault f
  | .ok (true, t) => .next (t.afterFlush .icsp)
  | .ok (false, t) => .next (t.transportError .write)

/-- One half of the paired flush: 'an empty half is flushed as no call' (R283). -/
def State.writeHalf (s : State) (ch : Chan) : Except Fault (Bool × State) :=
  if (s.port ch).cur = s.base ch then .ok (true, s) else s.writeOut ch

/-- Paired flush: B's bytes, then A's, with nothing between; after the pair both ports are reset (R73, R283, log
entry 24). Where a write fails, cursors and counts go back to what they were before the operation (R352, log entry
37); what B's engine was sent stays sent. -/
def State.flushBoth (s : State) : Host.Outcome State Fault Refusal :=
  match s.writeHalf .b with
  | .error f => .fault f
  | .ok (false, t) => .next (t.transportError .write)
  | .ok (true, t) =>
    match t.writeHalf .a with
    | .error f => .fault f
    | .ok (false, u) => .next (u.transportError .write)
    | .ok (true, u) => .next ((u.afterFlush .b).afterFlush .a)

/-- The first `n` response bytes of a channel are removed from its FIFO into `got` (R32, R45). -/
def State.takeResponses (s : State) (ch : Chan) (n : Nat) : State :=
  (s.setEngine ch { s.engine ch with rsp := (s.engine ch).rsp.drop n }).setPort ch
    { s.port ch with owed := 0, got := (s.engine ch).rsp.take n }

/-- `readExact(ch, n)` with `n` the samples owed (R45, R66, R284): no call for 0; an error; the bytes; or the
block waits (R389, log entry 19). -/
def State.readBack (s : State) (ch : Chan) : State :=
  if (s.port ch).owed = 0 then s.takeResponses ch 0
  else
    match s.answer with
    | .error => s.popAnswer.transportError .readExact
    | .count _ =>
      if (s.port ch).owed ≤ (s.engine ch).rsp.length then s.popAnswer.takeResponses ch (s.port ch).owed
      else s.popAnswer.again (.readBack ch)

/-- O1 and O3: one `read`, which must return no byte (R222, R224). -/
def State.readEmpty (s : State) (t : SelfTest) : State :=
  match s.answer with
  | .error => s.popAnswer.transportError .read
  | .count k =>
    let e := s.engine .icsp
    if e.rsp.take k = [] then s.popAnswer
    else (s.popAnswer.setEngine .icsp { e with rsp := e.rsp.drop k }).fatal .openIcsp (.protocolSync t [])

/-- O2: one `read` of at most the bytes still missing of two; with two collected they must be the echo
(R223). -/
def State.readEcho (s : State) : State :=
  match s.answer with
  | .error => s.popAnswer.transportError .read
  | .count k =>
    let e := s.engine .icsp
    let p := s.port .icsp
    let n := min k (2 - p.got.length)
    let got := p.got ++ e.rsp.take n
    let t := (s.popAnswer.setEngine .icsp { e with rsp := e.rsp.drop n }).setPort .icsp { p with got := got }
    if got.length < 2 then t.again .readEcho
    else if got = [Config.echoBad, Config.probe] then t
    else t.fatal .openIcsp (.protocolSync .o2 got)

/-- A transport call that carries no bytes (R45, R249). -/
def State.plainCall (s : State) (c : TransportCall) : State :=
  match s.answer with
  | .error => s.popAnswer.transportError c
  | .count _ => s.popAnswer

end Sys2Proof.Machine
end

