-- ==== Sys2Proof/Machine/Sequencer.lean ====
section
/-! DEFINITION. How the block begins a call, with the checks of R350 in their order, and the steps that write the
session registers and end an operation. -/

namespace Sys2Proof.Machine

/-! ## Beginning a call -/

/-- An operation starts with the given steps; what the block holds is kept for R352. -/
def State.start (s : State) (op : OpName) (prog : List BlockStep) : State :=
  { s with task := some ⟨op, prog, [], none, s.saved⟩ }

/-- `addr` and `pmLen` of a ready session, else `fault NotReady` (R43, R237, R241, R243). -/
def State.readyCursor (s : State) : Except Mark (Nat × Nat) :=
  if s.sess = .ready then
    match readRegister s.regs.addr, readRegister s.regs.pmLen with
    | .ok a, .ok n => .ok (a, n)
    | .error f, _ => .error f
    | _, .error f => .error f
  else .error .notReady

/-- Open (R221): from `Closed` or `Failed`, with no cartridge session on the buffer (R396, log entry 21). Until a
pin write of the new session the engine's pin registers keep what the last session left (R30, U3: unspecified; DESIGN
CHOICE, log entry 38). -/
def State.callOpen (s : State) : State :=
  if (s.sess = .closed ∨ s.sess = .failed) ∧ s.sessC = .closed then
    { s with mode := .icsp, sess := .opening }.start .openIcsp (openProgram s.params)
  else s.fault .notReady

/-- Read (R237). -/
def State.callRead (s : State) (n : Nat) : State :=
  match s.readyCursor with
  | .error f => s.fault f
  | .ok (addr, len) =>
    if len ≤ addr then s.endTask (.error .endOfMemory)
    else if addr % 2 = 1 then s.fault .unalignedCursor
    else if min n (len - addr) = 0 then s.endTask (.bytes [])
    else s.start .read (readProgram addr (min n (len - addr)))

/-- Where a `Seek` counts from (R241). -/
def seekBase (addr : Nat) : Whence → Except Mark Int
  | .start => .ok 0
  | .current => .ok addr
  | .other => .error .unsupportedWhence

/-- Seek (R241, R242, R350): parity first, then the range `[0, pmLen)`. -/
def State.callSeek (s : State) (offset : Int) (w : Whence) : State :=
  match s.readyCursor with
  | .error f => s.fault f
  | .ok (addr, len) =>
    match seekBase addr w with
    | .error f => s.fault f
    | .ok base =>
      if offset % 2 ≠ 0 then s.endTask (.error (.invalidOffset offset))
      else if base + offset < 0 ∨ (len : Int) ≤ base + offset then
        s.endTask (.error (.outOfRange (base + offset)))
      else
        { s with regs := { s.regs with addr := some (base + offset).toNat } }.endTask
          (.position (base + offset).toNat)

/-- Write (R243). -/
def State.callWrite (s : State) (bytes : List Byte) : State :=
  match s.readyCursor with
  | .error f => s.fault f
  | .ok (addr, len) =>
    if bytes.length = 0 then s.endTask (.count 0)
    else if addr % 2 = 1 then s.fault .unalignedCursor
    else if len < addr + bytes.length then s.fault .writeBeyondEnd
    else s.start .write (writeProgram s.params addr bytes)

/-- BulkErase (R247). -/
def State.callErase (s : State) (regions : Nat) : State :=
  if s.sess = .ready then
    if regions > 0xF then s.fault .paramRange else s.start .bulkErase (eraseProgram regions)
  else s.fault .notReady

/-- Close (R249): of a closed session, nothing. -/
def State.callClose (s : State) : State :=
  if s.sess = .closed then s.endTask .done else s.start .close (closeProgram s.params)

/-- SetupPins (R287): accepted in every `sessC` state, with no ICSP session on the buffer (R396, log entry 21). Until
a pin write of the new session the engines' pin registers keep what the last session left, and a wired poll of B can
read A's (R30, U3: unspecified; DESIGN CHOICE, log entry 38). -/
def State.callSetup (s : State) : State :=
  if s.sess = .closed then { s with mode := .cart }.start .setupPins (setupProgram s.params)
  else s.fault .notReady

/-- ResetCart (R288). -/
def State.callReset (s : State) : State :=
  if s.sessC = .ready then s.start .resetCart (resetProgram s.params) else s.fault .notReady

/-- SetAddress (R289). -/
def State.callAddress (s : State) (a : Nat) : State :=
  if s.sessC = .ready then
    if a < 2 ^ 32 then s.start .setAddress (addressProgram s.params a) else s.fault .paramRange
  else s.fault .notReady

/-- ReadROM512 (R294). -/
def State.callRom (s : State) : State :=
  if s.sessC = .ready then s.start .readRom512 (romProgram s.params) else s.fault .notReady

/-- The cartridge session ends with the release of its handle (R300, log entry 32). -/
def State.callRelease (s : State) : State := { s with sessC := .closed }.endTask .done

/-- The block begins a call. -/
def State.beginCall (s : State) : Call → State
  | .openIcsp => s.callOpen
  | .read n => s.callRead n
  | .seek offset w => s.callSeek offset w
  | .write bytes => s.callWrite bytes
  | .bulkErase regions => s.callErase regions
  | .close => s.callClose
  | .setupPins => s.callSetup
  | .resetCart => s.callReset
  | .setAddress a => s.callAddress a
  | .readRom512 => s.callRom
  | .releaseCart => s.callRelease

/-! ## Session registers -/

/-- O7: `userId[j]` is word `j` of the samples (R230). -/
def State.storeUserId (s : State) : State :=
  let got := (s.port .icsp).got
  { s with
    regs := { s.regs with userId := some (Vector.ofFn fun j : Fin 32 => decodeWord (wordSamples got j.val)) } }

/-- O8: `config[j]` is the low byte of word `j` (R231). -/
def State.storeConfig (s : State) : State :=
  let got := (s.port .icsp).got
  { s with
    regs := { s.regs with
      config := some (Vector.ofFn fun j : Fin 10 => (decodeWord (wordSamples got j.val)).extractLsb' 0 8) } }

/-- `revMajor`: the character `'A'` plus the 6-bit major field (R233). -/
def revMajorOf (rev : Half) : Byte := 0x41#8 + (rev.extractLsb' 6 6).zeroExtend 8

/-- `revMinor`: bits 5 to 0 (R233). -/
def revMinorOf (rev : Half) : BitVec 6 := rev.extractLsb' 0 6

/-- O9: revision word, then device word, and the revision's fields (R232, R233). -/
def State.storeIds (s : State) : State :=
  let got := (s.port .icsp).got
  let rev := decodeWord (wordSamples got 0)
  { s with
    regs := { s.regs with
      revId := some rev
      devId := some (decodeWord (wordSamples got 1))
      revMajor := some (revMajorOf rev)
      revMinor := some (revMinorOf rev) } }

/-- O10: `addr <- 0` (R234). -/
def State.clearAddr (s : State) : State := { s with regs := { s.regs with addr := some 0 } }

/-- `PM_LEN(d)`: the length the table gives the device, if any (R235). -/
def pmLookup (p : Config.Params) (d : Half) : Option Nat :=
  (p.pmLen.find? fun e => e.1 == d).map Prod.snd

/-- O11 (R235, R344). -/
def State.resolveLength (s : State) : State :=
  match readRegister s.regs.devId with
  | .error f => s.fault f
  | .ok d =>
    match pmLookup s.params d with
    | none => s.fatal .openIcsp (.unsupportedDevice d)
    | some n => { s with regs := { s.regs with pmLen := some n } }

/-! ## Ends of operations -/

/-- O12 (R236). -/
def State.finishOpen (s : State) : State := { s with sess := .ready }.endTask .done

/-- The decoded bytes of a round trip join the output, at most `want` of them (R238, R239). -/
def State.collect (s : State) (want : Nat) : State :=
  let got := (s.port .icsp).got
  { s with
    task := s.task.map fun t => { t with out := t.out ++ (batchBytes (got.length / 24) got).take want } }

/-- `addr <- addr + n`, and the operation returns (R237, R243). -/
def State.advance (s : State) (n : Nat) (r : Result) : State :=
  match readRegister s.regs.addr with
  | .error f => s.fault f
  | .ok a => { s with regs := { s.regs with addr := some (a + n) } }.endTask r

/-- The output of the operation in progress. -/
def State.output (s : State) : List Byte :=
  match s.task with
  | some t => t.out
  | none => []

/-- The first transport error of the operation in progress, if it met one (R249). -/
def State.firstError (s : State) : Option OpError :=
  match s.task with
  | some t => t.firstError
  | none => none

/-- Close ends: the session is closed and its registers lose their values; the first transport error is reported,
and then buffer and ports are as they were before it (R249, R352, log entry 37). -/
def State.finishClose (s : State) : State :=
  match s.firstError with
  | some e => { s.restoreBuffer with sess := .closed, regs := SessionRegs.none }.endTask (.error e)
  | none => { s with sess := .closed, regs := SessionRegs.none }.endTask .done

/-- SetupPins ends (R287). -/
def State.finishSetup (s : State) : State := { s with sessC := .ready }.endTask .done

/-- ReadROM512 ends: the 512 interleaved bytes (R296). -/
def State.finishRom (s : State) : State := s.endTask (.bytes (cartBytes (s.port .a).got (s.port .b).got))

end Sys2Proof.Machine
end

