-- ==== Sys2Proof/Machine/Agents.lean ====
section
/-! DEFINITION. One step of each agent: an engine fetches the instruction at the front of its queue and executes it
(R100, R121); the block begins a call or runs the next step of its operation (R74). -/

namespace Sys2Proof.Machine

/-! ## Engines -/

/-- The instruction's bytes leave the queue once it has finished; a `WAITHI` still blocked has not (R121, R131). -/
def State.retire (s : State) (c : Chan) (i : Instr) (rest : List Byte) : State :=
  if i = .waithi ∧ (s.engine c).st = .blocked then s
  else s.setEngine c { s.engine c with q := rest }

/-- One step of an engine. An empty queue, or an instruction not wholly there, leaves it idle (R100); a stream
that is no encoding is refused (R97). -/
def engineStep (c : Chan) (s : State) : Host.Outcome State Fault Refusal :=
  match decode (s.engine c).q with
  | .error .incomplete => .next s
  | .error (.unlistedOpcode b) => .refused (.unlistedOpcode b)
  | .error (.reservedOperand u) => .refused (.reservedOperand u)
  | .ok (i, rest) =>
    match exec i s with
    | .next t => .next (t.retire c i rest)
    | .fault f => .fault f
    | .refused r => .refused r

/-! ## The block -/

/-- One emission (R12): an instruction of the table by its own meaning, a pseudo-instruction by its expansion
(R106). -/
def runEmitter (ch : Chan) (e : Emitter) (s : State) : Host.Outcome State Fault Refusal :=
  match e with
  | .instr i => exec i { s with emitCh := ch }
  | .waitUs _ | .waitMs _ | .icspBit _ | .icspCmd _ | .icspFrame _ _ | .icspRead | .cartLatch _
  | .cartRelease | .cartSample => .next ({ s with emitCh := ch }.emitStream ch (expand s.params ch e))

/-- One step of the operation in progress; in `s` that step is already taken off the task. -/
def runStep (m : BlockStep) (s : State) : Host.Outcome State Fault Refusal :=
  match m with
  | .begin => .next s.beginBuffer
  | .emit ch e => runEmitter ch e s
  | .flush => s.flushIcsp
  | .flushPair => s.flushBoth
  | .readBack ch => .next (s.readBack ch)
  | .readEmpty t => .next (s.readEmpty t)
  | .readEcho => .next s.readEcho
  | .storeUserId => .next s.storeUserId
  | .storeConfig => .next s.storeConfig
  | .storeIds => .next s.storeIds
  | .clearAddr => .next s.clearAddr
  | .resolveLength => .next s.resolveLength
  | .finishOpen => .next s.finishOpen
  | .collect want => .next (s.collect want)
  | .finishRead m => .next (s.advance m (.bytes s.output))
  | .finishWrite n => .next (s.advance n (.count n))
  | .finishPlain => .next (s.endTask .done)
  | .transport c => .next (s.plainCall c)
  | .finishClose => .next s.finishClose
  | .finishSetup => .next s.finishSetup
  | .finishRom => .next s.finishRom

/-- One step of the block: the next step of its operation, or the beginning of the caller's next call, or
nothing where no call waits (R74, R381). -/
def blockStep (s : State) : Host.Outcome State Fault Refusal :=
  match s.task with
  | some t =>
    match t.prog with
    | m :: rest => runStep m { s with task := some { t with prog := rest } }
    | [] => .next (s.endTask .done)
  | none =>
    match s.calls with
    | c :: cs => .next ({ s with calls := cs }.beginCall c)
    | [] => .next s

/-- One step of the agent whose turn it is. -/
def agentStep (s : State) : Host.Outcome State Fault Refusal :=
  match s.turn with
  | .block => blockStep s
  | .engine c => engineStep c s

/-- The next turn is drawn once the agent has taken its step (R76, R121). -/
def passTurn : Host.Outcome State Fault Refusal → Host.Outcome State Fault Refusal
  | .next s => .next s.nextTurn
  | .fault f => .fault f
  | .refused r => .refused r

/-- An instruction word placed where an engine fetches it: at the front of the queue of engine B, the one engine
that executes every layer-1 instruction (R131), running and on turn. -/
def State.placeWord (s : State) (nbits w : Nat) : State :=
  { s.setEngine .b { s.engine .b with q := wordBytes nbits w, st := .running } with turn := .engine .b }

end Sys2Proof.Machine
end

