-- ==== Sys2Proof/Machine/Step.lean ====
section
/-! DEFINITION. One step of the machine, and the state whose next step runs a given instruction word. -/

namespace Sys2Proof.Machine

/-- One step: the agent whose turn it is takes its step, and the next turn is drawn (R76, R121). -/
def step (s : State) : Host.Outcome State Fault Refusal := passTurn (agentStep s)

/-- The state with an instruction word where the next step fetches (log entry 26). -/
def State.withFetchWord (s : State) (nbits w : Nat) : State := s.placeWord nbits w

end Sys2Proof.Machine
end

