-- ==== Sys2Proof/Safety.lean ====
section
/-! DEFINITION. The terms claims are stated in: what an emission and an engine's execution leave unchanged, the byte
streams of the ICSP wire written out, and the invariants of the buffer, of the sessions and of a ready session. -/

namespace Sys2Proof.Machine

/-! ## Frames -/

/-- Every part of the state but one engine is as it was. -/
def SameButEngine (c : Chan) (s t : State) : Prop :=
  (∀ d, d ≠ c → t.engine d = s.engine d) ∧ { t with engines := s.engines } = s

/-- Every part of the state but the buffer and one port is as it was. -/
def SameButPort (ch : Chan) (s t : State) : Prop :=
  (∀ d, d ≠ ch → t.port d = s.port d) ∧ { t with buf := s.buf, ports := s.ports } = s

/-- `bytes` were written at the cursor of a channel, and nothing else changed: the cursor moved past them, the
request count grew by `reads`, every offset outside them reads as before (R11, R24, R26). -/
def Emitted (ch : Chan) (bytes : List Byte) (reads : Nat) (s t : State) : Prop :=
  t.port ch =
      { s.port ch with cur := (s.port ch).cur + bytes.length, nreq := (s.port ch).nreq + reads }
    ∧ (∀ k, k < bytes.length → Memory.read t.buf ((s.port ch).cur + k) = bytes[k]?)
    ∧ (∀ i, i < (s.port ch).cur ∨ (s.port ch).cur + bytes.length ≤ i →
        Memory.read t.buf i = Memory.read s.buf i)
    ∧ SameButPort ch s t

/-- The operation ended with a fault of R348 and nothing else changed: the mark is set, no operation is in
progress, the model's record of it is the last result. -/
def Faulted (f : Mark) (s t : State) : Prop :=
  t.faulted = true ∧ t.task = none ∧ t.results = s.results ++ [.marked f]
    ∧ { t with faulted := s.faulted, task := s.task, results := s.results } = s

/-- A fatal error ended the operation (R341, R342, R352): it is the last result, no operation is in progress, the
session of the operation is `Failed`, and buffer, ports and registers are as they were before the operation. Nothing
else changed but engines and the transport's answers left, of which a claim speaks itself. That the buffer's bytes come
back and that the mode stays the session's is the model's reading (log entry 37). -/
def Ended (e : OpError) (task : Task) (s t : State) : Prop :=
  { t with engines := s.engines, answers := s.answers } =
    { s with
      buf := task.before.buf, ports := task.before.ports
      sess := if task.op.isCart then s.sess else .failed
      sessC := if task.op.isCart then .failed else s.sessC
      regs := if task.op.isCart then s.regs else task.before.regs
      task := none, results := s.results ++ [.error e] }

/-- No session, operation or fault changed hands: what an engine's step leaves to the block. -/
def SameBlock (s t : State) : Prop :=
  t.params = s.params ∧ t.buf = s.buf ∧ t.mode = s.mode ∧ t.ports = s.ports ∧ t.sess = s.sess
    ∧ t.sessC = s.sessC ∧ t.regs = s.regs ∧ t.faulted = s.faulted ∧ t.task = s.task
    ∧ t.emitCh = s.emitCh ∧ t.calls = s.calls ∧ t.results = s.results ∧ t.answers = s.answers

/-! ## The ICSP wire, written out -/

/-- The six bytes of one clocked bit (R171): data and clock high, then data and clock low. -/
def bitBytes (p : Config.Params) (b : Bool) : List Byte :=
  [0x80, p.icspBase ||| (if b then 0x20 else 0x00) ||| (1#8 <<< p.clkBit.val), p.icspDir,
   0x80, p.icspBase ||| (if b then 0x20 else 0x00), p.icspDir]

/-- The bytes of the `n` low bits of a value, most significant bit first (R64). -/
def bitsBytes (p : Config.Params) (n v : Nat) : List Byte :=
  (List.range n).flatMap fun k => bitBytes p (v.testBit (n - 1 - k))

/-- The bytes of a command, of 8 bits (R172). -/
def commandBytes (p : Config.Params) (c : Byte) : List Byte := bitsBytes p 8 c.toNat

/-- The bytes of a payload frame: the 24 bits of the payload shifted left by one (R174). -/
def payloadBytes (p : Config.Params) (x : Nat) : List Byte := bitsBytes p 24 (2 * x)

/-- The bytes of a long delay of a given length (R127). -/
def longDelayBytes (n : Nat) : List Byte := [0x8F, BitVec.ofNat 8 n, BitVec.ofNat 8 (n / 256)]

/-- The bytes of the read frame (R176): data line an input, the 2-unit gap, 24 pulses with a sample each, data
line driven low again. -/
def readFrameBytes (p : Config.Params) : List Byte :=
  [0x80, p.icspBase, p.icspDir &&& 0xDF, 0x8E, 0x01]
    ++ (List.replicate 24
        [0x80, p.icspBase ||| (1#8 <<< p.clkBit.val), p.icspDir &&& 0xDF,
         0x80, p.icspBase, p.icspDir &&& 0xDF, 0x81]).flatten
    ++ [0x80, p.icspBase, p.icspDir]

/-! ## The buffers of a program -/

/-- The instructions a program emits on a channel, in order. -/
def emitted (ch : Chan) : List BlockStep → List Emitter
  | [] => []
  | .emit c e :: rest => if c = ch then e :: emitted ch rest else emitted ch rest
  | _ :: rest => emitted ch rest

/-- What a program has emitted on a channel at each of its flushes since the flush before it; `acc` is what it has
emitted since the last one (R65, R283). -/
def buffers (ch : Chan) : List Emitter → List BlockStep → List (List Emitter)
  | _, [] => []
  | acc, .emit c e :: rest => buffers ch (if c = ch then acc ++ [e] else acc) rest
  | acc, .flush :: rest => acc :: buffers ch [] rest
  | acc, .flushPair :: rest => acc :: buffers ch [] rest
  | acc, _ :: rest => buffers ch acc rest

/-- The steps of a program that are no emission, in order. -/
def transactions (prog : List BlockStep) : List BlockStep :=
  prog.filter fun
    | .emit _ _ => false
    | _ => true

/-- The steps of a program one after another, as far as the operation lasts, with the engines standing still. -/
def runProgram : List BlockStep → State → Host.Outcome State Fault Refusal
  | [], s => .next s
  | m :: rest, s =>
    match runStep m s with
    | .next t => if t.task = none then .next t else runProgram rest t
    | .fault f => .fault f
    | .refused r => .refused r

/-- The bytes in the single channel's buffer at each flush of a program of table instructions, counted by
footprint (R250). -/
def flushSizes : Nat → List BlockStep → List Nat
  | _, [] => []
  | used, .emit .icsp (.instr i) :: rest => flushSizes (used + footprint i) rest
  | used, .flush :: rest => used :: flushSizes 0 rest
  | used, _ :: rest => flushSizes used rest

/-- The bytes a stream of emitters writes on a channel, where none of them faults. -/
def streamBytes (p : Config.Params) (ch : Chan) : List Emitter → List Byte
  | [] => []
  | e :: es =>
    (match expand p ch e with
      | .ok is => is.flatMap encode
      | .error _ => []) ++ streamBytes p ch es

/-! ## Invariants -/

/-- The command buffer: the capacity is legal, the cells are in canonical form and below the capacity, every
cursor is in its region, and every offset below a cursor holds a byte (R20, R22, R25). -/
def BufferOk (s : State) : Prop :=
  s.params.capWf = true ∧ Memory.wf s.buf = true ∧ (∀ c ∈ s.buf, c.1 < s.params.cap)
    ∧ (∀ ch, s.base ch ≤ (s.port ch).cur ∧ (s.port ch).cur ≤ s.limit ch)
    ∧ (∀ ch i, s.base ch ≤ i → i < (s.port ch).cur → (Memory.read s.buf i).isSome = true)

/-- The command buffer is as `BufferOk` says, and so is the one an error would bring back (R352, log entry 37). -/
def BufferInv (s : State) : Prop := BufferOk s ∧ BufferOk s.restoreBuffer

/-- Which steps an operation is made of. -/
def BlockStep.fits (op : OpName) : BlockStep → Bool
  | .begin | .emit _ _ | .readBack _ => true
  | .flush => !op.isCart
  | .flushPair => op.isCart
  | .readEmpty _ | .readEcho | .storeUserId | .storeConfig | .storeIds | .clearAddr | .resolveLength
  | .finishOpen => op == .openIcsp
  | .collect _ | .finishRead _ => op == .read
  | .finishWrite _ => op == .write
  | .finishPlain => op == .bulkErase || op == .resetCart || op == .setAddress
  | .transport _ | .finishClose => op == .close
  | .finishSetup => op == .setupPins
  | .finishRom => op == .readRom512

/-- The sessions: at most one is open on the buffer and the mode is its mode; registers have no value outside a
session; the operation in progress belongs to its session and is made of its own steps (R21, R43, R396). -/
def SessionInv (s : State) : Prop :=
  (s.sess ≠ .closed → s.mode = .icsp ∧ s.sessC = .closed)
    ∧ (s.sessC ≠ .closed → s.mode = .cart ∧ s.sess = .closed)
    ∧ (s.sess = .closed → s.regs = SessionRegs.none)
    ∧ ∀ t, s.task = some t →
        t.prog.all (BlockStep.fits t.op) = true
          ∧ (t.op.isCart = true → s.mode = .cart ∧ s.sess = .closed)
          ∧ (t.op.isCart = false → s.mode = .icsp ∧ s.sess ≠ .closed ∧ s.sessC = .closed)

/-- Every session register holds a value. -/
def SessionRegs.full (r : SessionRegs) : Prop :=
  r.devId.isSome ∧ r.revId.isSome ∧ r.revMajor.isSome ∧ r.revMinor.isSome ∧ r.userId.isSome
    ∧ r.config.isSome ∧ r.addr.isSome ∧ r.pmLen.isSome

/-- A ready session has a value in every register; while an Open runs, each register has one or the step that
writes it is still to come, and the session becomes ready by the last step of that Open alone (R41, R42, R220,
R236). -/
def ReadyInv (s : State) : Prop :=
  (s.sess = .ready → s.regs.full)
    ∧ ∀ t, s.task = some t →
        (BlockStep.finishOpen ∈ t.prog →
          (∃ before, t.prog = before ++ [.finishOpen] ∧ BlockStep.finishOpen ∉ before)
            ∧ (s.regs.userId.isSome ∨ .storeUserId ∈ t.prog)
            ∧ (s.regs.config.isSome ∨ .storeConfig ∈ t.prog)
            ∧ ((s.regs.devId.isSome ∧ s.regs.revId.isSome ∧ s.regs.revMajor.isSome ∧ s.regs.revMinor.isSome)
                ∨ .storeIds ∈ t.prog)
            ∧ (s.regs.addr.isSome ∨ .clearAddr ∈ t.prog)
            ∧ (s.regs.pmLen.isSome ∨ .resolveLength ∈ t.prog))

/-- A blocked engine is engine B with a `WAITHI` at the front of its queue (R35, R131). -/
def WaitInv (s : State) : Prop :=
  ∀ c, (s.engine c).st = .blocked → c = .b ∧ (s.engine c).q.head? = some Config.opWaitHigh

/-- The fault mark is clear: the run so far met no fault of R348 (R46). -/
def Unmarked (s : State) : Prop := s.faulted = false

end Sys2Proof.Machine
end

