-- ==== Sys2Proof/Certificates/Slice0/Obligations.lean ====
section
/-! DEFINITION. The statements for the provers, in six groups: the encodings, emission by the block, execution by an
engine, the codec, the operations of the block, and the machine as a whole. -/

open Sys2Proof Sys2Proof.Machine

/-! ## Encodings -/

/-- R94: the bytes of every layer-1 instruction, as the field table lists them. -/
def Obligations.EncodingsAreTheFieldTable : Prop :=
  (∀ v d, encode (.setlo v d) = [0x80, v, d]) ∧ encode .readlo = [0x81]
    ∧ (∀ v d, encode (.sethi v d) = [0x82, v, d]) ∧ encode .readhi = [0x83]
    ∧ encode .loopon = [0x84] ∧ encode .loopoff = [0x85]
    ∧ (∀ n : Half, encode (.setdiv n.toNat) = [0x86, n.extractLsb' 0 8, n.extractLsb' 8 8])
    ∧ encode .waithi = [0x88]
    ∧ (∀ u : BitVec 3, encode (.waits u.toNat) = [0x8E, 0#5 ++ u])
    ∧ (∀ n : Half, encode (.waitl n.toNat) = [0x8F, n.extractLsb' 0 8, n.extractLsb' 8 8])
    ∧ encode .probe = [0xAA]

/-- A few words of the table, written out bit by bit from its encodings, decode to their instructions: a sanity
statement. -/
def Obligations.WrittenWordsDecode : Prop :=
  decodeTableWord 24 0b001110000011000010000000 = some (.setlo 0x30 0x38)
    ∧ decodeTableWord 8 0b10000001 = some .readlo
    ∧ decodeTableWord 24 0b000000000000111010000110 = some (.setdiv 14)
    ∧ decodeTableWord 16 0b0000000110001110 = some (.waits 1)
    ∧ decodeTableWord 24 0b000000011111010010001111 = some (.waitl 500)
    ∧ decodeTableWord 8 0b10001000 = some .waithi
    ∧ decodeTableWord 8 0b10101010 = some .probe
    ∧ decodeTableWord 8 0b10000111 = none

/-- Decoding and encoding of layer 1 agree in both directions: a stream decodes to an instruction and a rest exactly
where it is the encoding of that well-formed layer-1 instruction followed by that rest (R94, R99). -/
def Obligations.DecodeInvertsEncode : Prop :=
  ∀ (bytes : List Byte) (i : Instr) (rest : List Byte),
    decode bytes = .ok (i, rest) ↔
      i.layerOne = true ∧ i.wellFormed = true ∧ bytes = encode i ++ rest

/-- R99: a buffer of whole instructions is decoded by instruction length alone, back to exactly the instructions
emitted, and ends at an instruction boundary. -/
def Obligations.EmittedStreamsDecodeWhole : Prop :=
  ∀ is : List Instr, (∀ i ∈ is, i.layerOne = true ∧ i.wellFormed = true) →
    decodeAll is.length (is.flatMap encode) = .ok is

/-- A first byte outside the table is refused by name, with whatever follows it, and no listed first byte is; so is
a `WAITS` operand above 7 (R96, R97). -/
def Obligations.ReservedEncodingsAreRefused : Prop :=
  ∀ (b : Byte) (rest : List Byte),
    (decode (b :: rest) = .error (.unlistedOpcode b) ↔
      b ∉ ([0x80, 0x81, 0x82, 0x83, 0x84, 0x85, 0x86, 0x88, 0x8E, 0x8F, 0xAA] : List Byte))
    ∧ ∀ u : Byte, (decode (0x8E :: u :: rest) = .error (.reservedOperand u) ↔ 7 < u.toNat)

/-- The wire form of every well-formed layer-2 instruction is read back, and where the command bytes of R103 are
distinct it has no other reading (R101 to R104; the list of readings is the model's, log entry 27). -/
def Obligations.WireFormsAreReadBack : Prop :=
  ∀ (p : Config.Params) (i : Instr), i.layerOne = false → i.wellFormed = true →
    i ∈ decodeUnit p (encodeUnit p i)
      ∧ ([p.opLoadPc, p.opReadInc, p.opProgInc, p.opProgByte, p.opIncAddr, p.opBulkErase, p.key0, p.key1,
            p.key2, p.key3].Nodup →
          decodeUnit p (encodeUnit p i) = [i])

/-- R102: in the frame of a payload of width `W`, bit 23 and bit 0 are 0, bits `W` to 1 carry the payload, the bits
between are 0, and the three frame bytes are the three bytes of the frame, the high one first. -/
def Obligations.FrameBitsAreTheFieldTable : Prop :=
  ∀ w x : Nat, w ∈ [4, 8, 16, 22] → x < 2 ^ w →
    (frameValue x).getLsbD 23 = false ∧ (frameValue x).getLsbD 0 = false
      ∧ (∀ j, j < w → (frameValue x).getLsbD (j + 1) = x.testBit j)
      ∧ (∀ j, w < j → j ≤ 22 → (frameValue x).getLsbD j = false)
      ∧ (frameBytes (frameValue x)).map BitVec.toNat
          = [(frameValue x).toNat / 65536, (frameValue x).toNat / 256 % 256, (frameValue x).toNat % 256]

/-! ## Emission -/

/-- R24, on the block's turn, for every well-formed layer-1 instruction: where its bytes fit the channel's region,
they are written at the cursor, the cursor and the request count move, and nothing else changes; where they do not,
`fault BufferOverflow` is raised and nothing is written. `WAITHI` is emitted on channel B in `CART` mode (R131). -/
def Obligations.LayerOneEmissionIsBoundChecked : Prop :=
  ∀ (i : Instr) (s : State), i.layerOne = true → i.wellFormed = true → s.turn = .block →
    (i = .waithi → s.mode = .cart ∧ s.emitCh = .b) →
    ((s.port s.emitCh).cur + (encode i).length ≤ s.limit s.emitCh →
        ∃ t, exec i s = .next t
          ∧ Emitted s.emitCh (encode i) (if i = .readlo ∨ i = .readhi then 1 else 0) s t)
    ∧ (s.limit s.emitCh < (s.port s.emitCh).cur + (encode i).length →
        ∃ t, exec i s = .next t ∧ Faulted .bufferOverflow s t)

/-- The emitters' own checks, on the block's turn: a `WAITS` operand above 7 and a divisor above `0xFFFF` are
`fault ParamRange`, a long-delay length above `0xFFFF` is `fault WaitLengthOverflow`, `WAITHI` off channel B of
`CART` mode is `fault Unmodelled`; nothing is written (R126, R127, R131, R134). -/
def Obligations.EmitterChecksFault : Prop :=
  ∀ s : State, s.turn = .block →
    (∀ u, 7 < u → ∃ t, exec (.waits u) s = .next t ∧ Faulted .paramRange s t)
    ∧ (∀ n, 0xFFFF < n → ∃ t, exec (.waitl n) s = .next t ∧ Faulted .waitLengthOverflow s t)
    ∧ (∀ n, 0xFFFF < n → ∃ t, exec (.setdiv n) s = .next t ∧ Faulted .paramRange s t)
    ∧ (¬ (s.mode = .cart ∧ s.emitCh = .b) → ∃ t, exec .waithi s = .next t ∧ Faulted .unmodelled s t)

/-- What running a pseudo-instruction does. R129, R130, R137: a calibrated delay of `t` microseconds or milliseconds is
a long delay whose length is the clocks of `t` doubled and divided by 8 rounding down, on unbounded naturals, at 2
clocks a microsecond on the ICSP channel and 10 on A and B; a length above `0xFFFF` is `fault WaitLengthOverflow` and
is never reduced. R171 to R176, R186 to R188: a bit, a command, a payload frame, the read frame, a latch, a release and
a sample are the bytes and the sample requests listed, on the channel given, and nothing else changes. A command or
latch above `0xFF` and a payload too wide are `fault ParamRange` with nothing written, and so is a frame of a width
R173 does not list (the model's choice, log entry 39). Where the bytes do not fit, the layer-1 instructions they are
made of are written as far as they fit, with a sample request for each pin read among them, and the first that does not
is `fault BufferOverflow` (R24, R26). -/
def Obligations.CalibratedDelaysAreExact : Prop :=
  ∀ (s : State) (ch : Chan),
    (∀ (t : Nat) (e : Emitter) (clocks : Nat),
      (e = .waitUs t ∧ clocks = (if ch = .icsp then 2 else 10) * t)
        ∨ (e = .waitMs t ∧ clocks = (if ch = .icsp then 2000 else 10000) * t) →
      (clocks * 2 / 8 ≤ 0xFFFF → (s.port ch).cur + 3 ≤ s.limit ch →
          ∃ u, runEmitter ch e s = .next u
            ∧ Emitted ch (longDelayBytes (clocks * 2 / 8)) 0 { s with emitCh := ch } u)
      ∧ (clocks * 2 / 8 ≤ 0xFFFF → s.limit ch < (s.port ch).cur + 3 →
          ∃ u, runEmitter ch e s = .next u ∧ Faulted .bufferOverflow { s with emitCh := ch } u)
      ∧ (0xFFFF < clocks * 2 / 8 →
          ∃ u, runEmitter ch e s = .next u ∧ Faulted .waitLengthOverflow { s with emitCh := ch } u))
    ∧ (∀ (e : Emitter) (bytes : List Byte) (reads : Nat),
      (∃ b, e = .icspBit b ∧ bytes = bitBytes s.params b ∧ reads = 0)
        ∨ (∃ c, e = .icspCmd c ∧ c ≤ 0xFF ∧ bytes = bitsBytes s.params 8 c ∧ reads = 0)
        ∨ (∃ w x, e = .icspFrame w x ∧ w ∈ [4, 8, 16, 22] ∧ x < 2 ^ w
            ∧ bytes = payloadBytes s.params x ∧ reads = 0)
        ∨ (e = .icspRead ∧ bytes = readFrameBytes s.params ∧ reads = 24)
        ∨ (∃ x : Byte, e = .cartLatch x.toNat ∧ bytes = [0x82, x, 0xFF] ∧ reads = 0)
        ∨ (e = .cartRelease ∧ bytes = [0x82, 0x00, 0x00] ∧ reads = 0)
        ∨ (e = .cartSample ∧ bytes = [0x83] ∧ reads = 1) →
      ((s.port ch).cur + bytes.length ≤ s.limit ch →
        ∃ u, runEmitter ch e s = .next u ∧ Emitted ch bytes reads { s with emitCh := ch } u)
      ∧ (s.limit ch < (s.port ch).cur + bytes.length →
        ∃ (pre post : List Instr) (next : Instr) (mid u : State),
          (pre ++ next :: post).flatMap encode = bytes
            ∧ Emitted ch (pre.flatMap encode) (pre.count .readlo + pre.count .readhi) { s with emitCh := ch } mid
            ∧ (pre ≠ [] → (s.port ch).cur + (pre.flatMap encode).length ≤ s.limit ch)
            ∧ s.limit ch < (s.port ch).cur + (pre.flatMap encode).length + (encode next).length
            ∧ runEmitter ch e s = .next u ∧ Faulted .bufferOverflow mid u))
    ∧ ∀ e : Emitter,
      (∃ c, e = .icspCmd c ∧ 0xFF < c) ∨ (∃ x, e = .cartLatch x ∧ 0xFF < x)
        ∨ (∃ w x, e = .icspFrame w x ∧ (2 ^ w ≤ x ∨ w ∉ [4, 8, 16, 22])) →
      ∃ u, runEmitter ch e s = .next u ∧ Faulted .paramRange { s with emitCh := ch } u

/-- `INCADDR` and the four key bytes are bare commands: eight clocked bits, most significant first, no frame, no
delay, 48 bytes at the cursor of the single channel, and nothing else changes. Where they do not fit, as many whole
pin writes as fit are written and the next is `fault BufferOverflow` (R24, R172, R227, R244). -/
def Obligations.BareCommandsAreEightClockedBits : Prop :=
  ∀ (i : Instr) (c : Byte) (s : State),
    (i, c) ∈ [(Instr.incaddr, s.params.opIncAddr), (.key0, s.params.key0), (.key1, s.params.key1),
      (.key2, s.params.key2), (.key3, s.params.key3)] →
    (commandBytes s.params c).length = 48
      ∧ ((s.port .icsp).cur + 48 ≤ s.params.cap →
        ∃ t, exec i s = .next t ∧ Emitted .icsp (commandBytes s.params c) 0 s t)
      ∧ (s.params.cap < (s.port .icsp).cur + 48 →
        ∃ mid t, Emitted .icsp ((commandBytes s.params c).take (3 * ((s.params.cap - (s.port .icsp).cur) / 3))) 0 s mid
          ∧ exec i s = .next t ∧ Faulted .bufferOverflow mid t)

/-- `LOADADDR`, `PROGWORD`, `PROGBYTE` and `ERASE` with an operand of their width: the command, the 24-bit frame, and
for the last three the delay; nothing else changes. A configured delay too long for its 16 bits is
`fault WaitLengthOverflow` at the delay, with the 192 bytes before it written; a unit that does not fit is
`fault BufferOverflow`, with as many whole instructions as fit written (R24, R228, R244, R245, R247, R350). -/
def Obligations.PayloadUnitsAreCommandFrameDelay : Prop :=
  ∀ (i : Instr) (c : Byte) (x : Nat) (delay : Option Nat) (s : State),
    (i, c, delay) ∈
      [(Instr.loadaddr x, s.params.opLoadPc, none),
       (.progword x, s.params.opProgInc, some (2 * s.params.tProgWordUs * 2 / 8)),
       (.progbyte x, s.params.opProgByte, some (2 * s.params.tProgByteUs * 2 / 8)),
       (.erase x, s.params.opBulkErase, some (2000 * s.params.tEraseMs * 2 / 8))] →
    i.wellFormed = true →
    (commandBytes s.params c ++ payloadBytes s.params x).length = 192
      ∧ (delay = none → (s.port .icsp).cur + 192 ≤ s.params.cap →
        ∃ t, exec i s = .next t ∧ Emitted .icsp (commandBytes s.params c ++ payloadBytes s.params x) 0 s t)
      ∧ (∀ n, delay = some n → n ≤ 0xFFFF → (s.port .icsp).cur + 195 ≤ s.params.cap →
        ∃ t, exec i s = .next t
          ∧ Emitted .icsp (commandBytes s.params c ++ payloadBytes s.params x ++ longDelayBytes n) 0 s t)
      ∧ (∀ n, delay = some n → 0xFFFF < n → (s.port .icsp).cur + 192 ≤ s.params.cap →
        ∃ mid t, Emitted .icsp (commandBytes s.params c ++ payloadBytes s.params x) 0 s mid
          ∧ exec i s = .next t ∧ Faulted .waitLengthOverflow mid t)
      ∧ (∀ bytes, s.params.cap < (s.port .icsp).cur + bytes.length →
        (bytes = commandBytes s.params c ++ payloadBytes s.params x
          ∨ ∃ n, delay = some n ∧ n ≤ 0xFFFF
            ∧ bytes = commandBytes s.params c ++ payloadBytes s.params x ++ longDelayBytes n) →
        ∃ mid t, Emitted .icsp (bytes.take (3 * ((s.params.cap - (s.port .icsp).cur) / 3))) 0 s mid
          ∧ exec i s = .next t ∧ Faulted .bufferOverflow mid t)

/-- `READWORD`: the read command and the read frame, 224 bytes that request 24 samples; nothing else changes. Where it
does not fit, a front part of it is written, of `k` bytes, which requests a sample for every whole pulse in it, the
first ending at byte 60 and one every 7 bytes, and the rest is `fault BufferOverflow` (R24, R26, R176, R177, R229). -/
def Obligations.ReadWordIsCommandAndReadFrame : Prop :=
  ∀ s : State,
    (commandBytes s.params s.params.opReadInc ++ readFrameBytes s.params).length = 224
      ∧ ((s.port .icsp).cur + 224 ≤ s.params.cap →
        ∃ t, exec .readword s = .next t
          ∧ Emitted .icsp (commandBytes s.params s.params.opReadInc ++ readFrameBytes s.params) 24 s t)
      ∧ (s.params.cap < (s.port .icsp).cur + 224 →
        ∃ k mid t,
          Emitted .icsp ((commandBytes s.params s.params.opReadInc ++ readFrameBytes s.params).take k)
              ((k - 53) / 7) s mid
            ∧ s.params.cap < (s.port .icsp).cur + k + 3 ∧ (0 < k → (s.port .icsp).cur + k ≤ s.params.cap)
            ∧ exec .readword s = .next t ∧ Faulted .bufferOverflow mid t)

/-- A layer-2 operand too wide for its field is `fault ParamRange` before any byte is written (R173, R350). -/
def Obligations.WidePayloadsFault : Prop :=
  ∀ (s : State) (x : Nat),
    (2 ^ 22 ≤ x → ∃ t, exec (.loadaddr x) s = .next t ∧ Faulted .paramRange s t)
    ∧ (2 ^ 16 ≤ x → ∃ t, exec (.progword x) s = .next t ∧ Faulted .paramRange s t)
    ∧ (2 ^ 8 ≤ x → ∃ t, exec (.progbyte x) s = .next t ∧ Faulted .paramRange s t)
    ∧ (2 ^ 4 ≤ x → ∃ t, exec (.erase x) s = .next t ∧ Faulted .paramRange s t)

/-! ## Execution by an engine -/

/-- A pin write on an engine's turn replaces the value and the direction byte of its bank, and nothing else changes
(R30, R122, R123). -/
def Obligations.PinWritesReplaceTheirBank : Prop :=
  ∀ (s : State) (c : Chan) (v d : Byte), s.turn = .engine c →
    (∃ t, exec (.setlo v d) s = .next t ∧ t.engine c = { s.engine c with valLo := v, dirLo := d }
        ∧ SameButEngine c s t)
    ∧ (∃ t, exec (.sethi v d) s = .next t ∧ t.engine c = { s.engine c with valHi := v, dirHi := d }
        ∧ SameButEngine c s t)

/-- A pin read on an engine's turn appends one byte to the response FIFO, the environment's next answer whatever it
is, and changes nothing else but what answers are left (R70, R124, R125). Of the samples listed the first is read and
the others are left; with none listed the sample is a free value, another one at each read (the model's form of a draw,
log entry 7). -/
def Obligations.PinReadsAppendOneSample : Prop :=
  ∀ (s : State) (c : Chan) (i : Instr), s.turn = .engine c → i = .readlo ∨ i = .readhi →
    ∃ t, exec i s = .next t
      ∧ t.engine c =
          { s.engine c with rsp := (s.engine c).rsp ++ [s.sample c], samples := (s.engine c).samples.next }
      ∧ SameButEngine c s t
      ∧ (∀ x xs, (s.engine c).samples.script = x :: xs →
        t.engine c = { s.engine c with
          rsp := (s.engine c).rsp ++ [x], samples := { (s.engine c).samples with script := xs } })
      ∧ ((s.engine c).samples.script = [] →
        t.engine c = { s.engine c with
          rsp := (s.engine c).rsp ++ [Config.sample c (s.engine c).samples.count]
          samples := { (s.engine c).samples with count := (s.engine c).samples.count + 1 } })

/-- Loopback on, loopback off and the divisor on an engine's turn write their register alone and answer nothing
(R132, R133, R134). -/
def Obligations.SetupInstructionsWriteTheirRegister : Prop :=
  ∀ (s : State) (c : Chan) (n : Half), s.turn = .engine c →
    (∃ t, exec .loopon s = .next t ∧ t.engine c = { s.engine c with loop := true } ∧ SameButEngine c s t)
    ∧ (∃ t, exec .loopoff s = .next t ∧ t.engine c = { s.engine c with loop := false } ∧ SameButEngine c s t)
    ∧ (∃ t, exec (.setdiv n.toNat) s = .next t ∧ t.engine c = { s.engine c with div := n }
        ∧ SameButEngine c s t)

/-- The delays on an engine's turn do nothing a rule can observe: every field but the annotation `delay` is as it
was; the annotation (the model's, log entry 25) is the length R126 and R127 give, `u + 1` or `8 * (n + 1)` units. -/
def Obligations.DelaysChangeNothingObservable : Prop :=
  ∀ (s : State) (c : Chan), s.turn = .engine c →
    (∀ u, u < 8 →
      ∃ t, exec (.waits u) s = .next t ∧ t.engine c = { s.engine c with delay := u + 1 } ∧ SameButEngine c s t)
    ∧ (∀ n, n < 65536 →
      ∃ t, exec (.waitl n) s = .next t ∧ t.engine c = { s.engine c with delay := 8 * (n + 1) }
        ∧ SameButEngine c s t)

/-- `PROBE` on an engine's turn answers `FA AA` and changes nothing else, the request count among it (R135). -/
def Obligations.ProbeAnswersItsEcho : Prop :=
  ∀ (s : State) (c : Chan), s.turn = .engine c →
    ∃ t, exec .probe s = .next t ∧ t.engine c = { s.engine c with rsp := (s.engine c).rsp ++ [0xFA, 0xAA] }
      ∧ SameButEngine c s t

/-- `WAITHI` on engine B: a running engine becomes blocked; a blocked one polls once and runs again exactly where the
poll reads 1; but for the external levels left to come, nothing else changes (R131, R281). An external poll reads the
first of the levels listed and leaves the others; with none listed the level is a free value, another one at each poll
(the model's form of a draw, log entry 7). A wired poll reads A's control bank and uses up no level. -/
def Obligations.WaitHighBlocksUntilAPollReadsHigh : Prop :=
  ∀ s : State, s.turn = .engine .b →
    ((s.engine .b).st = .running →
        ∃ t, exec .waithi s = .next t ∧ t.engine .b = { s.engine .b with st := .blocked }
          ∧ SameButEngine .b s t)
    ∧ ((s.engine .b).st = .blocked →
        ∃ t, exec .waithi s = .next t
          ∧ t.engine .b = { s.engine .b with st := if s.readyLevel then .running else .blocked }
          ∧ SameButEngine .b { s with levels := t.levels } t
          ∧ (s.params.readyModel = .external →
            (∀ x xs, s.levels.script = x :: xs →
              t.engine .b = { s.engine .b with st := if x then .running else .blocked }
                ∧ t.levels = { s.levels with script := xs })
            ∧ (s.levels.script = [] →
              t.engine .b = { s.engine .b with
                  st := if Config.level s.levels.count then .running else .blocked }
                ∧ t.levels = { s.levels with count := s.levels.count + 1 }))
          ∧ ∀ m, s.params.readyModel = .wired m → t.levels = s.levels)
    ∧ (∀ m, s.params.readyModel = .wired m →
        (s.readyLevel = true ↔ (s.engine .a).valLo &&& m ≠ 0#8 ∧ (s.engine .a).dirLo &&& m ≠ 0#8))

/-- `WAITHI` executes on engine B alone (R131): on another engine it is refused by name. An operand no encoding holds
is refused on an engine (R97). The stops are the model's reading of a case the spec leaves out (log entries 15 and
16). -/
def Obligations.StopsOnAnEngine : Prop :=
  ∀ (s : State) (c : Chan), s.turn = .engine c →
    (c ≠ .b → exec .waithi s = .refused (.waitHighOffB c))
    ∧ (∀ n, 65536 ≤ n → exec (.setdiv n) s = .refused .unencodableOperand
        ∧ exec (.waitl n) s = .refused .unencodableOperand)
    ∧ (∀ u, 8 ≤ u → exec (.waits u) s = .refused .unencodableOperand)

/-! ## Codec -/

/-- R179: the decoded word takes bit 5 of samples 7 to 22, sample 7 the most significant; the other seven bits of
each sample and the samples 0 to 6 and 23 do not matter (R178, R182). -/
def Obligations.DecodedWordIsSamplesSevenToTwentyTwo : Prop :=
  ∀ samples : List Byte, samples.length = 24 →
    ∀ j, j < 16 → (decodeWord samples).getLsbD (15 - j) = (samples[7 + j]?.getD 0#8).getLsbD 5

/-- R180: a target that answers a word with its frame, on bit 5 of the 24 samples, is decoded to that word. -/
def Obligations.FramedAnswerDecodesToItsWord : Prop :=
  ∀ (w : Half) (samples : List Byte), samples.length = 24 →
    (∀ i, i < 24 → (samples[i]?.getD 0#8).getLsbD 5 = (frameValue w.toNat).getLsbD (23 - i)) →
    decodeWord samples = w ∧ outputBytes w = [w.extractLsb' 0 8, w.extractLsb' 8 8]

/-- R184: a batch decodes to the words, and the output bytes, that its words decoded one round trip at a time give,
in the same order. -/
def Obligations.BatchedAndSingleReadsAgree : Prop :=
  ∀ answers : List (List Byte), (∀ a ∈ answers, a.length = 24) →
    decodeWords answers.length answers.flatten = answers.map decodeWord
      ∧ batchBytes answers.length answers.flatten = (answers.map (batchBytes 1)).flatten

/-- R189: word `i` of a cartridge read is `(SB[i] << 8) | SA[i]`, and the output bytes alternate, A's first; and these
are the bytes that ReadROM512 ends with, which changes nothing else (R296). -/
def Obligations.CartridgeBytesInterleave : Prop :=
  ∀ sa sb : List Byte, sa.length = 256 → sb.length = 256 →
    (cartBytes sa sb).length = 512
      ∧ (∀ i, i < 256 →
          (cartWords sa sb)[i]?.map BitVec.toNat
              = some (256 * (sb[i]?.getD 0#8).toNat + (sa[i]?.getD 0#8).toNat)
            ∧ (cartBytes sa sb)[2 * i]? = sa[i]? ∧ (cartBytes sa sb)[2 * i + 1]? = sb[i]?)
      ∧ ∀ s : State, (s.port .a).got = sa → (s.port .b).got = sb →
          runStep .finishRom s =
            .next { s with task := none, results := s.results ++ [.bytes (cartBytes sa sb)] }

/-- R232, R233: O9 keeps the revision word and the device word of its 48 samples; the minor is bits 5 to 0, the
major letter is `0x41` plus bits 11 to 6, bits 15 to 12 are ignored. No other register and no other state changes. -/
def Obligations.RevisionSplitsIntoLetterAndMinor : Prop :=
  ∀ (s : State) (first second : List Byte), first.length = 24 → second.length = 24 →
    (s.port .icsp).got = first ++ second →
    ∃ t, runStep .storeIds s = .next t
      ∧ t = { s with regs := { s.regs with
          revId := some (decodeWord first)
          devId := some (decodeWord second)
          revMinor := some (BitVec.ofNat 6 (decodeWord first).toNat)
          revMajor := some (BitVec.ofNat 8 (0x41 + (decodeWord first).toNat / 64 % 64)) } }

/-- R230, R231: O7 keeps word `j` of the samples as `userId[j]`, O8 the low byte of word `j` as `config[j]`; no other
register and no other state changes. -/
def Obligations.IdentityReadsKeepTheirWords : Prop :=
  ∀ (s : State) (answers : List (List Byte)), (∀ a ∈ answers, a.length = 24) →
    (s.port .icsp).got = answers.flatten →
    (answers.length = 32 → ∃ t u, runStep .storeUserId s = .next t
      ∧ t = { s with regs := { s.regs with userId := some u } }
      ∧ ∀ j : Fin 32, u[j] = decodeWord (answers[j.val]?.getD []))
    ∧ (answers.length = 10 → ∃ t u, runStep .storeConfig s = .next t
      ∧ t = { s with regs := { s.regs with config := some u } }
      ∧ ∀ j : Fin 10, u[j] = (decodeWord (answers[j.val]?.getD [])).extractLsb' 0 8)

/-! ## Operations of the block -/

/-- R241, R242: Seek of a ready session, begun by the block. An odd offset is `InvalidOffsetError`, checked before
the range; a position outside `[0, pmLen)` is `OutOfRangeError`; else `addr` becomes the position and it is returned.
Neither error changes any register or the session, nothing is emitted. -/
def Obligations.SeekChecksParityThenRange : Prop :=
  ∀ (s : State) (offset : Int) (w : Whence) (cs : List Call) (addr len : Nat),
    s.task = none → s.calls = .seek offset w :: cs → s.sess = .ready → s.regs.addr = some addr →
    s.regs.pmLen = some len →
    (w = .other → ∃ t, blockStep s = .next t ∧ Faulted .unsupportedWhence { s with calls := cs } t)
    ∧ ∀ base : Int, (w = .start ∧ base = 0) ∨ (w = .current ∧ base = addr) →
      (offset % 2 ≠ 0 →
        blockStep s = .next { s with calls := cs, results := s.results ++ [.error (.invalidOffset offset)] })
      ∧ (offset % 2 = 0 → base + offset < 0 ∨ (len : Int) ≤ base + offset →
        blockStep s = .next { s with calls := cs, results := s.results ++ [.error (.outOfRange (base + offset))] })
      ∧ (∀ new : Nat, offset % 2 = 0 → base + offset = new → new < len →
        blockStep s = .next { s with
          calls := cs, results := s.results ++ [.position new], regs := { s.regs with addr := some new } })

/-- R237: Read of a ready session, begun by the block: `EndOfMemory` at the end with nothing emitted, then
`fault UnalignedCursor` at an odd cursor, then no bytes for no wanted byte, else the round trips for
`min(n, pmLen - addr)` bytes. Its last step adds the bytes read to `addr`, returns the output, and changes nothing
else. -/
def Obligations.ReadBeginsByItsContract : Prop :=
  (∀ (s : State) (n : Nat) (cs : List Call) (addr len : Nat),
    s.task = none → s.calls = .read n :: cs → s.sess = .ready → s.regs.addr = some addr →
    s.regs.pmLen = some len →
    (len ≤ addr →
      blockStep s = .next { s with calls := cs, results := s.results ++ [.error .endOfMemory] })
    ∧ (addr < len → addr % 2 = 1 →
      ∃ t, blockStep s = .next t ∧ Faulted .unalignedCursor { s with calls := cs } t)
    ∧ (addr < len → addr % 2 = 0 → n = 0 →
      blockStep s = .next { s with calls := cs, results := s.results ++ [.bytes []] })
    ∧ (addr < len → addr % 2 = 0 → 0 < n →
      blockStep s = .next { s with
        calls := cs, task := some ⟨.read, readProgram addr (min n (len - addr)), [], none, s.saved⟩ }))
  ∧ ∀ (s : State) (task : Task) (m addr : Nat), s.task = some task → s.regs.addr = some addr →
    runStep (.finishRead m) s = .next { s with
      regs := { s.regs with addr := some (addr + m) }, task := none
      results := s.results ++ [.bytes task.out] }

/-- R238, R239: a Read of `m` bytes loads its address once, first, then reads `ceil(m / 2)` words: a round trip of 64
words while 128 bytes remain, then one of a single word for every two bytes and for an odd last one. Each is one
flush, one read-back and one decoding, which appends low byte and high byte of each word to the output, the low byte
alone of an odd last word. Exactly `m` bytes are kept, and no buffer is longer than 14528 bytes (R250, R251). -/
def Obligations.ReadLoadsOnceAndReadsHalfTheBytes : Prop :=
  (∀ addr m : Nat, 0 < m →
    readProgram addr m =
        [.begin, .emit .icsp (.instr (.loadaddr addr))]
          ++ (List.replicate (m / 128) (64, 128) ++ List.replicate (m % 128 / 2) (1, 2)
              ++ List.replicate (m % 2) (1, 1)).flatMap (fun r : Nat × Nat =>
                List.replicate r.1 (BlockStep.emit .icsp (.instr .readword))
                  ++ [BlockStep.flush, .readBack .icsp, .collect r.2])
          ++ [.finishRead m]
      ∧ emitted .icsp (readProgram addr m)
        = .instr (.loadaddr addr) :: List.replicate ((m + 1) / 2) (.instr .readword)
      ∧ ((readProgram addr m).map fun
          | .collect want => want
          | _ => 0).sum = m
      ∧ ∀ n ∈ flushSizes 0 (readProgram addr m), n ≤ 14528)
  ∧ ∀ (s : State) (task : Task) (answers : List (List Byte)) (want : Nat), s.task = some task →
    (∀ a ∈ answers, a.length = 24) → (s.port .icsp).got = answers.flatten →
    runStep (.collect want) s = .next { s with
      task := some { task with
        out := task.out ++ (answers.flatMap fun a =>
          [(decodeWord a).extractLsb' 0 8, (decodeWord a).extractLsb' 8 8]).take want } }

/-- R243: Write of a ready session, begun by the block: no byte returns 0, then `fault UnalignedCursor`, then
`fault WriteBeyondEnd`, else its stream. Its last step adds the bytes written to `addr`, returns their number, and
changes nothing else. -/
def Obligations.WriteBeginsByItsContract : Prop :=
  (∀ (s : State) (bytes : List Byte) (cs : List Call) (addr len : Nat),
    s.task = none → s.calls = .write bytes :: cs → s.sess = .ready → s.regs.addr = some addr →
    s.regs.pmLen = some len →
    (bytes = [] → blockStep s = .next { s with calls := cs, results := s.results ++ [.count 0] })
    ∧ (bytes ≠ [] → addr % 2 = 1 →
      ∃ t, blockStep s = .next t ∧ Faulted .unalignedCursor { s with calls := cs } t)
    ∧ (bytes ≠ [] → addr % 2 = 0 → len < addr + bytes.length →
      ∃ t, blockStep s = .next t ∧ Faulted .writeBeyondEnd { s with calls := cs } t)
    ∧ (bytes ≠ [] → addr % 2 = 0 → addr + bytes.length ≤ len →
      blockStep s = .next { s with
        calls := cs, task := some ⟨.write, writeProgram s.params addr bytes, [], none, s.saved⟩ }))
  ∧ ∀ (s : State) (n addr : Nat), s.regs.addr = some addr →
    runStep (.finishWrite n) s = .next { s with
      regs := { s.regs with addr := some (addr + n) }, task := none, results := s.results ++ [.count n] }

/-- R243 to R245: the units of a Write. Word `k` is the two bytes `2k` and `2k + 1`, low byte first; `0xFFFF` is the
increment alone, any other word is programmed; an odd last byte is programmed as a byte, `0xFF` too. -/
def Obligations.WriteUnitsAreTheWordsAndTheOddByte : Prop :=
  ∀ bytes : List Byte,
    (writeUnits bytes).length = (bytes.length + 1) / 2
      ∧ (∀ k, 2 * k + 1 < bytes.length →
          (writeUnits bytes)[k]? =
            some (if (bytes[2 * k]?.getD 0#8).toNat + 256 * (bytes[2 * k + 1]?.getD 0#8).toNat = 0xFFFF
              then .incaddr
              else .progword ((bytes[2 * k]?.getD 0#8).toNat + 256 * (bytes[2 * k + 1]?.getD 0#8).toNat)))
      ∧ (bytes.length % 2 = 1 →
          (writeUnits bytes)[bytes.length / 2]? =
            some (.progbyte (bytes[bytes.length - 1]?.getD 0#8).toNat))

/-- R243, R251: a Write emits its address load and then its units in order, cut into buffers at unit boundaries, each
within the capacity, and every one of them is flushed; it reads nothing, and ends by adding the number of its bytes to
`addr`. -/
def Obligations.WriteBuffersFitTheCapacity : Prop :=
  ∀ (p : Config.Params) (addr : Nat) (bytes : List Byte), 16384 ≤ p.cap →
    emitted .icsp (writeProgram p addr bytes)
        = .instr (.loadaddr addr) :: (writeUnits bytes).map .instr
      ∧ (buffers .icsp [] (writeProgram p addr bytes)).flatten
        = .instr (.loadaddr addr) :: (writeUnits bytes).map .instr
      ∧ transactions (writeProgram p addr bytes)
        = .begin :: List.replicate (buffers .icsp [] (writeProgram p addr bytes)).length .flush
            ++ [.finishWrite bytes.length]
      ∧ flushSizes 0 (writeProgram p addr bytes)
        = (buffers .icsp [] (writeProgram p addr bytes)).map
            (fun es => (es.map fun
              | .instr i => footprint i
              | _ => 0).sum)
      ∧ ∀ n ∈ flushSizes 0 (writeProgram p addr bytes), n ≤ p.cap

/-- A session that is not ready: every ICSP operation but Open and Close, and every cartridge operation but SetupPins,
is `fault NotReady` and does nothing else (R237, R241, R243, R247, R288, R289, R294, R349). -/
def Obligations.NotReadyFaults : Prop :=
  ∀ (s : State) (c : Call) (cs : List Call), s.task = none → s.calls = c :: cs →
    (s.sess ≠ .ready →
      ((∃ n, c = .read n) ∨ (∃ o w, c = .seek o w) ∨ (∃ bs, c = .write bs) ∨ ∃ m, c = .bulkErase m) →
      ∃ t, blockStep s = .next t ∧ Faulted .notReady { s with calls := cs } t)
    ∧ (s.sessC ≠ .ready → (c = .resetCart ∨ (∃ a, c = .setAddress a) ∨ c = .readRom512) →
      ∃ t, blockStep s = .next t ∧ Faulted .notReady { s with calls := cs } t)

/-- How Open, Close, BulkErase, SetupPins, ResetCart, SetAddress, ReadROM512 and the release begin and what they are
made of. A call is begun by the block with the checks of its rule (R221, R247, R249, R287 to R289, R294). The model's
own, which no rule says: that Open needs the cartridge session closed and SetupPins the ICSP session closed (reading of
R396, log entry 21); that the entries of Open and SetupPins keep the engines' registers (log entry 38) and that of Open
the session registers (log entry 22); that the release of R300 is a call, accepted in every state and always done (log
entry 32); what is kept for R352 (`saved`, log entry 37). Each operation is given by what it has emitted at each of its
flushes, channel by channel, and by its other steps in order (R220 to R236, R247, R249, R287, R288, R292, R296); what
the cartridge streams are byte for byte is CartridgeFootprints. SetupPins ends with `sessC` ready, BulkErase, ResetCart
and SetAddress with the result alone. -/
def Obligations.OtherOperationsBegin : Prop :=
  (∀ (s : State) (cs : List Call), s.task = none →
    (s.calls = .openIcsp :: cs → s.sess = .closed ∨ s.sess = .failed → s.sessC = .closed →
      blockStep s = .next { s with
        calls := cs, mode := .icsp, sess := .opening
        task := some ⟨.openIcsp, openProgram s.params, [], none, s.saved⟩ })
    ∧ (s.calls = .openIcsp :: cs → s.sess = .opening ∨ s.sess = .ready ∨ s.sessC ≠ .closed →
      ∃ t, blockStep s = .next t ∧ Faulted .notReady { s with calls := cs } t)
    ∧ (s.calls = .close :: cs → s.sess = .closed →
      blockStep s = .next { s with calls := cs, results := s.results ++ [.done] })
    ∧ (s.calls = .close :: cs → s.sess ≠ .closed →
      blockStep s = .next { s with
        calls := cs, task := some ⟨.close, closeProgram s.params, [], none, s.saved⟩ })
    ∧ (s.calls = .resetCart :: cs → s.sessC = .ready →
      blockStep s = .next { s with
        calls := cs, task := some ⟨.resetCart, resetProgram s.params, [], none, s.saved⟩ })
    ∧ (s.calls = .readRom512 :: cs → s.sessC = .ready →
      blockStep s = .next { s with
        calls := cs, task := some ⟨.readRom512, romProgram s.params, [], none, s.saved⟩ })
    ∧ (∀ m, s.calls = .bulkErase m :: cs → s.sess = .ready → m ≤ 0xF →
      blockStep s = .next { s with
        calls := cs, task := some ⟨.bulkErase, eraseProgram m, [], none, s.saved⟩ })
    ∧ (∀ m, s.calls = .bulkErase m :: cs → s.sess = .ready → 0xF < m →
      ∃ t, blockStep s = .next t ∧ Faulted .paramRange { s with calls := cs } t)
    ∧ (s.calls = .setupPins :: cs → s.sess = .closed →
      blockStep s = .next { s with
        calls := cs, mode := .cart, task := some ⟨.setupPins, setupProgram s.params, [], none, s.saved⟩ })
    ∧ (s.calls = .setupPins :: cs → s.sess ≠ .closed →
      ∃ t, blockStep s = .next t ∧ Faulted .notReady { s with calls := cs } t)
    ∧ (∀ a, s.calls = .setAddress a :: cs → s.sessC = .ready → a < 2 ^ 32 →
      blockStep s = .next { s with
        calls := cs, task := some ⟨.setAddress, addressProgram s.params a, [], none, s.saved⟩ })
    ∧ (∀ a, s.calls = .setAddress a :: cs → s.sessC = .ready → 2 ^ 32 ≤ a →
      ∃ t, blockStep s = .next t ∧ Faulted .paramRange { s with calls := cs } t)
    ∧ (s.calls = .releaseCart :: cs →
      blockStep s = .next { s with calls := cs, sessC := .closed, results := s.results ++ [.done] }))
  ∧ (∀ (p : Config.Params) (a m : Nat),
    buffers .icsp [] (openProgram p) =
        [[.instr .loopon], [.instr .probe], [.instr .loopoff], [.instr (.setdiv p.divIcsp.toNat)],
         [.instr (.setlo p.idleVal p.idleDir), .waitUs p.tIdleUs, .instr (.setlo p.icspBase p.icspDir),
          .waitUs p.tHoldUs, .instr .key0, .instr .key1, .instr .key2, .instr .key3, .waitUs p.tKeyUs],
         .instr (.loadaddr p.aUserId.toNat) :: List.replicate 32 (.instr .readword),
         .instr (.loadaddr p.aConfig.toNat) :: List.replicate 10 (.instr .readword),
         .instr (.loadaddr p.aDevId.toNat) :: List.replicate 2 (.instr .readword),
         [.instr (.loadaddr 0)]]
      ∧ transactions (openProgram p) =
        [.begin, .flush, .readEmpty .o1, .flush, .readEcho, .flush, .readEmpty .o3, .flush, .flush,
         .flush, .readBack .icsp, .storeUserId, .flush, .readBack .icsp, .storeConfig,
         .flush, .readBack .icsp, .storeIds, .flush, .clearAddr, .resolveLength, .finishOpen]
      ∧ buffers .icsp [] (closeProgram p) = [[.instr (.setlo p.closeVal p.icspDir), .waitUs p.tCloseUs]]
      ∧ transactions (closeProgram p) =
        [.begin, .flush, .transport .setBitMode, .transport .close, .finishClose]
      ∧ buffers .icsp [] (eraseProgram m) = [[.instr (.erase m)]]
      ∧ transactions (eraseProgram m) = [.begin, .flush, .finishPlain]
      ∧ buffers .a [] (setupProgram p) = [setupA p] ∧ buffers .b [] (setupProgram p) = [setupB p]
      ∧ transactions (setupProgram p) = [.begin, .flushPair, .finishSetup]
      ∧ buffers .a [] (resetProgram p) = [resetA p] ∧ buffers .b [] (resetProgram p) = [[]]
      ∧ transactions (resetProgram p) = [.begin, .flushPair, .finishPlain]
      ∧ buffers .a [] (addressProgram p a) = [addressA p a] ∧ buffers .b [] (addressProgram p a) = [addressB p a]
      ∧ transactions (addressProgram p a) = [.begin, .flushPair, .finishPlain]
      ∧ buffers .a [] (romProgram p) = [cycles 256 (romCycleA p)]
      ∧ buffers .b [] (romProgram p) = [cycles 256 (romCycleB p)]
      ∧ transactions (romProgram p) = [.begin, .flushPair, .readBack .b, .readBack .a, .finishRom])
  ∧ ∀ s : State,
    runStep .finishSetup s = .next { s with sessC := .ready, task := none, results := s.results ++ [.done] }
      ∧ runStep .finishPlain s = .next { s with task := none, results := s.results ++ [.done] }

/-- R23, R65, R66: a composition starts with every cursor of the mode at its base and no request counted. A flush of the
single channel that the transport takes whole appends exactly the composed bytes, in offset order, to the engine's
queue; the cursor returns to the base, the count to 0, and the samples requested are owed. The call uses up one answer
of the transport, and nothing else changes. The answer is the first of those listed, and the others are left; with none
listed it is a free value, another one at each call (the model's form of R45's draw, log entry 7). -/
def Obligations.FlushSendsExactlyTheComposedBytes : Prop :=
  ∀ s : State,
    (s.mode = .icsp →
      ∃ t, runStep .begin s = .next t ∧ t.port .icsp = { s.port .icsp with cur := 0, nreq := 0 }
        ∧ t.port .a = s.port .a ∧ t.port .b = s.port .b ∧ { t with ports := s.ports } = s)
    ∧ (s.mode = .cart →
      ∃ t, runStep .begin s = .next t ∧ t.port .a = { s.port .a with cur := 0, nreq := 0 }
        ∧ t.port .b = { s.port .b with cur := s.params.half, nreq := 0 }
        ∧ t.port .icsp = s.port .icsp ∧ { t with ports := s.ports } = s)
    ∧ ∀ k : Nat, BufferInv s → s.answer = .count k → (s.port .icsp).cur ≤ k →
      ∃ bytes t, runStep .flush s = .next t
        ∧ bytes.length = (s.port .icsp).cur
        ∧ (∀ i, i < bytes.length → bytes[i]? = Memory.read s.buf i)
        ∧ t.engine .icsp = { s.engine .icsp with q := (s.engine .icsp).q ++ bytes }
        ∧ t.port .icsp = { cur := 0, nreq := 0, owed := (s.port .icsp).nreq, got := [] }
        ∧ (∀ c, c ≠ .icsp → t.engine c = s.engine c ∧ t.port c = s.port c)
        ∧ t.answers = s.answers.next
        ∧ { t with engines := s.engines, ports := s.ports, answers := s.answers } = s
        ∧ (∀ x xs, s.answers.script = x :: xs →
          s.answer = x ∧ s.answers.next = { s.answers with script := xs })
        ∧ (s.answers.script = [] →
          s.answer = Config.answer s.answers.count
            ∧ s.answers.next = { s.answers with count := s.answers.count + 1 })

/-- R73, R283: a paired flush that the transport takes whole, each call made counting at least the bytes of its half
(R45), appends B's composed bytes to B's queue and A's to A's; then both ports are reset with their samples owed. An
empty half is no call: the transport gives one answer for each half that is not empty. B's call is the first: where it
fails, A's engine is sent nothing and the transport is asked nothing more; where it succeeds and A's fails, B's engine
has its bytes. A failing call ends the operation (R342). The model's readings: an error answer appends nothing, a short
count what it counts (log entry 18); the whole is one step (log entry 24); the failing clauses end as `Ended` says,
which brings buffer and ports back as R352 is read and keeps the mode (log entry 37, and for the registers 22). -/
def Obligations.PairedFlushSendsBothHalves : Prop :=
  (∀ (s : State) (k l : Nat) (afterB afterA : Draws Answer), BufferInv s →
    (if (s.port .b).cur = s.params.half then afterB = s.answers
      else s.answer = .count k ∧ (s.port .b).cur ≤ s.params.half + k ∧ afterB = s.answers.next) →
    (if (s.port .a).cur = 0 then afterA = afterB
      else ({ s with answers := afterB } : State).answer = .count l ∧ (s.port .a).cur ≤ l
        ∧ afterA = afterB.next) →
    ∃ bytesA bytesB t, runStep .flushPair s = .next t
      ∧ bytesA.length = (s.port .a).cur ∧ bytesB.length = (s.port .b).cur - s.params.half
      ∧ (∀ i, i < bytesA.length → bytesA[i]? = Memory.read s.buf i)
      ∧ (∀ i, i < bytesB.length → bytesB[i]? = Memory.read s.buf (s.params.half + i))
      ∧ t.engine .a = { s.engine .a with q := (s.engine .a).q ++ bytesA }
      ∧ t.engine .b = { s.engine .b with q := (s.engine .b).q ++ bytesB }
      ∧ t.port .a = { cur := 0, nreq := 0, owed := (s.port .a).nreq, got := [] }
      ∧ t.port .b = { cur := s.params.half, nreq := 0, owed := (s.port .b).nreq, got := [] }
      ∧ t.answers = afterA
      ∧ { t with engines := s.engines, ports := s.ports, answers := s.answers } = s
      ∧ t.engine .icsp = s.engine .icsp ∧ t.port .icsp = s.port .icsp)
  ∧ (∀ (s : State) (task : Task), BufferInv s → s.task = some task → task.op ≠ .close →
    s.params.half < (s.port .b).cur →
    (s.answer = .error →
      ∃ t, runStep .flushPair s = .next t ∧ Ended (.transport task.op .write) task s t
        ∧ t.engines = s.engines ∧ t.answers = s.answers.next)
    ∧ (∀ k, s.answer = .count k → s.params.half + k < (s.port .b).cur →
      ∃ bytes t, runStep .flushPair s = .next t ∧ Ended (.transport task.op .write) task s t
        ∧ bytes.length = k ∧ (∀ i, i < k → bytes[i]? = Memory.read s.buf (s.params.half + i))
        ∧ t.engine .b = { s.engine .b with q := (s.engine .b).q ++ bytes }
        ∧ t.engine .a = s.engine .a ∧ t.engine .icsp = s.engine .icsp ∧ t.answers = s.answers.next)
    ∧ (∀ k, s.answer = .count k → ({ s with answers := s.answers.next } : State).answer = .error →
      (s.port .b).cur ≤ s.params.half + k → 0 < (s.port .a).cur →
      ∃ bytes t, runStep .flushPair s = .next t ∧ Ended (.transport task.op .write) task s t
        ∧ bytes.length = (s.port .b).cur - s.params.half
        ∧ (∀ i, i < bytes.length → bytes[i]? = Memory.read s.buf (s.params.half + i))
        ∧ t.engine .b = { s.engine .b with q := (s.engine .b).q ++ bytes }
        ∧ t.engine .a = s.engine .a ∧ t.engine .icsp = s.engine .icsp
        ∧ t.answers = s.answers.next.next)
    ∧ (∀ k l, s.answer = .count k → ({ s with answers := s.answers.next } : State).answer = .count l →
      (s.port .b).cur ≤ s.params.half + k → l < (s.port .a).cur →
      ∃ bytesA bytesB t, runStep .flushPair s = .next t ∧ Ended (.transport task.op .write) task s t
        ∧ bytesA.length = l ∧ bytesB.length = (s.port .b).cur - s.params.half
        ∧ (∀ i, i < bytesA.length → bytesA[i]? = Memory.read s.buf i)
        ∧ (∀ i, i < bytesB.length → bytesB[i]? = Memory.read s.buf (s.params.half + i))
        ∧ t.engine .a = { s.engine .a with q := (s.engine .a).q ++ bytesA }
        ∧ t.engine .b = { s.engine .b with q := (s.engine .b).q ++ bytesB }
        ∧ t.engine .icsp = s.engine .icsp
        ∧ t.answers = s.answers.next.next))
  ∧ ∀ (s : State) (task : Task) (l : Nat), BufferInv s → s.task = some task → task.op ≠ .close →
    (s.port .b).cur = s.params.half → s.answer = .count l → l < (s.port .a).cur →
    ∃ bytes t, runStep .flushPair s = .next t ∧ Ended (.transport task.op .write) task s t
      ∧ bytes.length = l ∧ (∀ i, i < l → bytes[i]? = Memory.read s.buf i)
      ∧ t.engine .a = { s.engine .a with q := (s.engine .a).q ++ bytes }
      ∧ t.engine .b = s.engine .b ∧ t.engine .icsp = s.engine .icsp ∧ t.answers = s.answers.next

/-- R45, R66, R284: the read-back takes exactly the samples owed from the front of the response FIFO once they are
there, and none are owed then; while they are not, it waits with the same step to do and takes no byte. With no sample
owed there is no call: no answer of the transport is used, and no byte is taken. -/
def Obligations.ReadBackTakesTheSamplesOwed : Prop :=
  ∀ (s : State) (ch : Chan) (task : Task), s.task = some task →
    (∀ k, s.answer = .count k → (s.port ch).owed ≠ 0 →
      ((s.port ch).owed ≤ (s.engine ch).rsp.length →
        ∃ t, runStep (.readBack ch) s = .next t
          ∧ t.port ch = { s.port ch with owed := 0, got := (s.engine ch).rsp.take (s.port ch).owed }
          ∧ t.engine ch = { s.engine ch with rsp := (s.engine ch).rsp.drop (s.port ch).owed }
          ∧ (∀ c, c ≠ ch → t.engine c = s.engine c ∧ t.port c = s.port c)
          ∧ t.answers = s.answers.next
          ∧ { t with engines := s.engines, ports := s.ports, answers := s.answers } = s)
      ∧ ((s.engine ch).rsp.length < (s.port ch).owed →
        ∃ t, runStep (.readBack ch) s = .next t
          ∧ t.task = some { task with prog := .readBack ch :: task.prog }
          ∧ { t with task := s.task, answers := s.answers } = s))
    ∧ ((s.port ch).owed = 0 →
      ∃ t, runStep (.readBack ch) s = .next t
        ∧ t.port ch = { s.port ch with got := [] } ∧ (∀ c, c ≠ ch → t.port c = s.port c)
        ∧ (∀ c, t.engine c = s.engine c)
        ∧ { t with engines := s.engines, ports := s.ports } = s)

/-- R341, R342, R352: a transport error in any operation but Close, at a `write`, a paired `write`, a `read`, a
`readExact` or a call without bytes, ends the operation with `TransportError`, which names the operation and the call,
returns no partial data and fails the session of the operation. A `write` that counts fewer bytes than it was given is
such an error (R45). The model's readings: what of the block is as before the operation is buffer, ports and, in an ICSP
operation, the session registers, while the mode stays that of the failing operation, which an Open or a SetupPins has
changed at its entry (log entries 37 and 22); a failing `write` has appended nothing at an error and the bytes counted
at a short count (log entry 18). -/
def Obligations.TransportErrorEndsTheOperation : Prop :=
  ∀ (s : State) (task : Task), BufferInv s → s.task = some task → task.op ≠ .close →
    (∀ (m : BlockStep) (c : TransportCall), s.answer = .error →
      (∃ ch, m = .readBack ch ∧ c = .readExact ∧ (s.port ch).owed ≠ 0)
        ∨ (m = .flush ∧ c = .write)
        ∨ (m = .flushPair ∧ c = .write ∧ (s.params.half < (s.port .b).cur ∨ 0 < (s.port .a).cur))
        ∨ ((∃ o, m = .readEmpty o) ∧ c = .read) ∨ (m = .readEcho ∧ c = .read) ∨ m = .transport c →
      ∃ t, runStep m s = .next t ∧ Ended (.transport task.op c) task s t ∧ t.engines = s.engines
        ∧ t.answers = s.answers.next)
    ∧ ∀ k, s.answer = .count k → k < (s.port .icsp).cur →
      ∃ bytes t, runStep .flush s = .next t ∧ Ended (.transport task.op .write) task s t
        ∧ bytes.length = k ∧ (∀ i, i < k → bytes[i]? = Memory.read s.buf i)
        ∧ t.engine .icsp = { s.engine .icsp with q := (s.engine .icsp).q ++ bytes }
        ∧ t.engine .a = s.engine .a ∧ t.engine .b = s.engine .b ∧ t.answers = s.answers.next

/-- R222 to R224, R343: O1 and O3 go on exactly where the one `read` returns nothing and are `ProtocolSyncError` with
any byte. O2 asks for the bytes missing of two and keeps what it gets; it repeats while bytes are missing, goes on
exactly with the echo `FA AA`, and is `ProtocolSyncError` with any other two bytes, which the error records. The bytes
returned leave the response FIFO. The error ends Open as `Ended` says: that buffer, ports and registers are then as
before Open and the mode stays the session's is R352 as the model reads it (log entries 37 and 22). -/
def Obligations.SelfTestAcceptsOnlyTheEcho : Prop :=
  ∀ (s : State) (task : Task) (k : Nat), s.task = some task → task.op = .openIcsp → s.answer = .count k →
    (∀ o, (s.engine .icsp).rsp.take k = [] → runStep (.readEmpty o) s = .next s.popAnswer)
    ∧ (∀ o, (s.engine .icsp).rsp.take k ≠ [] →
      ∃ t, runStep (.readEmpty o) s = .next t ∧ Ended (.protocolSync o []) task s t
        ∧ t.engine .icsp = { s.engine .icsp with rsp := (s.engine .icsp).rsp.drop k }
        ∧ t.engine .a = s.engine .a ∧ t.engine .b = s.engine .b)
    ∧ ∀ (n : Nat) (got : List Byte), n = min k (2 - (s.port .icsp).got.length) →
      got = (s.port .icsp).got ++ (s.engine .icsp).rsp.take n →
      ∃ t, runStep .readEcho s = .next t
        ∧ t.engine .icsp = { s.engine .icsp with rsp := (s.engine .icsp).rsp.drop n }
        ∧ t.engine .a = s.engine .a ∧ t.engine .b = s.engine .b ∧ t.answers = s.answers.next
        ∧ (got.length < 2 ∨ got = [0xFA, 0xAA] →
          t.port .icsp = { s.port .icsp with got := got } ∧ t.port .a = s.port .a ∧ t.port .b = s.port .b)
        ∧ (got.length < 2 →
          { t with engines := s.engines, ports := s.ports, answers := s.answers }
            = { s with task := some { task with prog := .readEcho :: task.prog } })
        ∧ (got = [0xFA, 0xAA] →
          { t with engines := s.engines, ports := s.ports, answers := s.answers } = s)
        ∧ (2 ≤ got.length → got ≠ [0xFA, 0xAA] → Ended (.protocolSync .o2 got) task s t)

/-- R234 to R236, R344: O10 sets `addr` to 0; O11 resolves the length of a listed device; O12 makes the session ready;
these change nothing else. The length is that of the first pair of the table `pmLen` with the device as its key, and a
device in no pair is not listed (R235, a table as a list of pairs: log entry 36). For any other device O11 is
`UnsupportedDeviceError`, which ends Open and fails the session: that buffer, ports and registers are then as before
Open and the mode stays the session's is R352 as the model reads it (log entries 37 and 22). -/
def Obligations.UnknownDevicesAreRejected : Prop :=
  ∀ (s : State) (d : Half), s.regs.devId = some d →
    (∀ pre n post, s.params.pmLen = pre ++ (d, n) :: post → (∀ e ∈ pre, e.1 ≠ d) → pmLookup s.params d = some n)
    ∧ ((∀ e ∈ s.params.pmLen, e.1 ≠ d) → pmLookup s.params d = none)
    ∧ runStep .clearAddr s = .next { s with regs := { s.regs with addr := some 0 } }
    ∧ (∀ n, pmLookup s.params d = some n →
      runStep .resolveLength s = .next { s with regs := { s.regs with pmLen := some n } })
    ∧ (pmLookup s.params d = none →
      ∃ t, runStep .resolveLength s = .next t ∧ t.task = none ∧ t.sess = .failed
        ∧ t.results = s.results ++ [.error (.unsupportedDevice d)] ∧ t.faulted = s.faulted
        ∧ t.engines = s.engines ∧ t.answers = s.answers
        ∧ ∀ task, s.task = some task → task.op = .openIcsp → Ended (.unsupportedDevice d) task s t)
    ∧ runStep .finishOpen s =
        .next { s with sess := .ready, task := none, results := s.results ++ [.done] }

/-- R249, R342: Close of an open session, whatever the transport answers to its three calls, closes the session, takes
the values of the session registers, and reports the first call that failed, or success where none did. One fault comes
before: a `T_CLOSE_US` too long for a long delay is `fault WaitLengthOverflow`, and the session is as it was. That a
failing call is kept and the calls after it are made is the model's reading (log entry 20); that buffer and ports are
then as before is that of R352 (log entry 37). The steps of Close run here one after another, from its first. -/
def Obligations.CloseAlwaysCloses : Prop :=
  ∀ (s : State) (task : Task), s.task = some task → task.op = .close →
    (∀ c, s.answer = .error →
      ∃ t, runStep (.transport c) s = .next t
        ∧ t.task = some { task with firstError := some (task.firstError.getD (.transport .close c)) }
        ∧ { t with task := s.task, answers := s.answers } = s)
    ∧ (∀ e, task.firstError = some e → runStep .finishClose s =
        .next { s with
          sess := .closed, regs := SessionRegs.none, task := none, results := s.results ++ [.error e]
          buf := task.before.buf, ports := task.before.ports })
    ∧ (task.firstError = none → runStep .finishClose s =
        .next { s with
          sess := .closed, regs := SessionRegs.none, task := none, results := s.results ++ [.done] })
    ∧ (BufferInv s → s.turn = .block → s.mode = .icsp → task.firstError = none →
      (0xFFFF < 2 * s.params.tCloseUs * 2 / 8 →
        ∃ t, runProgram (closeProgram s.params) s = .next t ∧ t.task = none ∧ t.faulted = true
          ∧ t.results = s.results ++ [.marked .waitLengthOverflow] ∧ t.sess = s.sess ∧ t.regs = s.regs
          ∧ t.engines = s.engines ∧ t.answers = s.answers)
      ∧ ∀ w m c more, 2 * s.params.tCloseUs * 2 / 8 ≤ 0xFFFF → s.answers.script = w :: m :: c :: more →
        ∃ t r, runProgram (closeProgram s.params) s = .next t
          ∧ t.sess = .closed ∧ t.regs = SessionRegs.none ∧ t.task = none ∧ t.results = s.results ++ [r]
          ∧ t.sessC = s.sessC ∧ t.faulted = s.faulted ∧ t.mode = s.mode
          ∧ ((∀ k, w = .count k → k < 6) → r = .error (.transport .close .write))
          ∧ (∀ k, w = .count k → 6 ≤ k →
            (t.engine .icsp).q = (s.engine .icsp).q
                ++ [0x80, s.params.closeVal, s.params.icspDir]
                ++ longDelayBytes (2 * s.params.tCloseUs * 2 / 8)
              ∧ (m = .error → r = .error (.transport .close .setBitMode))
              ∧ (m ≠ .error → c = .error → r = .error (.transport .close .close))
              ∧ (m ≠ .error → c ≠ .error → r = .done)))

/-- R285 to R298: the cartridge streams, byte for byte, and with them their footprints: 9 and 9 bytes for SetupPins, 9
for ResetCart, 63 and 23 for SetAddress, 4096 and 2816 for ReadROM512; each wait of B is one byte `88` and each sample
one byte `83`. `ctrlA m` and `ctrlB m` are the control writes that assert the lines `m`; a delay is doubled and divided
by 8. Channel B of SetAddress is AddressStreamOfChannelB. -/
def Obligations.CartridgeFootprints : Prop :=
  ∀ (p : Config.Params) (a : Nat),
    ((streamBytes p .a (setupA p)).length = 9 ∧ (streamBytes p .b (setupB p)).length = 9
      ∧ (streamBytes p .a (resetA p)).length = 9
      ∧ (streamBytes p .a (addressA p a)).length = 63 ∧ (streamBytes p .b (addressB p a)).length = 23
      ∧ (streamBytes p .a (cycles 256 (romCycleA p))).length = 4096
      ∧ (streamBytes p .b (cycles 256 (romCycleB p))).length = 2816
      ∧ (addressB p a).count (.instr .waithi) = 8
      ∧ (cycles 256 (romCycleB p)).count (.instr .waithi) = 256
      ∧ (cycles 256 (romCycleA p)).count .cartSample = 256 ∧ (cycles 256 (romCycleB p)).count .cartSample = 256)
    ∧ ∀ (ctrlA ctrlB : Byte → List Byte) (settle : List Byte) (half : Byte → Byte → List Byte) (x : BitVec 32),
      (∀ m, ctrlA m = [0x80, p.ctrlIdleA ^^^ m, p.ctrlDirA]) →
      (∀ m, ctrlB m = [0x80, p.ctrlIdleB ^^^ m, p.ctrlDirB]) →
      settle = longDelayBytes (10 * p.tCartSettleUs * 2 / 8) →
      (∀ v l, half v l =
        ctrlA p.csA ++ [0x82, v, 0xFF] ++ ctrlA 0 ++ ctrlA (l ||| p.csA) ++ ctrlA l
          ++ ctrlA (l ||| p.csA) ++ settle ++ ctrlA l ++ ctrlA p.csA ++ ctrlA 0) →
      streamBytes p .a (setupA p)
          = [0x86, p.divCart.extractLsb' 0 8, p.divCart.extractLsb' 8 8] ++ ctrlA 0 ++ [0x82, 0x00, 0x00]
        ∧ streamBytes p .b (setupB p)
          = [0x86, p.divCart.extractLsb' 0 8, p.divCart.extractLsb' 8 8] ++ ctrlB 0 ++ [0x82, 0x00, 0x00]
        ∧ streamBytes p .a (resetA p)
          = ctrlA p.rstA ++ longDelayBytes (10 * p.tCartResetUs * 2 / 8) ++ ctrlA 0
        ∧ streamBytes p .a (addressA p x.toNat)
          = half (x.extractLsb' 16 8) p.alehA ++ half (x.extractLsb' 0 8) p.alelA ++ [0x82, 0x00, 0x00]
        ∧ streamBytes p .a (cycles 256 (romCycleA p))
          = (List.replicate 256 (ctrlA p.csA ++ ctrlA (p.csA ||| p.rdA) ++ settle ++ [0x83]
              ++ ctrlA p.csA ++ ctrlA 0)).flatten
        ∧ streamBytes p .b (cycles 256 (romCycleB p))
          = (List.replicate 256 ([0x88] ++ ctrlB p.rdB ++ settle ++ [0x83] ++ ctrlB 0)).flatten

/-- R289, R291: channel B of SetAddress, byte for byte: in each half, high half first, a wait, the high byte of the
half on the data lines, a wait, a wait with the settle delay, a wait; then the data lines are released. -/
def Obligations.AddressStreamOfChannelB : Prop :=
  ∀ (p : Config.Params) (a : BitVec 32),
    streamBytes p .b (addressB p a.toNat) =
      [0x88, 0x82, a.extractLsb' 24 8, 0xFF, 0x88, 0x88] ++ longDelayBytes (10 * p.tCartSettleUs * 2 / 8) ++ [0x88]
      ++ [0x88, 0x82, a.extractLsb' 8 8, 0xFF, 0x88, 0x88] ++ longDelayBytes (10 * p.tCartSettleUs * 2 / 8) ++ [0x88]
      ++ [0x82, 0x00, 0x00]

/-! ## The machine -/

/-- An engine's step runs the instruction its queue decodes to (R121): the next state is that of the instruction,
with the instruction's bytes off the queue unless it is a `WAITHI` still blocked, and the next turn drawn; a stop
is the instruction's stop. -/
def Obligations.EngineStepRunsTheDecodedInstruction : Prop :=
  ∀ (s : State) (c : Chan) (i : Instr) (rest : List Byte), s.turn = .engine c →
    decode (s.engine c).q = .ok (i, rest) →
    (∀ t, exec i s = .next t →
      step s = .next (State.nextTurn
        (if i = .waithi ∧ (t.engine c).st = .blocked then t
          else t.setEngine c { t.engine c with q := rest })))
    ∧ (∀ r, exec i s = .refused r → step s = .refused r)
    ∧ (∀ f, exec i s = .fault f → step s = .fault f)

/-- The block's turn (R12, R74, R381): the machine's step is the block's step and the next turn drawn; a stop is that
of the block. The block's step is the next step of its operation, taken off it, or where no operation is in progress
the caller's next call (the caller as a list of calls: log entry 26), or nothing where no call waits. An emission runs
the instruction, or the pseudo-instruction, on the channel named. The turn drawn is the first of those listed, with the
others left; with none listed it is a free value, another one at each step, so that any interleaving is a run (R76,
R121; the model's form, log entry 5); drawing it changes nothing else. -/
def Obligations.BlockStepRunsTheEmittedInstruction : Prop :=
  ∀ s : State,
    (s.turn = .block → step s = passTurn (blockStep s))
    ∧ passTurn (.next s) = .next s.nextTurn
    ∧ (∀ r, passTurn (.refused r) = .refused r) ∧ (∀ f, passTurn (.fault f) = .fault f)
    ∧ (∀ (task : Task) (m : BlockStep) (rest : List BlockStep), s.task = some task → task.prog = m :: rest →
      blockStep s = runStep m { s with task := some { task with prog := rest } })
    ∧ (s.task = none →
      (∀ c cs, s.calls = c :: cs → ∃ t, blockStep s = .next t ∧ t.calls = cs)
      ∧ (s.calls = [] → blockStep s = .next s))
    ∧ (∀ ch e, runStep (.emit ch e) s = runEmitter ch e s)
    ∧ (∀ ch i, runEmitter ch (.instr i) s = exec i { s with emitCh := ch })
    ∧ (∀ a more, s.turns.script = a :: more →
      s.nextTurn = { s with turn := a, turns := { s.turns with script := more } })
    ∧ (s.turns.script = [] →
      s.nextTurn = { s with
        turn := Config.turn s.turns.count, turns := { s.turns with count := s.turns.count + 1 } })

/-- R97, R100: an engine at a first byte outside the table is refused by name, and so is one at a `WAITS` with an
operand above 7, which is no encoding (that it stops there is the model's reading, log entry 16); at an empty queue, or
at an instruction not wholly there, it does nothing. -/
def Obligations.EngineAtNoInstruction : Prop :=
  ∀ (s : State) (c : Chan), s.turn = .engine c →
    (∀ b rest, (s.engine c).q = b :: rest → instrLength b = none → step s = .refused (.unlistedOpcode b))
    ∧ (∀ u rest, (s.engine c).q = 0x8E :: u :: rest → 7 < u.toNat → step s = .refused (.reservedOperand u))
    ∧ ((s.engine c).q = [] → step s = .next s.nextTurn)
    ∧ (∀ b rest n, (s.engine c).q = b :: rest → instrLength b = some n → rest.length + 1 < n →
      step s = .next s.nextTurn)

/-- R131, R282: while a `WAITHI` is at the front of B's queue, a step of B executes nothing after it: it starts the
wait, or polls; and the wait leaves the queue only at a poll that reads 1. -/
def Obligations.NothingPassesAWaitBeforeAHighPoll : Prop :=
  ∀ (s t : State) (rest : List Byte), s.turn = .engine .b → (s.engine .b).q = 0x88 :: rest →
    step s = .next t →
    ((s.engine .b).st = .running → t.engine .b = { s.engine .b with st := .blocked })
    ∧ ((s.engine .b).st = .blocked → s.readyLevel = false → t.engine .b = s.engine .b)
    ∧ ((s.engine .b).st = .blocked → s.readyLevel = true →
      t.engine .b = { s.engine .b with st := .running, q := rest })

/-- R31, R32, R66: queues and response FIFOs are first in, first out. In any step the block only appends to queues
and only removes response bytes from the front; an engine only removes bytes from the front of its own queue and only
appends to its own responses. -/
def Obligations.QueuesAndResponsesAreFifo : Prop :=
  ∀ s t : State, step s = .next t → ∀ c,
    (s.turn = .block →
      (∃ more, (t.engine c).q = (s.engine c).q ++ more) ∧ ∃ n, (t.engine c).rsp = (s.engine c).rsp.drop n)
    ∧ (s.turn = .engine c →
      (∃ n, (t.engine c).q = (s.engine c).q.drop n) ∧ ∃ more, (t.engine c).rsp = (s.engine c).rsp ++ more)

/-- R72, R78, R280: an engine's step changes nothing of the block (its buffer, cursors, sessions, registers, task,
results) and nothing of another engine. -/
def Obligations.EngineStepsStayInTheirEngine : Prop :=
  ∀ (s t : State) (c : Chan), s.turn = .engine c → step s = .next t →
    SameBlock s t ∧ ∀ d, d ≠ c → t.engine d = s.engine d

/-- R48: the block's step writes no pin, loopback, divisor or status register of any engine: of an engine it touches
the queue and the response FIFO alone. -/
def Obligations.BlockStepsLeaveEngineRegisters : Prop :=
  ∀ s t : State, s.turn = .block → step s = .next t → ∀ c,
    t.engine c = { s.engine c with q := (t.engine c).q, rsp := (t.engine c).rsp }

/-- R27, R30: the pin registers of an engine change in its own step alone, by a pin write at the front of its queue,
and then to exactly the bytes of that pin write. -/
def Obligations.PinRegistersChangeOnlyByPinWrites : Prop :=
  ∀ (s t : State) (c : Chan), step s = .next t →
    ((t.engine c).valLo ≠ (s.engine c).valLo ∨ (t.engine c).dirLo ≠ (s.engine c).dirLo →
      s.turn = .engine c ∧ ∃ rest, (s.engine c).q = 0x80 :: (t.engine c).valLo :: (t.engine c).dirLo :: rest)
    ∧ ((t.engine c).valHi ≠ (s.engine c).valHi ∨ (t.engine c).dirHi ≠ (s.engine c).dirHi →
      s.turn = .engine c ∧ ∃ rest, (s.engine c).q = 0x82 :: (t.engine c).valHi :: (t.engine c).dirHi :: rest)

/-- R46: the fault mark is sticky, every step keeps it; a step that records a fault of R348 sets it. And no step changes
the open parameters, which is the model's form of them (log entry 6). -/
def Obligations.FaultMarkIsSticky : Prop :=
  ∀ s t : State, step s = .next t →
    (s.faulted = true → t.faulted = true)
    ∧ (∀ f, t.results = s.results ++ [.marked f] → t.faulted = true)
    ∧ t.params = s.params

/-- R20, R22, R25: every step keeps the buffer in canonical form below the capacity, every cursor in its region and
every offset below a cursor with a value, in the buffer that is and in the one an error would bring back (R352). -/
def Obligations.StepsKeepTheBufferInvariant : Prop :=
  ∀ s t : State, BufferInv s → step s = .next t → BufferInv t

/-- R25: from the buffer's invariant no step reads garbage: the one fault of the machine is never raised. -/
def Obligations.NoStepReadsGarbage : Prop :=
  ∀ (s : State) (f : Fault), BufferInv s → step s ≠ .fault f

/-- R21, R43, R396: every step keeps at most one session on the buffer, in its own mode, with no register value
outside a session, and the operation in progress in its session. -/
def Obligations.StepsKeepTheSessionInvariant : Prop :=
  ∀ s t : State, SessionInv s → step s = .next t → SessionInv t

/-- R236: every step keeps a ready session with a value in every register. -/
def Obligations.StepsKeepReadySessionsFull : Prop :=
  ∀ s t : State, ReadyInv s → step s = .next t → ReadyInv t

/-- R35: every step keeps it that only engine B is ever blocked, with a `WAITHI` at the front of its queue. -/
def Obligations.StepsKeepBlockedEnginesAtTheirWait : Prop :=
  ∀ s t : State, WaitInv s → step s = .next t → WaitInv t

/-- The state after reset meets the four invariants. -/
def Obligations.ResetMeetsTheInvariants : Prop :=
  BufferInv State.reset ∧ SessionInv State.reset ∧ ReadyInv State.reset ∧ WaitInv State.reset

/-- R47: what reset leaves, for every piece of state the table of R47 gives a value. -/
def Obligations.ResetIsTheTableOfResetValues : Prop :=
  State.reset.sess = .closed ∧ State.reset.sessC = .closed ∧ State.reset.faulted = false
    ∧ (∀ c, (State.reset.port c).cur = State.reset.base c ∧ (State.reset.port c).nreq = 0)
    ∧ (∀ c, (State.reset.engine c).q = [] ∧ (State.reset.engine c).rsp = []
        ∧ (State.reset.engine c).st = .running)
    ∧ State.reset.regs = SessionRegs.none
    ∧ ∀ i, Memory.read State.reset.buf i = none
end

