-- ==== Sys2Proof/Laws/Memory.lean ====
section
/-! SUPPORT. The laws of the command buffer: a write is read back, every other offset is left, the canonical form is
kept, and a run of bytes is written as a whole. -/

namespace Sys2Proof.Machine

@[simp] theorem Memory.read_write_same (m : Memory) (i : Nat) (x : Byte) :
    Memory.read (Memory.write m i x) i = some x := by
  induction m with
  | nil => simp [Memory.write, Memory.read]
  | cons c rest ih =>
    obtain ⟨k, y⟩ := c
    simp only [Memory.write]
    split
    · simp [Memory.read]
    · split
      · simp [Memory.read]
      · simp [Memory.read, *]

theorem Memory.read_write_other (m : Memory) {i j : Nat} (x : Byte) (h : j ≠ i) :
    Memory.read (Memory.write m i x) j = Memory.read m j := by
  induction m with
  | nil => simp [Memory.write, Memory.read, h]
  | cons c rest ih =>
    obtain ⟨k, y⟩ := c
    simp only [Memory.write]
    split
    · simp [Memory.read, h]
    · split
      · rename_i h2; subst h2; simp [Memory.read, h]
      · simp only [Memory.read]; split <;> simp_all

/-- `wf` is the strict rise of the offsets. -/
theorem Memory.wf_iff (m : Memory) : Memory.wf m = true ↔ (m.map Prod.fst).IsChain (· < ·) := by
  induction m with
  | nil => simp [Memory.wf]
  | cons c rest ih =>
    cases rest with
    | nil => simp [Memory.wf]
    | cons d rest =>
      obtain ⟨k, x⟩ := c
      obtain ⟨l, y⟩ := d
      simp only [Memory.wf, Bool.and_eq_true, decide_eq_true_eq, ih]
      simp

theorem Memory.wf_tail {k : Nat} {x : Byte} {m : Memory} (h : Memory.wf ((k, x) :: m) = true) :
    Memory.wf m = true := by
  cases m with
  | nil => rfl
  | cons d rest => simp only [Memory.wf, Bool.and_eq_true] at h; exact h.2

/-- The first offset after a write. -/
theorem Memory.write_head {m : Memory} {i : Nat} {x : Byte} :
    ∃ k y rest, Memory.write m i x = (k, y) :: rest ∧
      (k = i ∨ ∃ z rest', m = (k, z) :: rest') := by
  cases m with
  | nil => exact ⟨i, x, [], rfl, .inl rfl⟩
  | cons c rest =>
    obtain ⟨k, y⟩ := c
    simp only [Memory.write]
    split
    · exact ⟨_, _, _, rfl, .inl rfl⟩
    · split
      · exact ⟨_, _, _, rfl, .inl rfl⟩
      · exact ⟨_, _, _, rfl, .inr ⟨_, _, rfl⟩⟩

theorem Memory.wf_write {m : Memory} (h : Memory.wf m = true) (i : Nat) (x : Byte) :
    Memory.wf (Memory.write m i x) = true := by
  induction m with
  | nil => rfl
  | cons c rest ih =>
    obtain ⟨k, y⟩ := c
    have hr := Memory.wf_tail h
    simp only [Memory.write]
    split
    · simp only [Memory.wf, Bool.and_eq_true, decide_eq_true_eq]
      exact ⟨by assumption, h⟩
    · split
      · rename_i h2
        subst h2
        cases rest with
        | nil => rfl
        | cons d rest => simpa only [Memory.wf] using h
      · have hw := ih hr
        obtain ⟨l, z, rest', he, hl⟩ := Memory.write_head (m := rest) (i := i) (x := x)
        rw [he] at hw ⊢
        simp only [Memory.wf, Bool.and_eq_true, decide_eq_true_eq]
        refine ⟨?_, hw⟩
        rcases hl with rfl | ⟨w, r, rfl⟩
        · omega
        · simp only [Memory.wf, Bool.and_eq_true, decide_eq_true_eq] at h; exact h.1

/-- Every memory operation keeps the canonical form. -/
theorem Memory.wf_writeBytes {m : Memory} (h : Memory.wf m = true) (i : Nat) (bs : List Byte) :
    Memory.wf (Memory.writeBytes m i bs) = true := by
  induction bs generalizing m i with
  | nil => exact h
  | cons b bs ih => exact ih (Memory.wf_write h i b) (i + 1)

theorem Memory.read_writeBytes_outside (m : Memory) (i j : Nat) (bs : List Byte)
    (h : j < i ∨ i + bs.length ≤ j) :
    Memory.read (Memory.writeBytes m i bs) j = Memory.read m j := by
  induction bs generalizing m i with
  | nil => rfl
  | cons b bs ih =>
    simp only [List.length_cons] at h
    rw [Memory.writeBytes, ih _ _ (by omega), Memory.read_write_other _ _ (by omega)]

theorem Memory.read_writeBytes_inside (m : Memory) (i k : Nat) (bs : List Byte) (h : k < bs.length) :
    Memory.read (Memory.writeBytes m i bs) (i + k) = bs[k]? := by
  induction bs generalizing m i k with
  | nil => simp at h
  | cons b bs ih =>
    rw [Memory.writeBytes]
    cases k with
    | zero => rw [Memory.read_writeBytes_outside _ _ _ _ (by omega)]; simp
    | succ k =>
      rw [show i + (k + 1) = i + 1 + k by omega, ih _ _ _ (by simpa using h)]
      simp

theorem Memory.mem_write {m : Memory} {i : Nat} {x : Byte} {c : Host.Cell} (h : c ∈ Memory.write m i x) :
    c ∈ m ∨ c = (i, x) := by
  induction m with
  | nil => right; simpa [Memory.write] using h
  | cons d rest ih =>
    obtain ⟨k, y⟩ := d
    simp only [Memory.write] at h
    split at h
    · simp only [List.mem_cons] at h ⊢; tauto
    · split at h
      · simp only [List.mem_cons] at h ⊢; tauto
      · simp only [List.mem_cons] at h ⊢
        rcases h with h | h
        · tauto
        · rcases ih h with h | h <;> tauto

theorem Memory.mem_writeBytes {m : Memory} {i : Nat} {bs : List Byte} {c : Host.Cell}
    (h : c ∈ Memory.writeBytes m i bs) : c ∈ m ∨ (i ≤ c.1 ∧ c.1 < i + bs.length) := by
  induction bs generalizing m i with
  | nil => exact .inl h
  | cons b bs ih =>
    rcases ih h with h | h
    · rcases Memory.mem_write h with h | rfl
      · exact .inl h
      · right; simp
    · right; simp only [List.length_cons]; omega

/-- A read of an offset that was readable stays so after any write. -/
theorem Memory.isSome_read_write {m : Memory} {i j : Nat} {x : Byte}
    (h : (Memory.read m j).isSome = true) : (Memory.read (Memory.write m i x) j).isSome = true := by
  by_cases hj : j = i
  · subst hj; simp
  · rw [Memory.read_write_other _ _ hj]; exact h

theorem Memory.isSome_read_writeBytes {m : Memory} {i j : Nat} {bs : List Byte}
    (h : (Memory.read m j).isSome = true) : (Memory.read (Memory.writeBytes m i bs) j).isSome = true := by
  induction bs generalizing m i with
  | nil => exact h
  | cons b bs ih => exact ih (Memory.isSome_read_write h)

/-- A composed buffer is read without a fault exactly where every offset has a value, and has the bytes there. -/
theorem State.readOffsets_ok (s : State) (ch : Chan) (is : List Nat)
    (hr : ∀ i ∈ is, s.base ch ≤ i ∧ i < (s.port ch).cur)
    (hv : ∀ i ∈ is, (Memory.read s.buf i).isSome = true) :
    ∃ bs, s.readOffsets ch is = .ok bs ∧ bs.map some = is.map (Memory.read s.buf) := by
  induction is with
  | nil => exact ⟨[], rfl, rfl⟩
  | cons i is ih =>
    obtain ⟨bs, hb, hm⟩ := ih (fun j hj => hr j (.tail _ hj)) (fun j hj => hv j (.tail _ hj))
    obtain ⟨x, hx⟩ := Option.isSome_iff_exists.mp (hv i (.head _))
    refine ⟨x :: bs, ?_, by simp [hx, hm]⟩
    have h1 := hr i (.head _)
    simp [State.readOffsets, State.readBuf, h1, hx, hb]

/-- With the buffer's invariant a flush always has bytes to send: those the offsets hold. -/
theorem State.composed_ok {s : State} (h : BufferOk s) (ch : Chan) :
    ∃ bs, s.composed ch = .ok bs ∧ bs.length = (s.port ch).cur - s.base ch
      ∧ ∀ k, k < bs.length → bs[k]? = Memory.read s.buf (s.base ch + k) := by
  obtain ⟨-, -, -, hc, hv⟩ := h
  have hmem : ∀ i ∈ List.range' (s.base ch) ((s.port ch).cur - s.base ch),
      s.base ch ≤ i ∧ i < (s.port ch).cur := by
    intro i hi
    have := List.mem_range'_1.mp hi
    have := (hc ch).1
    omega
  obtain ⟨bs, hb, hm⟩ := s.readOffsets_ok ch _ hmem (fun i hi => hv ch i (hmem i hi).1 (hmem i hi).2)
  have hl : bs.length = (s.port ch).cur - s.base ch := by
    have := congrArg List.length hm
    simpa using this
  refine ⟨bs, hb, hl, fun k hk => ?_⟩
  have := congrArg (fun l => l[k]?) hm
  simp only [List.getElem?_map] at this
  rw [List.getElem?_range' (by omega)] at this
  simp only [Option.map_some, Nat.one_mul] at this
  cases hbk : bs[k]? with
  | none => simp [hbk] at this
  | some x => simpa [hbk] using this

end Sys2Proof.Machine
end

