-- ==== Sys2Proof/Laws/State.lean ====
section
/-! SUPPORT. What each update of the state leaves in each field: one lemma per field per update, true by rfl. -/

namespace Sys2Proof.Machine

/-! ## `setPort` -/

@[simp] theorem State.setPort_params (s : State) (c : Chan) (p : Port) : (s.setPort c p).params = s.params := rfl
@[simp] theorem State.setPort_buf (s : State) (c : Chan) (p : Port) : (s.setPort c p).buf = s.buf := rfl
@[simp] theorem State.setPort_mode (s : State) (c : Chan) (p : Port) : (s.setPort c p).mode = s.mode := rfl
@[simp] theorem State.setPort_ports (s : State) (c : Chan) (p : Port) : (s.setPort c p).ports = s.ports.set c p := rfl
@[simp] theorem State.setPort_engines (s : State) (c : Chan) (p : Port) : (s.setPort c p).engines = s.engines := rfl
@[simp] theorem State.setPort_sess (s : State) (c : Chan) (p : Port) : (s.setPort c p).sess = s.sess := rfl
@[simp] theorem State.setPort_sessC (s : State) (c : Chan) (p : Port) : (s.setPort c p).sessC = s.sessC := rfl
@[simp] theorem State.setPort_regs (s : State) (c : Chan) (p : Port) : (s.setPort c p).regs = s.regs := rfl
@[simp] theorem State.setPort_faulted (s : State) (c : Chan) (p : Port) : (s.setPort c p).faulted = s.faulted := rfl
@[simp] theorem State.setPort_task (s : State) (c : Chan) (p : Port) : (s.setPort c p).task = s.task := rfl
@[simp] theorem State.setPort_emitCh (s : State) (c : Chan) (p : Port) : (s.setPort c p).emitCh = s.emitCh := rfl
@[simp] theorem State.setPort_calls (s : State) (c : Chan) (p : Port) : (s.setPort c p).calls = s.calls := rfl
@[simp] theorem State.setPort_results (s : State) (c : Chan) (p : Port) : (s.setPort c p).results = s.results := rfl
@[simp] theorem State.setPort_turn (s : State) (c : Chan) (p : Port) : (s.setPort c p).turn = s.turn := rfl
@[simp] theorem State.setPort_turns (s : State) (c : Chan) (p : Port) : (s.setPort c p).turns = s.turns := rfl
@[simp] theorem State.setPort_levels (s : State) (c : Chan) (p : Port) : (s.setPort c p).levels = s.levels := rfl
@[simp] theorem State.setPort_answers (s : State) (c : Chan) (p : Port) : (s.setPort c p).answers = s.answers := rfl

/-! ## `setEngine` -/

@[simp] theorem State.setEngine_params (s : State) (c : Chan) (e : Engine) : (s.setEngine c e).params = s.params := rfl
@[simp] theorem State.setEngine_buf (s : State) (c : Chan) (e : Engine) : (s.setEngine c e).buf = s.buf := rfl
@[simp] theorem State.setEngine_mode (s : State) (c : Chan) (e : Engine) : (s.setEngine c e).mode = s.mode := rfl
@[simp] theorem State.setEngine_ports (s : State) (c : Chan) (e : Engine) : (s.setEngine c e).ports = s.ports := rfl
@[simp] theorem State.setEngine_engines (s : State) (c : Chan) (e : Engine) : (s.setEngine c e).engines = s.engines.set c e := rfl
@[simp] theorem State.setEngine_sess (s : State) (c : Chan) (e : Engine) : (s.setEngine c e).sess = s.sess := rfl
@[simp] theorem State.setEngine_sessC (s : State) (c : Chan) (e : Engine) : (s.setEngine c e).sessC = s.sessC := rfl
@[simp] theorem State.setEngine_regs (s : State) (c : Chan) (e : Engine) : (s.setEngine c e).regs = s.regs := rfl
@[simp] theorem State.setEngine_faulted (s : State) (c : Chan) (e : Engine) : (s.setEngine c e).faulted = s.faulted := rfl
@[simp] theorem State.setEngine_task (s : State) (c : Chan) (e : Engine) : (s.setEngine c e).task = s.task := rfl
@[simp] theorem State.setEngine_emitCh (s : State) (c : Chan) (e : Engine) : (s.setEngine c e).emitCh = s.emitCh := rfl
@[simp] theorem State.setEngine_calls (s : State) (c : Chan) (e : Engine) : (s.setEngine c e).calls = s.calls := rfl
@[simp] theorem State.setEngine_results (s : State) (c : Chan) (e : Engine) : (s.setEngine c e).results = s.results := rfl
@[simp] theorem State.setEngine_turn (s : State) (c : Chan) (e : Engine) : (s.setEngine c e).turn = s.turn := rfl
@[simp] theorem State.setEngine_turns (s : State) (c : Chan) (e : Engine) : (s.setEngine c e).turns = s.turns := rfl
@[simp] theorem State.setEngine_levels (s : State) (c : Chan) (e : Engine) : (s.setEngine c e).levels = s.levels := rfl
@[simp] theorem State.setEngine_answers (s : State) (c : Chan) (e : Engine) : (s.setEngine c e).answers = s.answers := rfl

/-! ## `popAnswer` -/

@[simp] theorem State.popAnswer_params (s : State) : (s.popAnswer).params = s.params := rfl
@[simp] theorem State.popAnswer_buf (s : State) : (s.popAnswer).buf = s.buf := rfl
@[simp] theorem State.popAnswer_mode (s : State) : (s.popAnswer).mode = s.mode := rfl
@[simp] theorem State.popAnswer_ports (s : State) : (s.popAnswer).ports = s.ports := rfl
@[simp] theorem State.popAnswer_engines (s : State) : (s.popAnswer).engines = s.engines := rfl
@[simp] theorem State.popAnswer_sess (s : State) : (s.popAnswer).sess = s.sess := rfl
@[simp] theorem State.popAnswer_sessC (s : State) : (s.popAnswer).sessC = s.sessC := rfl
@[simp] theorem State.popAnswer_regs (s : State) : (s.popAnswer).regs = s.regs := rfl
@[simp] theorem State.popAnswer_faulted (s : State) : (s.popAnswer).faulted = s.faulted := rfl
@[simp] theorem State.popAnswer_task (s : State) : (s.popAnswer).task = s.task := rfl
@[simp] theorem State.popAnswer_emitCh (s : State) : (s.popAnswer).emitCh = s.emitCh := rfl
@[simp] theorem State.popAnswer_calls (s : State) : (s.popAnswer).calls = s.calls := rfl
@[simp] theorem State.popAnswer_results (s : State) : (s.popAnswer).results = s.results := rfl
@[simp] theorem State.popAnswer_turn (s : State) : (s.popAnswer).turn = s.turn := rfl
@[simp] theorem State.popAnswer_turns (s : State) : (s.popAnswer).turns = s.turns := rfl
@[simp] theorem State.popAnswer_levels (s : State) : (s.popAnswer).levels = s.levels := rfl
@[simp] theorem State.popAnswer_answers (s : State) : (s.popAnswer).answers = s.answers.next := rfl

/-! ## `nextTurn` -/

@[simp] theorem State.nextTurn_params (s : State) : (s.nextTurn).params = s.params := rfl
@[simp] theorem State.nextTurn_buf (s : State) : (s.nextTurn).buf = s.buf := rfl
@[simp] theorem State.nextTurn_mode (s : State) : (s.nextTurn).mode = s.mode := rfl
@[simp] theorem State.nextTurn_ports (s : State) : (s.nextTurn).ports = s.ports := rfl
@[simp] theorem State.nextTurn_engines (s : State) : (s.nextTurn).engines = s.engines := rfl
@[simp] theorem State.nextTurn_sess (s : State) : (s.nextTurn).sess = s.sess := rfl
@[simp] theorem State.nextTurn_sessC (s : State) : (s.nextTurn).sessC = s.sessC := rfl
@[simp] theorem State.nextTurn_regs (s : State) : (s.nextTurn).regs = s.regs := rfl
@[simp] theorem State.nextTurn_faulted (s : State) : (s.nextTurn).faulted = s.faulted := rfl
@[simp] theorem State.nextTurn_task (s : State) : (s.nextTurn).task = s.task := rfl
@[simp] theorem State.nextTurn_emitCh (s : State) : (s.nextTurn).emitCh = s.emitCh := rfl
@[simp] theorem State.nextTurn_calls (s : State) : (s.nextTurn).calls = s.calls := rfl
@[simp] theorem State.nextTurn_results (s : State) : (s.nextTurn).results = s.results := rfl
@[simp] theorem State.nextTurn_turn (s : State) : (s.nextTurn).turn = s.turns.value Config.turn := rfl
@[simp] theorem State.nextTurn_turns (s : State) : (s.nextTurn).turns = s.turns.next := rfl
@[simp] theorem State.nextTurn_levels (s : State) : (s.nextTurn).levels = s.levels := rfl
@[simp] theorem State.nextTurn_answers (s : State) : (s.nextTurn).answers = s.answers := rfl

/-! ## `endTask` -/

@[simp] theorem State.endTask_params (s : State) (r : Result) : (s.endTask r).params = s.params := rfl
@[simp] theorem State.endTask_buf (s : State) (r : Result) : (s.endTask r).buf = s.buf := rfl
@[simp] theorem State.endTask_mode (s : State) (r : Result) : (s.endTask r).mode = s.mode := rfl
@[simp] theorem State.endTask_ports (s : State) (r : Result) : (s.endTask r).ports = s.ports := rfl
@[simp] theorem State.endTask_engines (s : State) (r : Result) : (s.endTask r).engines = s.engines := rfl
@[simp] theorem State.endTask_sess (s : State) (r : Result) : (s.endTask r).sess = s.sess := rfl
@[simp] theorem State.endTask_sessC (s : State) (r : Result) : (s.endTask r).sessC = s.sessC := rfl
@[simp] theorem State.endTask_regs (s : State) (r : Result) : (s.endTask r).regs = s.regs := rfl
@[simp] theorem State.endTask_faulted (s : State) (r : Result) : (s.endTask r).faulted = s.faulted := rfl
@[simp] theorem State.endTask_task (s : State) (r : Result) : (s.endTask r).task = none := rfl
@[simp] theorem State.endTask_emitCh (s : State) (r : Result) : (s.endTask r).emitCh = s.emitCh := rfl
@[simp] theorem State.endTask_calls (s : State) (r : Result) : (s.endTask r).calls = s.calls := rfl
@[simp] theorem State.endTask_results (s : State) (r : Result) : (s.endTask r).results = s.results ++ [r] := rfl
@[simp] theorem State.endTask_turn (s : State) (r : Result) : (s.endTask r).turn = s.turn := rfl
@[simp] theorem State.endTask_turns (s : State) (r : Result) : (s.endTask r).turns = s.turns := rfl
@[simp] theorem State.endTask_levels (s : State) (r : Result) : (s.endTask r).levels = s.levels := rfl
@[simp] theorem State.endTask_answers (s : State) (r : Result) : (s.endTask r).answers = s.answers := rfl

/-! ## `fault` -/

@[simp] theorem State.fault_params (s : State) (f : Mark) : (s.fault f).params = s.params := rfl
@[simp] theorem State.fault_buf (s : State) (f : Mark) : (s.fault f).buf = s.buf := rfl
@[simp] theorem State.fault_mode (s : State) (f : Mark) : (s.fault f).mode = s.mode := rfl
@[simp] theorem State.fault_ports (s : State) (f : Mark) : (s.fault f).ports = s.ports := rfl
@[simp] theorem State.fault_engines (s : State) (f : Mark) : (s.fault f).engines = s.engines := rfl
@[simp] theorem State.fault_sess (s : State) (f : Mark) : (s.fault f).sess = s.sess := rfl
@[simp] theorem State.fault_sessC (s : State) (f : Mark) : (s.fault f).sessC = s.sessC := rfl
@[simp] theorem State.fault_regs (s : State) (f : Mark) : (s.fault f).regs = s.regs := rfl
@[simp] theorem State.fault_faulted (s : State) (f : Mark) : (s.fault f).faulted = true := rfl
@[simp] theorem State.fault_task (s : State) (f : Mark) : (s.fault f).task = none := rfl
@[simp] theorem State.fault_emitCh (s : State) (f : Mark) : (s.fault f).emitCh = s.emitCh := rfl
@[simp] theorem State.fault_calls (s : State) (f : Mark) : (s.fault f).calls = s.calls := rfl
@[simp] theorem State.fault_results (s : State) (f : Mark) : (s.fault f).results = s.results ++ [.marked f] := rfl
@[simp] theorem State.fault_turn (s : State) (f : Mark) : (s.fault f).turn = s.turn := rfl
@[simp] theorem State.fault_turns (s : State) (f : Mark) : (s.fault f).turns = s.turns := rfl
@[simp] theorem State.fault_levels (s : State) (f : Mark) : (s.fault f).levels = s.levels := rfl
@[simp] theorem State.fault_answers (s : State) (f : Mark) : (s.fault f).answers = s.answers := rfl

/-! ## `again` -/

@[simp] theorem State.again_params (s : State) (m : BlockStep) : (s.again m).params = s.params := rfl
@[simp] theorem State.again_buf (s : State) (m : BlockStep) : (s.again m).buf = s.buf := rfl
@[simp] theorem State.again_mode (s : State) (m : BlockStep) : (s.again m).mode = s.mode := rfl
@[simp] theorem State.again_ports (s : State) (m : BlockStep) : (s.again m).ports = s.ports := rfl
@[simp] theorem State.again_engines (s : State) (m : BlockStep) : (s.again m).engines = s.engines := rfl
@[simp] theorem State.again_sess (s : State) (m : BlockStep) : (s.again m).sess = s.sess := rfl
@[simp] theorem State.again_sessC (s : State) (m : BlockStep) : (s.again m).sessC = s.sessC := rfl
@[simp] theorem State.again_regs (s : State) (m : BlockStep) : (s.again m).regs = s.regs := rfl
@[simp] theorem State.again_faulted (s : State) (m : BlockStep) : (s.again m).faulted = s.faulted := rfl
@[simp] theorem State.again_task (s : State) (m : BlockStep) : (s.again m).task = s.task.map (fun t => { t with prog := m :: t.prog }) := rfl
@[simp] theorem State.again_emitCh (s : State) (m : BlockStep) : (s.again m).emitCh = s.emitCh := rfl
@[simp] theorem State.again_calls (s : State) (m : BlockStep) : (s.again m).calls = s.calls := rfl
@[simp] theorem State.again_results (s : State) (m : BlockStep) : (s.again m).results = s.results := rfl
@[simp] theorem State.again_turn (s : State) (m : BlockStep) : (s.again m).turn = s.turn := rfl
@[simp] theorem State.again_turns (s : State) (m : BlockStep) : (s.again m).turns = s.turns := rfl
@[simp] theorem State.again_levels (s : State) (m : BlockStep) : (s.again m).levels = s.levels := rfl
@[simp] theorem State.again_answers (s : State) (m : BlockStep) : (s.again m).answers = s.answers := rfl

/-! ## `afterFlush` -/

@[simp] theorem State.afterFlush_params (s : State) (ch : Chan) : (s.afterFlush ch).params = s.params := rfl
@[simp] theorem State.afterFlush_buf (s : State) (ch : Chan) : (s.afterFlush ch).buf = s.buf := rfl
@[simp] theorem State.afterFlush_mode (s : State) (ch : Chan) : (s.afterFlush ch).mode = s.mode := rfl
@[simp] theorem State.afterFlush_ports (s : State) (ch : Chan) : (s.afterFlush ch).ports = s.ports.set ch { cur := s.base ch, nreq := 0, owed := (s.port ch).nreq, got := [] } := rfl
@[simp] theorem State.afterFlush_engines (s : State) (ch : Chan) : (s.afterFlush ch).engines = s.engines := rfl
@[simp] theorem State.afterFlush_sess (s : State) (ch : Chan) : (s.afterFlush ch).sess = s.sess := rfl
@[simp] theorem State.afterFlush_sessC (s : State) (ch : Chan) : (s.afterFlush ch).sessC = s.sessC := rfl
@[simp] theorem State.afterFlush_regs (s : State) (ch : Chan) : (s.afterFlush ch).regs = s.regs := rfl
@[simp] theorem State.afterFlush_faulted (s : State) (ch : Chan) : (s.afterFlush ch).faulted = s.faulted := rfl
@[simp] theorem State.afterFlush_task (s : State) (ch : Chan) : (s.afterFlush ch).task = s.task := rfl
@[simp] theorem State.afterFlush_emitCh (s : State) (ch : Chan) : (s.afterFlush ch).emitCh = s.emitCh := rfl
@[simp] theorem State.afterFlush_calls (s : State) (ch : Chan) : (s.afterFlush ch).calls = s.calls := rfl
@[simp] theorem State.afterFlush_results (s : State) (ch : Chan) : (s.afterFlush ch).results = s.results := rfl
@[simp] theorem State.afterFlush_turn (s : State) (ch : Chan) : (s.afterFlush ch).turn = s.turn := rfl
@[simp] theorem State.afterFlush_turns (s : State) (ch : Chan) : (s.afterFlush ch).turns = s.turns := rfl
@[simp] theorem State.afterFlush_levels (s : State) (ch : Chan) : (s.afterFlush ch).levels = s.levels := rfl
@[simp] theorem State.afterFlush_answers (s : State) (ch : Chan) : (s.afterFlush ch).answers = s.answers := rfl

/-! ## `enqueue` -/

@[simp] theorem State.enqueue_params (s : State) (ch : Chan) (bs : List Byte) : (s.enqueue ch bs).params = s.params := rfl
@[simp] theorem State.enqueue_buf (s : State) (ch : Chan) (bs : List Byte) : (s.enqueue ch bs).buf = s.buf := rfl
@[simp] theorem State.enqueue_mode (s : State) (ch : Chan) (bs : List Byte) : (s.enqueue ch bs).mode = s.mode := rfl
@[simp] theorem State.enqueue_ports (s : State) (ch : Chan) (bs : List Byte) : (s.enqueue ch bs).ports = s.ports := rfl
@[simp] theorem State.enqueue_engines (s : State) (ch : Chan) (bs : List Byte) : (s.enqueue ch bs).engines = s.engines.set ch { s.engine ch with q := (s.engine ch).q ++ bs } := rfl
@[simp] theorem State.enqueue_sess (s : State) (ch : Chan) (bs : List Byte) : (s.enqueue ch bs).sess = s.sess := rfl
@[simp] theorem State.enqueue_sessC (s : State) (ch : Chan) (bs : List Byte) : (s.enqueue ch bs).sessC = s.sessC := rfl
@[simp] theorem State.enqueue_regs (s : State) (ch : Chan) (bs : List Byte) : (s.enqueue ch bs).regs = s.regs := rfl
@[simp] theorem State.enqueue_faulted (s : State) (ch : Chan) (bs : List Byte) : (s.enqueue ch bs).faulted = s.faulted := rfl
@[simp] theorem State.enqueue_task (s : State) (ch : Chan) (bs : List Byte) : (s.enqueue ch bs).task = s.task := rfl
@[simp] theorem State.enqueue_emitCh (s : State) (ch : Chan) (bs : List Byte) : (s.enqueue ch bs).emitCh = s.emitCh := rfl
@[simp] theorem State.enqueue_calls (s : State) (ch : Chan) (bs : List Byte) : (s.enqueue ch bs).calls = s.calls := rfl
@[simp] theorem State.enqueue_results (s : State) (ch : Chan) (bs : List Byte) : (s.enqueue ch bs).results = s.results := rfl
@[simp] theorem State.enqueue_turn (s : State) (ch : Chan) (bs : List Byte) : (s.enqueue ch bs).turn = s.turn := rfl
@[simp] theorem State.enqueue_turns (s : State) (ch : Chan) (bs : List Byte) : (s.enqueue ch bs).turns = s.turns := rfl
@[simp] theorem State.enqueue_levels (s : State) (ch : Chan) (bs : List Byte) : (s.enqueue ch bs).levels = s.levels := rfl
@[simp] theorem State.enqueue_answers (s : State) (ch : Chan) (bs : List Byte) : (s.enqueue ch bs).answers = s.answers := rfl

/-! ## Channels -/

@[simp] theorem PerChan.get_set_same {α : Type} (p : PerChan α) (c : Chan) (x : α) : (p.set c x).get c = x := by
  cases c <;> rfl

theorem PerChan.get_set_other {α : Type} (p : PerChan α) {c d : Chan} (x : α) (h : d ≠ c) :
    (p.set c x).get d = p.get d := by
  cases c <;> cases d <;> first | rfl | exact absurd rfl h

@[simp] theorem PerChan.set_get {α : Type} (p : PerChan α) (c : Chan) : p.set c (p.get c) = p := by
  cases c <;> rfl

theorem PerChan.ext_get {α : Type} {p q : PerChan α} (h : ∀ c, p.get c = q.get c) : p = q := by
  have h1 := h .icsp; have h2 := h .a; have h3 := h .b
  cases p; cases q; simp_all [PerChan.get]

@[simp] theorem State.port_setPort_same (s : State) (c : Chan) (p : Port) : (s.setPort c p).port c = p := by
  simp [State.port]

theorem State.port_setPort_other (s : State) {c d : Chan} (p : Port) (h : d ≠ c) :
    (s.setPort c p).port d = s.port d := PerChan.get_set_other _ _ h

@[simp] theorem State.engine_setEngine_same (s : State) (c : Chan) (e : Engine) :
    (s.setEngine c e).engine c = e := by
  simp [State.engine]

theorem State.engine_setEngine_other (s : State) {c d : Chan} (e : Engine) (h : d ≠ c) :
    (s.setEngine c e).engine d = s.engine d := PerChan.get_set_other _ _ h

@[simp] theorem State.engine_setPort (s : State) (c d : Chan) (p : Port) :
    (s.setPort c p).engine d = s.engine d := rfl

@[simp] theorem State.port_setEngine (s : State) (c d : Chan) (e : Engine) :
    (s.setEngine c e).port d = s.port d := rfl

@[simp] theorem State.base_setPort (s : State) (c d : Chan) (p : Port) : (s.setPort c p).base d = s.base d := by
  cases d <;> rfl

@[simp] theorem State.limit_setPort (s : State) (c d : Chan) (p : Port) : (s.setPort c p).limit d = s.limit d := by
  cases d <;> rfl

/-- The region of a channel depends on the parameters alone. -/
theorem State.base_congr {s t : State} (h : t.params = s.params) (c : Chan) : t.base c = s.base c := by
  cases c <;> simp [State.base, h]

theorem State.limit_congr {s t : State} (h : t.params = s.params) (c : Chan) : t.limit c = s.limit c := by
  cases c <;> simp [State.limit, h]

/-! ## `popLevel` -/

/-- A poll uses up a level at most. -/
theorem State.popLevel_eq (s : State) : s.popLevel = { s with levels := s.popLevel.levels } := by
  unfold State.popLevel; split <;> rfl

/-! ## `restoreBuffer`, `failSession`, `fatal` and `transportError` -/

@[simp] theorem State.before_some {s : State} {t : Task} (h : s.task = some t) : s.before = t.before := by
  simp [State.before, h]
@[simp] theorem State.before_none {s : State} (h : s.task = none) : s.before = s.saved := by
  simp [State.before, h]

@[simp] theorem State.restoreBuffer_params (s : State) : s.restoreBuffer.params = s.params := rfl
@[simp] theorem State.restoreBuffer_buf (s : State) : s.restoreBuffer.buf = s.before.buf := rfl
@[simp] theorem State.restoreBuffer_mode (s : State) : s.restoreBuffer.mode = s.mode := rfl
@[simp] theorem State.restoreBuffer_ports (s : State) : s.restoreBuffer.ports = s.before.ports := rfl
@[simp] theorem State.restoreBuffer_engines (s : State) : s.restoreBuffer.engines = s.engines := rfl
@[simp] theorem State.restoreBuffer_sess (s : State) : s.restoreBuffer.sess = s.sess := rfl
@[simp] theorem State.restoreBuffer_sessC (s : State) : s.restoreBuffer.sessC = s.sessC := rfl
@[simp] theorem State.restoreBuffer_regs (s : State) : s.restoreBuffer.regs = s.regs := rfl
@[simp] theorem State.restoreBuffer_faulted (s : State) : s.restoreBuffer.faulted = s.faulted := rfl
@[simp] theorem State.restoreBuffer_task (s : State) : s.restoreBuffer.task = s.task := rfl
@[simp] theorem State.restoreBuffer_emitCh (s : State) : s.restoreBuffer.emitCh = s.emitCh := rfl
@[simp] theorem State.restoreBuffer_calls (s : State) : s.restoreBuffer.calls = s.calls := rfl
@[simp] theorem State.restoreBuffer_results (s : State) : s.restoreBuffer.results = s.results := rfl
@[simp] theorem State.restoreBuffer_turn (s : State) : s.restoreBuffer.turn = s.turn := rfl
@[simp] theorem State.restoreBuffer_turns (s : State) : s.restoreBuffer.turns = s.turns := rfl
@[simp] theorem State.restoreBuffer_levels (s : State) : s.restoreBuffer.levels = s.levels := rfl
@[simp] theorem State.restoreBuffer_answers (s : State) : s.restoreBuffer.answers = s.answers := rfl

@[simp] theorem State.failSession_params (s : State) (op : OpName) : (s.failSession op).params = s.params := by
  unfold State.failSession; split <;> rfl

/-- A fatal error brings back buffer and ports, and touches the sessions and the outcome besides (R352). -/
theorem State.fatal_eq (s : State) (op : OpName) (e : OpError) :
    s.fatal op e =
      { s with
        buf := s.before.buf, ports := s.before.ports
        sess := (s.failSession op).sess, sessC := (s.failSession op).sessC, regs := (s.failSession op).regs
        task := none, results := s.results ++ [.error e] } := by
  unfold State.fatal State.failSession State.endTask State.restoreBuffer State.before
  split <;> cases s.task <;> rfl

/-- A transport error touches the buffer, the ports, the sessions, the task and the outcome alone. -/
theorem State.transportError_eq (s : State) (c : TransportCall) :
    s.transportError c =
      { s with
        buf := (s.transportError c).buf, ports := (s.transportError c).ports
        sess := (s.transportError c).sess, sessC := (s.transportError c).sessC
        regs := (s.transportError c).regs, task := (s.transportError c).task
        results := (s.transportError c).results } := by
  unfold State.transportError
  split
  · rfl
  · split
    · rfl
    · rw [State.fatal_eq]

end Sys2Proof.Machine
end

