-- ==== Sys2Proof/Laws/Emit.lean ====
section
/-! SUPPORT. What an emission can do, said once: `emitBytes`, `emitInstr`, `emitAll`, `emitStream`. -/

namespace Sys2Proof.Machine

/-! ## The frame relations compose -/

theorem SameButPort.refl (ch : Chan) (s : State) : SameButPort ch s s := ⟨fun _ _ => rfl, rfl⟩

/-- Two states that agree but for the buffer and one port agree in every other field. -/
theorem SameButPort.fields {ch : Chan} {s t : State} (h : SameButPort ch s t) :
    ∃ buf ports, t = { s with buf := buf, ports := ports } ∧ ∀ d, d ≠ ch → ports.get d = s.ports.get d := by
  refine ⟨t.buf, t.ports, ?_, h.1⟩
  conv_rhs => rw [← h.2]

theorem SameButPort.of_fields {ch : Chan} {s : State} {buf : Memory} {ports : PerChan Port}
    (h : ∀ d, d ≠ ch → ports.get d = s.ports.get d) :
    SameButPort ch s { s with buf := buf, ports := ports } := ⟨h, rfl⟩

theorem SameButPort.trans {ch : Chan} {s t u : State} (h : SameButPort ch s t) (k : SameButPort ch t u) :
    SameButPort ch s u := by
  obtain ⟨b, p, rfl, hp⟩ := h.fields
  obtain ⟨c, q, rfl, hq⟩ := k.fields
  exact SameButPort.of_fields fun d hd => (hq d hd).trans (hp d hd)

theorem SameButPort.params {ch : Chan} {s t : State} (h : SameButPort ch s t) : t.params = s.params := by
  obtain ⟨_, _, rfl, _⟩ := h.fields; rfl

theorem SameButPort.mode {ch : Chan} {s t : State} (h : SameButPort ch s t) : t.mode = s.mode := by
  obtain ⟨_, _, rfl, _⟩ := h.fields; rfl

theorem SameButPort.engines {ch : Chan} {s t : State} (h : SameButPort ch s t) : t.engines = s.engines := by
  obtain ⟨_, _, rfl, _⟩ := h.fields; rfl

theorem SameButPort.of_setPort (s : State) (buf : Memory) (ch : Chan) (p : Port) :
    SameButPort ch s ({ s with buf := buf }.setPort ch p) :=
  ⟨fun _ hd => State.port_setPort_other _ _ hd, rfl⟩

/-! ## `emitBytes` -/

/-- An emission that fits is the write of its bytes at the cursor (R24). -/
theorem State.emitBytes_fits {s : State} {ch : Chan} {bytes : List Byte} {reads : Nat}
    (h : (s.port ch).cur + bytes.length ≤ s.limit ch) :
    ∃ t, s.emitBytes ch bytes reads = .ok t ∧ Emitted ch bytes reads s t := by
  refine ⟨_, if_pos h, ?_⟩
  refine ⟨by simp, fun k hk => ?_, fun i hi => ?_, SameButPort.of_setPort _ _ _ _⟩
  · exact Memory.read_writeBytes_inside _ _ _ _ hk
  · exact Memory.read_writeBytes_outside _ _ _ _ hi

/-- An emission past the limit is `fault BufferOverflow` (R24). -/
theorem State.emitBytes_overflow {s : State} {ch : Chan} {bytes : List Byte} {reads : Nat}
    (h : s.limit ch < (s.port ch).cur + bytes.length) :
    s.emitBytes ch bytes reads = .error .bufferOverflow := by
  have : ¬ (s.port ch).cur + bytes.length ≤ s.limit ch := by omega
  simp only [State.emitBytes, this, if_false]

/-- All an emission can do. -/
theorem State.emitBytes_cases (s : State) (ch : Chan) (bytes : List Byte) (reads : Nat) :
    (∃ t, s.emitBytes ch bytes reads = .ok t ∧ (s.port ch).cur + bytes.length ≤ s.limit ch
        ∧ t = { s with buf := Memory.writeBytes s.buf (s.port ch).cur bytes }.setPort ch
            { s.port ch with cur := (s.port ch).cur + bytes.length, nreq := (s.port ch).nreq + reads })
      ∨ s.emitBytes ch bytes reads = .error .bufferOverflow := by
  by_cases h : (s.port ch).cur + bytes.length ≤ s.limit ch
  · left; exact ⟨_, if_pos h, h, rfl⟩
  · right; exact State.emitBytes_overflow (by omega)

/-- An emission keeps the buffer's invariant (R22, R25). -/
theorem BufferOk.emitBytes {s t : State} {ch : Chan} {bytes : List Byte} {reads : Nat} (h : BufferOk s)
    (e : s.emitBytes ch bytes reads = .ok t) : BufferOk t := by
  rcases s.emitBytes_cases ch bytes reads with ⟨u, hu, hle, rfl⟩ | hu
  · rw [hu] at e
    obtain rfl := Except.ok.inj e
    obtain ⟨hw, hm, ha, hc, hv⟩ := h
    have hlim : s.limit ch ≤ s.params.cap := by
      cases ch <;> simp [State.limit, Config.Params.half]; omega
    refine ⟨hw, Memory.wf_writeBytes hm _ _, fun c hcm => ?_, fun d => ?_, fun d i h1 h2 => ?_⟩
    · rcases Memory.mem_writeBytes hcm with h' | h'
      · exact ha c h'
      · simp only [State.setPort_params]; omega
    · have hb : ∀ x, State.base ({ s with buf := Memory.writeBytes s.buf (s.port ch).cur bytes }.setPort ch x) d
          = s.base d := fun _ => State.base_congr rfl d
      have hl : ∀ x, State.limit ({ s with buf := Memory.writeBytes s.buf (s.port ch).cur bytes }.setPort ch x) d
          = s.limit d := fun _ => State.limit_congr rfl d
      rw [hb, hl]
      have := hc d
      by_cases hd : d = ch
      · subst hd; simp; omega
      · rw [State.port_setPort_other _ _ hd]; exact this
    · have hb : ∀ x, State.base ({ s with buf := Memory.writeBytes s.buf (s.port ch).cur bytes }.setPort ch x) d
          = s.base d := fun _ => State.base_congr rfl d
      rw [hb] at h1
      simp only [State.setPort_buf]
      by_cases hd : d = ch
      · subst hd
        simp only [State.port_setPort_same] at h2
        by_cases hi : i < (s.port d).cur
        · exact Memory.isSome_read_writeBytes (hv d i h1 hi)
        · have := Memory.read_writeBytes_inside s.buf (s.port d).cur (i - (s.port d).cur) bytes (by omega)
          rw [show (s.port d).cur + (i - (s.port d).cur) = i by omega] at this
          rw [this, List.getElem?_eq_getElem (by omega)]; rfl
      · rw [State.port_setPort_other _ _ hd] at h2
        exact Memory.isSome_read_writeBytes (hv d i h1 h2)
  · rw [hu] at e; exact absurd e (by simp)

/-! ## Faults -/

/-- A fault leaves the buffer, the ports and the parameters. -/
theorem BufferOk.fault {s : State} (h : BufferOk s) (f : Mark) : BufferOk (s.fault f) := h

/-- The fault operation is exactly what R348 says of a fault. -/
theorem State.faulted_fault (s : State) (f : Mark) : Faulted f s (s.fault f) := ⟨rfl, rfl, rfl, rfl⟩

/-! ## Streams -/

/-- All a stream of emissions can do: it writes the buffer and one port, and may end the operation with a fault;
it keeps the buffer's invariant. -/
theorem State.emitAll_cases (s : State) (ch : Chan) (is : List Instr) :
    ∃ mid, SameButPort ch s mid ∧ (BufferOk s → BufferOk mid)
      ∧ (s.emitAll ch is = mid ∨ ∃ f, s.emitAll ch is = mid.fault f) := by
  induction is generalizing s with
  | nil => exact ⟨s, SameButPort.refl _ _, id, .inl rfl⟩
  | cons i is ih =>
    simp only [State.emitAll]
    cases he : s.emitInstr ch i with
    | error f => exact ⟨s, SameButPort.refl _ _, id, .inr ⟨f, rfl⟩⟩
    | ok t =>
      have hb : s.emitBytes ch (encode i) (samplesOf i) = .ok t := by
        unfold State.emitInstr at he; split at he
        · exact absurd he (by simp)
        · exact he
      have hst : SameButPort ch s t := by
        rcases s.emitBytes_cases ch (encode i) (samplesOf i) with ⟨u, hu, -, rfl⟩ | hu
        · rw [hu] at hb; obtain rfl := Except.ok.inj hb; exact SameButPort.of_setPort _ _ _ _
        · rw [hu] at hb; exact absurd hb (by simp)
      obtain ⟨mid, h1, h2, h3⟩ := ih t
      exact ⟨mid, hst.trans h1, fun h => h2 (h.emitBytes hb), h3⟩

theorem State.emitStream_cases (s : State) (ch : Chan) (r : Except Mark (List Instr)) :
    ∃ mid, SameButPort ch s mid ∧ (BufferOk s → BufferOk mid)
      ∧ (s.emitStream ch r = mid ∨ ∃ f, s.emitStream ch r = mid.fault f) := by
  cases r with
  | error f => exact ⟨s, SameButPort.refl _ _, id, .inr ⟨f, rfl⟩⟩
  | ok is => exact s.emitAll_cases ch is

/-- Two emissions in a row are one of both their bytes (R138). -/
theorem Emitted.trans {ch : Chan} {b c : List Byte} {m n : Nat} {s t u : State}
    (h : Emitted ch b m s t) (k : Emitted ch c n t u) : Emitted ch (b ++ c) (m + n) s u := by
  obtain ⟨hp, hi, ho, hf⟩ := h
  obtain ⟨kp, ki, ko, kf⟩ := k
  simp only [hp] at kp ki ko
  refine ⟨by rw [kp]; simp [Nat.add_assoc], fun x hx => ?_, fun i h => ?_, hf.trans kf⟩
  · simp only [List.length_append] at hx
    by_cases hb : x < b.length
    · rw [ko _ (.inl (by omega)), hi x hb, List.getElem?_append_left hb]
    · have := ki (x - b.length) (by omega)
      rw [show (s.port ch).cur + b.length + (x - b.length) = (s.port ch).cur + x by omega] at this
      rw [this, List.getElem?_append_right (by omega)]
  · simp only [List.length_append] at h
    rw [ko _ (by omega), ho _ (by omega)]

theorem Emitted.nil (ch : Chan) (s : State) : Emitted ch [] 0 s s :=
  ⟨rfl, fun _ h => by simp at h, fun _ _ => rfl, SameButPort.refl _ _⟩

/-- Instructions whose operands pass their check in any mode and on any channel. -/
def passes : Instr → Bool
  | .waits u => u < 8
  | .waitl n => n < 2 ^ 16
  | .setdiv n => n < 2 ^ 16
  | .waithi => false
  | _ => true

theorem State.emitCheck_passes (s : State) (ch : Chan) {i : Instr} (h : passes i = true) :
    s.emitCheck ch i = none := by
  cases i <;> simp_all [passes, State.emitCheck] <;> omega

/-- A stream whose checks pass and whose bytes fit is emitted whole (R24, R138). -/
theorem State.emitAll_fits (s : State) (ch : Chan) (is : List Instr) (hp : ∀ i ∈ is, passes i = true)
    (hr : (s.port ch).cur + (is.flatMap encode).length ≤ s.limit ch) :
    Emitted ch (is.flatMap encode) (is.map samplesOf).sum s (s.emitAll ch is) := by
  induction is generalizing s with
  | nil => exact Emitted.nil _ _
  | cons i is ih =>
    simp only [List.flatMap_cons, List.length_append] at hr
    obtain ⟨t, ht, hE⟩ := State.emitBytes_fits (s := s) (ch := ch) (bytes := encode i)
      (reads := samplesOf i) (by omega)
    have hc : s.emitInstr ch i = .ok t := by
      simp only [State.emitInstr, s.emitCheck_passes ch (hp i (.head _)), ht]
    have hl : t.limit ch = s.limit ch := State.limit_congr hE.2.2.2.params ch
    have := ih t (fun j hj => hp j (.tail _ hj)) (by rw [hl, hE.1]; simp only; omega)
    simp only [State.emitAll, hc, List.flatMap_cons, List.map_cons, List.sum_cons]
    exact hE.trans this

end Sys2Proof.Machine
end

