-- ==== Sys2Proof/Laws/Exec.lean ====
section
/-! SUPPORT. What executing an instruction can do, said once: on an engine's turn, one engine and the levels left; on
the block's turn, one port and the buffer, and perhaps a fault. -/

namespace Sys2Proof.Machine

/-- What a layer-1 instruction executed by engine `c` makes of that engine: its queue stays, its responses grow at
the end, its pin registers change by a pin write alone, its status by `WAITHI` alone and on engine B alone. -/
structure Executed (c : Chan) (i : Instr) (e f : Engine) : Prop where
  q : f.q = e.q
  rsp : ∃ more, f.rsp = e.rsp ++ more
  lo : (f.valLo = e.valLo ∧ f.dirLo = e.dirLo) ∨ i = .setlo f.valLo f.dirLo
  hi : (f.valHi = e.valHi ∧ f.dirHi = e.dirHi) ∨ i = .sethi f.valHi f.dirHi
  st : f.st = e.st ∨ (i = .waithi ∧ c = .b)

/-- A layer-1 instruction on an engine's turn writes that engine and the levels left to come, nothing else. -/
theorem exec_engine_cases {i : Instr} {s t : State} {c : Chan} (ht : s.turn = .engine c)
    (hi : i.layerOne = true) (h : exec i s = .next t) :
    ∃ e lv, t = { s with engines := s.engines.set c e, levels := lv } ∧ Executed c i (s.engine c) e := by
  cases i with
  | setlo v d =>
    simp only [exec, execSetlo, State.bySide, ht, State.drivePins, Host.Outcome.next.injEq] at h
    subst h
    exact ⟨_, s.levels, rfl, ⟨rfl, ⟨[], by simp⟩, .inr rfl, .inl ⟨rfl, rfl⟩, .inl rfl⟩⟩
  | sethi v d =>
    simp only [exec, execSethi, State.bySide, ht, State.drivePins, Host.Outcome.next.injEq] at h
    subst h
    exact ⟨_, s.levels, rfl, ⟨rfl, ⟨[], by simp⟩, .inl ⟨rfl, rfl⟩, .inr rfl, .inl rfl⟩⟩
  | readlo =>
    simp only [exec, execReadlo, State.bySide, ht, State.samplePins, Host.Outcome.next.injEq] at h
    subst h
    exact ⟨_, s.levels, rfl, ⟨rfl, ⟨_, rfl⟩, .inl ⟨rfl, rfl⟩, .inl ⟨rfl, rfl⟩, .inl rfl⟩⟩
  | readhi =>
    simp only [exec, execReadhi, State.bySide, ht, State.samplePins, Host.Outcome.next.injEq] at h
    subst h
    exact ⟨_, s.levels, rfl, ⟨rfl, ⟨_, rfl⟩, .inl ⟨rfl, rfl⟩, .inl ⟨rfl, rfl⟩, .inl rfl⟩⟩
  | loopon =>
    simp only [exec, execLoopon, State.bySide, ht, State.setLoop, Host.Outcome.next.injEq] at h
    subst h
    exact ⟨_, s.levels, rfl, ⟨rfl, ⟨[], by simp⟩, .inl ⟨rfl, rfl⟩, .inl ⟨rfl, rfl⟩, .inl rfl⟩⟩
  | loopoff =>
    simp only [exec, execLoopoff, State.bySide, ht, State.setLoop, Host.Outcome.next.injEq] at h
    subst h
    exact ⟨_, s.levels, rfl, ⟨rfl, ⟨[], by simp⟩, .inl ⟨rfl, rfl⟩, .inl ⟨rfl, rfl⟩, .inl rfl⟩⟩
  | setdiv n =>
    simp only [exec, execSetdiv, State.bySide, ht, State.setDivisor] at h
    split at h
    · simp only [Host.Outcome.next.injEq] at h
      subst h
      exact ⟨_, s.levels, rfl, ⟨rfl, ⟨[], by simp⟩, .inl ⟨rfl, rfl⟩, .inl ⟨rfl, rfl⟩, .inl rfl⟩⟩
    · cases h
  | waithi =>
    simp only [exec, execWaithi, State.bySide, ht] at h
    cases c with
    | icsp => cases h
    | a => cases h
    | b =>
      simp only [Host.Outcome.next.injEq] at h
      subst h
      unfold State.waitHigh
      split
      · exact ⟨_, s.levels, rfl, ⟨rfl, ⟨[], by simp⟩, .inl ⟨rfl, rfl⟩, .inl ⟨rfl, rfl⟩, .inr ⟨rfl, rfl⟩⟩⟩
      · rw [State.popLevel_eq]
        exact ⟨_, _, rfl, ⟨rfl, ⟨[], by simp [State.engine]⟩, .inl ⟨rfl, rfl⟩, .inl ⟨rfl, rfl⟩,
          .inr ⟨rfl, rfl⟩⟩⟩
  | waits u =>
    simp only [exec, execWaits, State.bySide, ht, State.delayFor] at h
    split at h
    · simp only [Host.Outcome.next.injEq] at h
      subst h
      exact ⟨_, s.levels, rfl, ⟨rfl, ⟨[], by simp⟩, .inl ⟨rfl, rfl⟩, .inl ⟨rfl, rfl⟩, .inl rfl⟩⟩
    · cases h
  | waitl n =>
    simp only [exec, execWaitl, State.bySide, ht, State.delayFor] at h
    split at h
    · simp only [Host.Outcome.next.injEq] at h
      subst h
      exact ⟨_, s.levels, rfl, ⟨rfl, ⟨[], by simp⟩, .inl ⟨rfl, rfl⟩, .inl ⟨rfl, rfl⟩, .inl rfl⟩⟩
    · cases h
  | probe =>
    simp only [exec, execProbe, State.bySide, ht, State.respond, Host.Outcome.next.injEq] at h
    subst h
    exact ⟨_, s.levels, rfl, ⟨rfl, ⟨_, rfl⟩, .inl ⟨rfl, rfl⟩, .inl ⟨rfl, rfl⟩, .inl rfl⟩⟩
  | loadaddr a => cases hi
  | readword => cases hi
  | progword w => cases hi
  | progbyte b => cases hi
  | incaddr => cases hi
  | erase m => cases hi
  | key0 => cases hi
  | key1 => cases hi
  | key2 => cases hi
  | key3 => cases hi

/-- The channel an instruction is emitted on: the one given for layer 1, the single channel for layer 2
(log entry 12). -/
def emitChan (i : Instr) (s : State) : Chan := if i.layerOne then s.emitCh else .icsp

/-- Any instruction on the block's turn answers a next state: it writes the buffer and one port, and may end the
operation with a fault; it keeps the buffer's invariant. -/
theorem exec_block_cases (i : Instr) {s : State} (ht : s.turn = .block) :
    ∃ mid, SameButPort (emitChan i s) s mid ∧ (BufferOk s → BufferOk mid)
      ∧ (exec i s = .next mid ∨ ∃ f, exec i s = .next (mid.fault f)) := by
  cases i
  case setlo v d =>
    obtain ⟨mid, h1, h2, h3 | ⟨f, h3⟩⟩ := s.emitAll_cases s.emitCh [.setlo v d] <;>
      exact ⟨mid, h1, h2, by simp [exec, execSetlo, State.bySide, ht, h3]⟩
  case readlo =>
    obtain ⟨mid, h1, h2, h3 | ⟨f, h3⟩⟩ := s.emitAll_cases s.emitCh [.readlo] <;>
      exact ⟨mid, h1, h2, by simp [exec, execReadlo, State.bySide, ht, h3]⟩
  case sethi v d =>
    obtain ⟨mid, h1, h2, h3 | ⟨f, h3⟩⟩ := s.emitAll_cases s.emitCh [.sethi v d] <;>
      exact ⟨mid, h1, h2, by simp [exec, execSethi, State.bySide, ht, h3]⟩
  case readhi =>
    obtain ⟨mid, h1, h2, h3 | ⟨f, h3⟩⟩ := s.emitAll_cases s.emitCh [.readhi] <;>
      exact ⟨mid, h1, h2, by simp [exec, execReadhi, State.bySide, ht, h3]⟩
  case loopon =>
    obtain ⟨mid, h1, h2, h3 | ⟨f, h3⟩⟩ := s.emitAll_cases s.emitCh [.loopon] <;>
      exact ⟨mid, h1, h2, by simp [exec, execLoopon, State.bySide, ht, h3]⟩
  case loopoff =>
    obtain ⟨mid, h1, h2, h3 | ⟨f, h3⟩⟩ := s.emitAll_cases s.emitCh [.loopoff] <;>
      exact ⟨mid, h1, h2, by simp [exec, execLoopoff, State.bySide, ht, h3]⟩
  case setdiv n =>
    obtain ⟨mid, h1, h2, h3 | ⟨f, h3⟩⟩ := s.emitAll_cases s.emitCh [.setdiv n] <;>
      exact ⟨mid, h1, h2, by simp [exec, execSetdiv, State.bySide, ht, h3]⟩
  case waithi =>
    obtain ⟨mid, h1, h2, h3 | ⟨f, h3⟩⟩ := s.emitAll_cases s.emitCh [.waithi] <;>
      exact ⟨mid, h1, h2, by simp [exec, execWaithi, State.bySide, ht, h3]⟩
  case waits u =>
    obtain ⟨mid, h1, h2, h3 | ⟨f, h3⟩⟩ := s.emitAll_cases s.emitCh [.waits u] <;>
      exact ⟨mid, h1, h2, by simp [exec, execWaits, State.bySide, ht, h3]⟩
  case waitl n =>
    obtain ⟨mid, h1, h2, h3 | ⟨f, h3⟩⟩ := s.emitAll_cases s.emitCh [.waitl n] <;>
      exact ⟨mid, h1, h2, by simp [exec, execWaitl, State.bySide, ht, h3]⟩
  case probe =>
    obtain ⟨mid, h1, h2, h3 | ⟨f, h3⟩⟩ := s.emitAll_cases s.emitCh [.probe] <;>
      exact ⟨mid, h1, h2, by simp [exec, execProbe, State.bySide, ht, h3]⟩
  case loadaddr a =>
    obtain ⟨mid, h1, h2, h3 | ⟨f, h3⟩⟩ := s.emitStream_cases .icsp (loadAddressStream s.params a) <;>
      exact ⟨mid, h1, h2, by simp [exec, execLoadaddr, h3]⟩
  case readword =>
    obtain ⟨mid, h1, h2, h3 | ⟨f, h3⟩⟩ := s.emitAll_cases .icsp (readWordStream s.params) <;>
      exact ⟨mid, h1, h2, by simp [exec, execReadword, h3]⟩
  case progword w =>
    obtain ⟨mid, h1, h2, h3 | ⟨f, h3⟩⟩ := s.emitStream_cases .icsp (progWordStream s.params w) <;>
      exact ⟨mid, h1, h2, by simp [exec, execProgword, h3]⟩
  case progbyte b =>
    obtain ⟨mid, h1, h2, h3 | ⟨f, h3⟩⟩ := s.emitStream_cases .icsp (progByteStream s.params b) <;>
      exact ⟨mid, h1, h2, by simp [exec, execProgbyte, h3]⟩
  case incaddr =>
    obtain ⟨mid, h1, h2, h3 | ⟨f, h3⟩⟩ := s.emitAll_cases .icsp (icspByte s.params s.params.opIncAddr) <;>
      exact ⟨mid, h1, h2, by simp [exec, execIncaddr, h3]⟩
  case erase m =>
    obtain ⟨mid, h1, h2, h3 | ⟨f, h3⟩⟩ := s.emitStream_cases .icsp (eraseStream s.params m) <;>
      exact ⟨mid, h1, h2, by simp [exec, execErase, h3]⟩
  case key0 =>
    obtain ⟨mid, h1, h2, h3 | ⟨f, h3⟩⟩ := s.emitAll_cases .icsp (icspByte s.params s.params.key0) <;>
      exact ⟨mid, h1, h2, by simp [exec, execKey0, h3]⟩
  case key1 =>
    obtain ⟨mid, h1, h2, h3 | ⟨f, h3⟩⟩ := s.emitAll_cases .icsp (icspByte s.params s.params.key1) <;>
      exact ⟨mid, h1, h2, by simp [exec, execKey1, h3]⟩
  case key2 =>
    obtain ⟨mid, h1, h2, h3 | ⟨f, h3⟩⟩ := s.emitAll_cases .icsp (icspByte s.params s.params.key2) <;>
      exact ⟨mid, h1, h2, by simp [exec, execKey2, h3]⟩
  case key3 =>
    obtain ⟨mid, h1, h2, h3 | ⟨f, h3⟩⟩ := s.emitAll_cases .icsp (icspByte s.params s.params.key3) <;>
      exact ⟨mid, h1, h2, by simp [exec, execKey3, h3]⟩

end Sys2Proof.Machine
end

