-- ==== Sys2Proof/Laws/Transport.lean ====
section
/-! SUPPORT. What a step of the block leaves of the machine, said once: `BlockFrame`, and for each shared operation of
the transport and of the end of an operation the lemma that it is one. -/

namespace Sys2Proof.Machine

/-- The buffer's part of the invariant depends on the parameters, the buffer and the ports alone. -/
theorem BufferOk.congr {s t : State} (h : BufferOk s) (hp : t.params = s.params) (hb : t.buf = s.buf)
    (hq : t.ports = s.ports) : BufferOk t := by
  have hbase : ∀ c, t.base c = s.base c := State.base_congr hp
  have hlim : ∀ c, t.limit c = s.limit c := State.limit_congr hp
  obtain ⟨h1, h2, h3, h4, h5⟩ := h
  refine ⟨by rw [hp]; exact h1, by rw [hb]; exact h2, by rw [hb, hp]; exact h3, fun c => ?_, fun c i => ?_⟩
  · rw [hbase, hlim, State.port, hq]; exact h4 c
  · rw [hbase, State.port, hq, hb]; exact h5 c i

/-- The operation in progress in `t`, if any, found before it what the one in `s` did, or what `s` holds. -/
def SameBefore (s t : State) : Prop :=
  ∀ b, t.task = some b → b.before = s.before ∨ b.before = s.saved

theorem SameBefore.of_none {s t : State} (h : t.task = none) : SameBefore s t :=
  fun b hb => by rw [h] at hb; cases hb

theorem SameBefore.of_eq {s t : State} (h : t.task = s.task) : SameBefore s t :=
  fun b hb => .inl (by rw [h] at hb; simp [State.before, hb])

/-- What the invariant of the buffer needs of a step: the buffer it leaves, and what an error would bring back. -/
theorem BufferInv.step {s t : State} (h : BufferInv s) (ht : BufferOk t) (hp : t.params = s.params)
    (hk : SameBefore s t) : BufferInv t := by
  refine ⟨ht, ?_⟩
  cases hb : t.task with
  | none => refine ht.congr rfl ?_ ?_ <;> simp [hb, State.saved]
  | some b =>
    rcases hk b hb with e | e
    · refine h.2.congr hp ?_ ?_ <;> simp [hb, e]
    · refine h.1.congr hp ?_ ?_ <;> simp [hb, e, State.saved]

/-- The invariant of the buffer depends on the parameters, the buffer, the ports and what an error would bring back. -/
theorem BufferInv.congr {s t : State} (h : BufferInv s) (hp : t.params = s.params) (hb : t.buf = s.buf)
    (hq : t.ports = s.ports) (hk : SameBefore s t) : BufferInv t :=
  h.step (h.1.congr hp hb hq) hp hk

/-- A port whose cursor goes back to the base keeps the invariant (R23). -/
theorem BufferOk.setPort_base {s : State} (h : BufferOk s) (c : Chan) {p : Port} (hp : p.cur = s.base c) :
    BufferOk (s.setPort c p) := by
  obtain ⟨h1, h2, h3, h4, h5⟩ := h
  refine ⟨h1, h2, h3, fun d => ?_, fun d i hi hj => ?_⟩
  · simp only [State.base_setPort, State.limit_setPort]
    by_cases hd : d = c
    · subst hd; simp only [State.port_setPort_same, hp]; have := h4 d; omega
    · rw [State.port_setPort_other _ _ hd]; exact h4 d
  · simp only [State.base_setPort] at hi
    by_cases hd : d = c
    · subst hd; simp only [State.port_setPort_same, hp] at hj; omega
    · rw [State.port_setPort_other _ _ hd] at hj; exact h5 d i hi hj

/-- A port whose cursor stays keeps the invariant. -/
theorem BufferOk.setPort_cur {s : State} (h : BufferOk s) (c : Chan) {p : Port}
    (hp : p.cur = (s.port c).cur) : BufferOk (s.setPort c p) := by
  obtain ⟨h1, h2, h3, h4, h5⟩ := h
  refine ⟨h1, h2, h3, fun d => ?_, fun d i hi hj => ?_⟩
  · simp only [State.base_setPort, State.limit_setPort]
    by_cases hd : d = c
    · subst hd; simp only [State.port_setPort_same, hp]; exact h4 d
    · rw [State.port_setPort_other _ _ hd]; exact h4 d
  · simp only [State.base_setPort] at hi
    by_cases hd : d = c
    · subst hd; simp only [State.port_setPort_same, hp] at hj; exact h5 d i hi hj
    · rw [State.port_setPort_other _ _ hd] at hj; exact h5 d i hi hj

/-- What any step of the block leaves: the parameters and the turn; of each engine everything but its queue, which
grows at the end, and its responses, which shrink at the front; the fault mark, once set; the buffer's invariant;
and at most one more result, a recorded fault only with the mark set. -/
structure BlockFrame (s t : State) : Prop where
  params : t.params = s.params
  turn : t.turn = s.turn
  engines : ∀ c, ∃ more n,
    t.engine c = { s.engine c with q := (s.engine c).q ++ more, rsp := (s.engine c).rsp.drop n }
  buffer : BufferInv s → BufferInv t
  faulted : s.faulted = true → t.faulted = true
  results : t.results = s.results ∨
    ∃ r, t.results = s.results ++ [r] ∧ ∀ f, r = .marked f → t.faulted = true

/-- Engines as they were. -/
theorem engines_same {s t : State} (h : t.engines = s.engines) (c : Chan) :
    ∃ more n, t.engine c = { s.engine c with q := (s.engine c).q ++ more, rsp := (s.engine c).rsp.drop n } :=
  ⟨[], 0, by simp [State.engine, h]⟩

/-- A step that leaves buffer, ports and engines and records no fault. -/
theorem BlockFrame.of_same {s t : State} (hp : t.params = s.params) (ht : t.turn = s.turn)
    (he : t.engines = s.engines) (hb : t.buf = s.buf) (hq : t.ports = s.ports) (hk : SameBefore s t)
    (hf : t.faulted = s.faulted)
    (hr : t.results = s.results ∨ ∃ r, t.results = s.results ++ [r] ∧ ∀ f, r ≠ .marked f) : BlockFrame s t where
  params := hp
  turn := ht
  engines := engines_same he
  buffer h := h.congr hp hb hq hk
  faulted h := hf.trans h
  results := by
    rcases hr with h | ⟨r, h, hm⟩
    · exact .inl h
    · exact .inr ⟨r, h, fun f hf => absurd hf (hm f)⟩

theorem BlockFrame.refl (s : State) : BlockFrame s s := .of_same rfl rfl rfl rfl rfl (.of_eq rfl) rfl (.inl rfl)

/-- Steps compose while the first of them records no result. -/
theorem BlockFrame.trans {s t u : State} (h : BlockFrame s t) (hr : t.results = s.results)
    (k : BlockFrame t u) : BlockFrame s u where
  params := k.params.trans h.params
  turn := k.turn.trans h.turn
  engines c := by
    obtain ⟨m, n, e⟩ := h.engines c
    obtain ⟨m', n', e'⟩ := k.engines c
    exact ⟨m ++ m', n + n', by rw [e', e]; simp [List.append_assoc]⟩
  buffer hb := k.buffer (h.buffer hb)
  faulted hf := k.faulted (h.faulted hf)
  results := by rw [← hr]; exact k.results

theorem BlockFrame.endTask (s : State) (r : Result) (h : ∀ f, r ≠ .marked f) : BlockFrame s (s.endTask r) :=
  .of_same rfl rfl rfl rfl rfl (.of_none rfl) rfl (.inr ⟨r, rfl, h⟩)

theorem BlockFrame.fault (s : State) (f : Mark) : BlockFrame s (s.fault f) where
  params := rfl
  turn := rfl
  engines := engines_same rfl
  buffer h := h.congr rfl rfl rfl (.of_none rfl)
  faulted _ := rfl
  results := .inr ⟨.marked f, rfl, fun _ _ => rfl⟩

theorem BlockFrame.popAnswer (s : State) : BlockFrame s s.popAnswer :=
  .of_same rfl rfl rfl rfl rfl (.of_eq rfl) rfl (.inl rfl)

/-- An operation in progress goes on with what it found before it. -/
theorem SameBefore.of_task {s t : State} {f : Task → Task} (h : t.task = s.task.map f)
    (hf : ∀ a, (f a).before = a.before) : SameBefore s t := by
  intro b hb
  rw [h] at hb
  cases hs : s.task with
  | none => rw [hs] at hb; cases hb
  | some a =>
    rw [hs] at hb; cases hb
    exact .inl (by simp [State.before, hs, hf])

theorem BlockFrame.again (s : State) (m : BlockStep) : BlockFrame s (s.again m) :=
  .of_same rfl rfl rfl rfl rfl (.of_task rfl fun _ => rfl) rfl (.inl rfl)

theorem BlockFrame.fatal (s : State) (op : OpName) (e : OpError) : BlockFrame s (s.fatal op e) := by
  rw [State.fatal_eq]
  exact ⟨rfl, rfl, engines_same rfl, fun h => h.step (h.2.congr rfl rfl rfl) rfl (.of_none rfl), id,
    .inr ⟨_, rfl, fun _ h => by cases h⟩⟩

theorem BlockFrame.transportError (s : State) (c : TransportCall) : BlockFrame s (s.transportError c) := by
  unfold State.transportError
  split
  · exact .refl s
  · split
    · rename_i a ha _
      refine .of_same rfl rfl rfl rfl rfl (fun b hb => ?_) rfl (.inl rfl)
      cases hb; exact .inl (by simp [State.before, ha])
    · exact .fatal _ _ _

theorem BlockFrame.enqueue (s : State) (ch : Chan) (bs : List Byte) : BlockFrame s (s.enqueue ch bs) where
  params := rfl
  turn := rfl
  engines c := by
    by_cases h : c = ch
    · subst h; exact ⟨bs, 0, by simp [State.enqueue]⟩
    · exact ⟨[], 0, by simp only [State.enqueue]; rw [State.engine_setEngine_other _ _ h]; simp⟩
  buffer h := h.congr rfl rfl rfl (.of_eq rfl)
  faulted h := h
  results := .inl rfl

theorem BlockFrame.setPort_base (s : State) (c : Chan) {p : Port} (hp : p.cur = s.base c) :
    BlockFrame s (s.setPort c p) where
  params := rfl
  turn := rfl
  engines := engines_same rfl
  buffer h := h.step (h.1.setPort_base c hp) rfl (.of_eq rfl)
  faulted h := h
  results := .inl rfl

theorem BlockFrame.setPort_cur (s : State) (c : Chan) {p : Port} (hp : p.cur = (s.port c).cur) :
    BlockFrame s (s.setPort c p) where
  params := rfl
  turn := rfl
  engines := engines_same rfl
  buffer h := h.step (h.1.setPort_cur c hp) rfl (.of_eq rfl)
  faulted h := h
  results := .inl rfl

theorem BlockFrame.dropResponses (s : State) (c : Chan) (n : Nat) :
    BlockFrame s (s.setEngine c { s.engine c with rsp := (s.engine c).rsp.drop n }) where
  params := rfl
  turn := rfl
  engines d := by
    by_cases h : d = c
    · subst h; exact ⟨[], n, by simp⟩
    · exact ⟨[], 0, by rw [State.engine_setEngine_other _ _ h]; simp⟩
  buffer h := h.congr rfl rfl rfl (.of_eq rfl)
  faulted h := h
  results := .inl rfl

theorem BlockFrame.afterFlush (s : State) (ch : Chan) : BlockFrame s (s.afterFlush ch) := .setPort_base s ch rfl

theorem BlockFrame.beginBuffer (s : State) : BlockFrame s s.beginBuffer := by
  unfold State.beginBuffer
  split
  · exact .setPort_base s _ rfl
  · refine BlockFrame.trans ?_ ?_ (.setPort_base _ .b ?_)
    · exact .setPort_base s .a rfl
    · rfl
    · rfl

/-! ## Flushes -/

@[simp] theorem State.enqueue_nil (s : State) (ch : Chan) : s.enqueue ch [] = s := by
  cases s with
  | mk params buf mode ports engines => cases engines; cases ch <;> simp [State.enqueue, State.setEngine, State.engine, PerChan.get, PerChan.set]

/-- A transport write that succeeds appends the composed bytes; one that fails appends a front part of them, and
nothing else of the machine but the answers left changes. -/
theorem State.writeOut_cases {s t : State} {ch : Chan} {ok : Bool} (h : s.writeOut ch = .ok (ok, t)) :
    ∃ bytes, s.composed ch = .ok bytes
      ∧ ((ok = true ∧ t = s.popAnswer.enqueue ch bytes)
        ∨ (ok = false ∧ ∃ k, t = s.popAnswer.enqueue ch (bytes.take k))) := by
  unfold State.writeOut at h
  split at h
  · cases h
  · rename_i bytes hb
    refine ⟨bytes, hb, ?_⟩
    split at h
    · simp only [Except.ok.injEq, Prod.mk.injEq] at h
      refine .inr ⟨h.1.symm, 0, ?_⟩
      rw [← h.2, List.take_zero, State.enqueue_nil]
    · split at h <;> simp only [Except.ok.injEq, Prod.mk.injEq] at h
      · exact .inl ⟨h.1.symm, h.2.symm⟩
      · exact .inr ⟨h.1.symm, _, h.2.symm⟩

theorem BlockFrame.writeOut {s t : State} {ch : Chan} {ok : Bool} (h : s.writeOut ch = .ok (ok, t)) :
    BlockFrame s t ∧ t.results = s.results := by
  obtain ⟨bytes, -, ⟨-, rfl⟩ | ⟨-, k, rfl⟩⟩ := State.writeOut_cases h
  · exact ⟨(BlockFrame.popAnswer s).trans rfl (.enqueue _ _ _), rfl⟩
  · exact ⟨(BlockFrame.popAnswer s).trans rfl (.enqueue _ _ _), rfl⟩

theorem BlockFrame.writeHalf {s t : State} {ch : Chan} {ok : Bool} (h : s.writeHalf ch = .ok (ok, t)) :
    BlockFrame s t ∧ t.results = s.results := by
  unfold State.writeHalf at h
  split at h
  · simp only [Except.ok.injEq, Prod.mk.injEq] at h
    rw [← h.2]; exact ⟨.refl s, rfl⟩
  · exact BlockFrame.writeOut h

theorem BlockFrame.flushIcsp {s t : State} (h : s.flushIcsp = .next t) : BlockFrame s t := by
  unfold State.flushIcsp at h
  split at h
  · cases h
  · rename_i u hu
    cases h
    obtain ⟨h1, h2⟩ := BlockFrame.writeOut hu
    exact h1.trans h2 (.afterFlush _ _)
  · rename_i u hu
    cases h
    obtain ⟨h1, h2⟩ := BlockFrame.writeOut hu
    exact h1.trans h2 (.transportError _ _)

theorem BlockFrame.flushBoth {s t : State} (h : s.flushBoth = .next t) : BlockFrame s t := by
  unfold State.flushBoth at h
  split at h
  · cases h
  · rename_i u hu
    cases h
    obtain ⟨h1, h2⟩ := BlockFrame.writeHalf hu
    exact h1.trans h2 (.transportError _ _)
  · rename_i u hu
    obtain ⟨h1, h2⟩ := BlockFrame.writeHalf hu
    split at h
    · cases h
    · rename_i v hv
      cases h
      obtain ⟨h3, h4⟩ := BlockFrame.writeHalf hv
      exact h1.trans h2 (h3.trans h4 (.transportError _ _))
    · rename_i v hv
      cases h
      obtain ⟨h3, h4⟩ := BlockFrame.writeHalf hv
      exact h1.trans h2 (h3.trans h4 ((BlockFrame.afterFlush _ _).trans rfl (.afterFlush _ _)))

/-! ## Reads -/

theorem BlockFrame.takeResponses (s : State) (ch : Chan) (n : Nat) : BlockFrame s (s.takeResponses ch n) :=
  (BlockFrame.dropResponses s ch n).trans rfl (.setPort_cur _ ch rfl)

theorem BlockFrame.readBack (s : State) (ch : Chan) : BlockFrame s (s.readBack ch) := by
  unfold State.readBack
  split
  · exact .takeResponses _ _ _
  · split
    · exact (BlockFrame.popAnswer s).trans rfl (.transportError _ _)
    · split
      · exact (BlockFrame.popAnswer s).trans rfl (.takeResponses _ _ _)
      · exact (BlockFrame.popAnswer s).trans rfl (.again _ _)

theorem BlockFrame.readEmpty (s : State) (o : SelfTest) : BlockFrame s (s.readEmpty o) := by
  unfold State.readEmpty
  split
  · exact (BlockFrame.popAnswer s).trans rfl (.transportError _ _)
  · simp only []
    split
    · exact .popAnswer s
    · exact (BlockFrame.popAnswer s).trans rfl ((BlockFrame.dropResponses _ _ _).trans rfl (.fatal _ _ _))

theorem BlockFrame.readEcho (s : State) : BlockFrame s s.readEcho := by
  unfold State.readEcho
  split
  · exact (BlockFrame.popAnswer s).trans rfl (.transportError _ _)
  · rename_i k _
    have h : ∀ n p, p.cur = (s.port .icsp).cur →
        BlockFrame s ((s.popAnswer.setEngine .icsp
          { s.engine .icsp with rsp := (s.engine .icsp).rsp.drop n }).setPort .icsp p) := by
      intro n p hp
      refine BlockFrame.trans ?_ ?_ (.setPort_cur _ .icsp hp)
      · exact (BlockFrame.popAnswer s).trans rfl (.dropResponses s.popAnswer .icsp n)
      · rfl
    simp only []
    split
    · refine BlockFrame.trans (h _ _ ?_) ?_ (.again _ _) <;> rfl
    · split
      · exact h _ _ rfl
      · refine BlockFrame.trans (h _ _ ?_) ?_ (.fatal _ _ _) <;> rfl

theorem BlockFrame.plainCall (s : State) (c : TransportCall) : BlockFrame s (s.plainCall c) := by
  unfold State.plainCall
  split
  · exact (BlockFrame.popAnswer s).trans rfl (.transportError _ _)
  · exact .popAnswer s

/-! ## Emission -/

/-- An emission with or without a fault at its end is a step of the block. -/
theorem BlockFrame.emission {s mid t : State} {ch : Chan} (h : SameButPort ch s mid)
    (hb : BufferOk s → BufferOk mid) (ht : t = mid ∨ ∃ f, t = mid.fault f) : BlockFrame s t := by
  have hm : BlockFrame s mid := by
    obtain ⟨b, p, rfl, -⟩ := h.fields
    exact ⟨rfl, rfl, engines_same rfl, fun k => k.step (hb k.1) rfl (.of_eq rfl), id, .inl rfl⟩
  rcases ht with rfl | ⟨f, rfl⟩
  · exact hm
  · refine hm.trans ?_ (.fault _ _)
    obtain ⟨b, p, rfl, -⟩ := h.fields
    rfl

/-! ## What an error leaves -/

/-- A fatal error ends the operation as `Ended` says, from any state that differs from the operation's by engines, ports
and answers alone (R341, R352). -/
theorem State.fatal_ended {s u : State} {task : Task} (e : OpError) (ht : u.task = some task)
    (h : { u with engines := s.engines, ports := s.ports, answers := s.answers } = s) :
    Ended e task s (u.fatal task.op e) := by
  rw [← h]
  simp only [Ended, State.fatal_eq, State.failSession, State.before_some ht]
  split <;> rfl

/-- In an operation other than Close a transport error is fatal (R342). -/
theorem State.transportError_fatal {s : State} {task : Task} (c : TransportCall) (ht : s.task = some task)
    (h : task.op ≠ .close) : s.transportError c = s.fatal task.op (.transport task.op c) := by
  simp [State.transportError, ht, h]

/-- In Close a transport error is kept, the first of them (R249, log entry 20). -/
theorem State.transportError_close {s : State} {task : Task} (c : TransportCall) (ht : s.task = some task)
    (h : task.op = .close) :
    s.transportError c =
      { s with task := some { task with firstError := some (task.firstError.getD (.transport .close c)) } } := by
  simp [State.transportError, ht, h]

/-- What a flush sends depends on the parameters, the buffer and the ports alone. -/
theorem State.composed_congr {s t : State} (hp : t.params = s.params) (hb : t.buf = s.buf)
    (hq : t.ports = s.ports) (ch : Chan) : t.composed ch = s.composed ch := by
  have h : ∀ l, t.readOffsets ch l = s.readOffsets ch l := by
    intro l
    induction l with
    | nil => rfl
    | cons i l ih => simp only [State.readOffsets, State.readBuf, ih, State.base_congr hp, State.port, hb, hq]; rfl
  simp only [State.composed, State.base_congr hp, State.port, hq]; exact h _

end Sys2Proof.Machine
end

