-- ==== Sys2Proof/Laws/Block.lean ====
section
/-! SUPPORT. What one step of each agent can do, said once. -/

namespace Sys2Proof.Machine

/-! ## The block -/

theorem BlockFrame.runEmitter {s t : State} {ch : Chan} {e : Emitter} (ht : s.turn = .block)
    (h : runEmitter ch e s = .next t) : BlockFrame s t := by
  have h0 : BlockFrame s { s with emitCh := ch } := .of_same rfl rfl rfl rfl rfl (.of_eq rfl) rfl (.inl rfl)
  cases e
  case instr i =>
    obtain ⟨mid, h1, h2, h3⟩ := exec_block_cases i (s := { s with emitCh := ch }) ht
    simp only [Machine.runEmitter] at h
    refine h0.trans rfl (.emission h1 h2 ?_)
    rcases h3 with h3 | ⟨f, h3⟩ <;> rw [h3] at h <;> cases h
    · exact .inl rfl
    · exact .inr ⟨f, rfl⟩
  all_goals
    simp only [Machine.runEmitter, Host.Outcome.next.injEq] at h
    subst h
    obtain ⟨mid, h1, h2, h3⟩ := State.emitStream_cases { s with emitCh := ch } ch (expand s.params ch _)
    exact h0.trans rfl (.emission h1 h2 h3)

theorem BlockFrame.advance (s : State) (n : Nat) (r : Result) (hr : ∀ f, r ≠ .marked f) :
    BlockFrame s (s.advance n r) := by
  unfold State.advance
  split
  · exact .fault _ _
  · exact .of_same rfl rfl rfl rfl rfl (.of_none rfl) rfl (.inr ⟨r, rfl, hr⟩)

theorem BlockFrame.resolveLength (s : State) : BlockFrame s s.resolveLength := by
  unfold State.resolveLength
  split
  · exact .fault _ _
  · split
    · exact .fatal _ _ _
    · exact .of_same rfl rfl rfl rfl rfl (.of_eq rfl) rfl (.inl rfl)

theorem BlockFrame.finishClose (s : State) : BlockFrame s s.finishClose := by
  unfold State.finishClose
  split
  · exact ⟨rfl, rfl, engines_same rfl, fun h => h.step (h.2.congr rfl rfl rfl) rfl (.of_none rfl), id,
      .inr ⟨_, rfl, fun _ h => by cases h⟩⟩
  · exact .of_same rfl rfl rfl rfl rfl (.of_none rfl) rfl (.inr ⟨_, rfl, by simp⟩)

/-- Every step of an operation is a step of the block. -/
theorem BlockFrame.runStep {s t : State} {m : BlockStep} (ht : s.turn = .block)
    (h : runStep m s = .next t) : BlockFrame s t := by
  cases m
  case emit ch e => exact .runEmitter ht h
  case flush => exact .flushIcsp h
  case flushPair => exact .flushBoth h
  all_goals
    simp only [Machine.runStep, Host.Outcome.next.injEq] at h
    subst h
  case begin => exact .beginBuffer s
  case readBack ch => exact .readBack s ch
  case readEmpty o => exact .readEmpty s o
  case readEcho => exact .readEcho s
  case storeUserId => exact .of_same rfl rfl rfl rfl rfl (.of_eq rfl) rfl (.inl rfl)
  case storeConfig => exact .of_same rfl rfl rfl rfl rfl (.of_eq rfl) rfl (.inl rfl)
  case storeIds => exact .of_same rfl rfl rfl rfl rfl (.of_eq rfl) rfl (.inl rfl)
  case clearAddr => exact .of_same rfl rfl rfl rfl rfl (.of_eq rfl) rfl (.inl rfl)
  case resolveLength => exact .resolveLength s
  case finishOpen => exact .of_same rfl rfl rfl rfl rfl (.of_none rfl) rfl (.inr ⟨_, rfl, by simp⟩)
  case collect w => exact .of_same rfl rfl rfl rfl rfl (.of_task rfl fun _ => rfl) rfl (.inl rfl)
  case finishRead m => exact .advance s _ _ (by simp)
  case finishWrite n => exact .advance s _ _ (by simp)
  case finishPlain => exact .endTask s _ (by simp)
  case transport c => exact .plainCall s c
  case finishClose => exact .finishClose s
  case finishSetup => exact .of_same rfl rfl rfl rfl rfl (.of_none rfl) rfl (.inr ⟨_, rfl, by simp⟩)
  case finishRom => exact .endTask s _ (by simp)

/-- Beginning a call leaves buffer, ports and engines; it starts an operation, or ends the call at once with a
result, an error or a fault. -/
theorem BlockFrame.beginCall (s : State) (c : Call) : BlockFrame s (s.beginCall c) := by
  have hstart : ∀ (u : State) op prog, u = { s with mode := u.mode, sess := u.sess } →
      BlockFrame s (u.start op prog) := by
    intro u op prog hu
    rw [hu]
    exact .of_same rfl rfl rfl rfl rfl (fun b hb => by cases hb; exact .inr rfl) rfl (.inl rfl)
  cases c
  case openIcsp =>
    simp only [State.beginCall, State.callOpen]; split
    · exact hstart _ _ _ rfl
    · exact .fault _ _
  case read n =>
    simp only [State.beginCall, State.callRead]; split
    · exact .fault _ _
    · split
      · exact .endTask _ _ (by simp)
      · split
        · exact .fault _ _
        · split
          · exact .endTask _ _ (by simp)
          · exact hstart _ _ _ rfl
  case seek o w =>
    simp only [State.beginCall, State.callSeek]; split
    · exact .fault _ _
    · split
      · exact .fault _ _
      · split
        · exact .endTask _ _ (by simp)
        · split
          · exact .endTask _ _ (by simp)
          · exact .of_same rfl rfl rfl rfl rfl (.of_none rfl) rfl (.inr ⟨_, rfl, by simp⟩)
  case write bs =>
    simp only [State.beginCall, State.callWrite]; split
    · exact .fault _ _
    · split
      · exact .endTask _ _ (by simp)
      · split
        · exact .fault _ _
        · split
          · exact .fault _ _
          · exact hstart _ _ _ rfl
  case bulkErase m =>
    simp only [State.beginCall, State.callErase]; split
    · split
      · exact .fault _ _
      · exact hstart _ _ _ rfl
    · exact .fault _ _
  case close =>
    simp only [State.beginCall, State.callClose]; split
    · exact .endTask _ _ (by simp)
    · exact hstart _ _ _ rfl
  case setupPins =>
    simp only [State.beginCall, State.callSetup]; split
    · exact hstart _ _ _ rfl
    · exact .fault _ _
  case resetCart =>
    simp only [State.beginCall, State.callReset]; split
    · exact hstart _ _ _ rfl
    · exact .fault _ _
  case setAddress a =>
    simp only [State.beginCall, State.callAddress]; split
    · split
      · exact hstart _ _ _ rfl
      · exact .fault _ _
    · exact .fault _ _
  case readRom512 =>
    simp only [State.beginCall, State.callRom]; split
    · exact hstart _ _ _ rfl
    · exact .fault _ _
  case releaseCart => exact .of_same rfl rfl rfl rfl rfl (.of_none rfl) rfl (.inr ⟨_, rfl, by simp⟩)

/-- Every step of the block is a `BlockFrame`. -/
theorem BlockFrame.blockStep {s t : State} (ht : s.turn = .block) (h : blockStep s = .next t) :
    BlockFrame s t := by
  unfold Machine.blockStep at h
  split at h
  · rename_i task htask
    split at h
    · rename_i m rest hprog
      have h0 : BlockFrame s { s with task := some { task with prog := rest } } :=
        .of_same rfl rfl rfl rfl rfl (fun b hb => by cases hb; exact .inl (State.before_some htask).symm) rfl (.inl rfl)
      exact h0.trans rfl (.runStep ht h)
    · cases h; exact .endTask _ _ (by simp)
  · split at h
    · rename_i c cs hcalls
      cases h
      have h0 : BlockFrame s { s with calls := cs } := .of_same rfl rfl rfl rfl rfl (.of_eq rfl) rfl (.inl rfl)
      exact h0.trans rfl (.beginCall _ _)
    · cases h; exact .refl s

/-! ## Decoding -/

/-- What the decoder reads is a layer-1 instruction. -/
theorem decode_layerOne {bytes rest : List Byte} {i : Instr} (h : decode bytes = .ok (i, rest)) :
    i.layerOne = true := by
  have h1 : ∀ op j, decodeF1 op = some j → j.layerOne = true := by
    intro op j hj
    unfold decodeF1 at hj
    repeat' split at hj
    all_goals first | (obtain rfl := Option.some.inj hj; rfl) | cases hj
  have h3 : ∀ op b1 b2 j, decodeF3 op b1 b2 = some j → j.layerOne = true := by
    intro op b1 b2 j hj
    unfold decodeF3 at hj
    repeat' split at hj
    all_goals first | (obtain rfl := Option.some.inj hj; rfl) | cases hj
  cases bytes with
  | nil => cases h
  | cons op tl =>
    simp only [decode] at h
    split at h
    · rename_i j hj; cases h; exact h1 _ _ hj
    · split at h
      · split at h
        · cases h
        · split at h
          · cases h; rfl
          · cases h
      · split at h
        · cases h
        · split at h
          · split at h
            · rename_i j hj; cases h; exact h3 _ _ _ _ hj
            · cases h
          · cases h

/-- What the decoder leaves is the end of what it was given. -/
theorem decode_rest {bytes rest : List Byte} {i : Instr} (h : decode bytes = .ok (i, rest)) :
    ∃ n, rest = bytes.drop n := by
  cases bytes with
  | nil => cases h
  | cons op tl =>
    simp only [decode] at h
    split at h
    · cases h; exact ⟨1, rfl⟩
    · split at h
      · split at h
        · cases h
        · split at h
          · cases h; exact ⟨2, rfl⟩
          · cases h
      · split at h
        · cases h
        · split at h
          · split at h
            · cases h; exact ⟨3, rfl⟩
            · cases h
          · cases h

/-! ## An engine -/

/-- All an engine's step can do: nothing, or execute the instruction its queue decodes to and take its bytes off,
or leave a `WAITHI` that is still blocked. -/
theorem engineStep_cases {s t : State} {c : Chan} (ht : s.turn = .engine c) (h : engineStep c s = .next t) :
    t = s ∨ ∃ i rest e lv, decode (s.engine c).q = .ok (i, rest) ∧ Executed c i (s.engine c) e
      ∧ t = { s with
          engines := s.engines.set c (if i = .waithi ∧ e.st = .blocked then e else { e with q := rest })
          levels := lv } := by
  unfold engineStep at h
  split at h
  · cases h; exact .inl rfl
  · cases h
  · cases h
  · rename_i i rest hd
    right
    split at h
    · rename_i u hu
      cases h
      obtain ⟨e, lv, rfl, hx⟩ := exec_engine_cases ht (decode_layerOne hd) hu
      refine ⟨i, rest, e, lv, hd, hx, ?_⟩
      unfold State.retire
      have he : ({ s with engines := s.engines.set c e, levels := lv } : State).engine c = e := by
        simp [State.engine]
      rw [he]
      split
      · rfl
      · have hset : ∀ x, (s.engines.set c e).set c x = s.engines.set c x := by
          intro x; cases c <;> rfl
        simp [State.setEngine, hset]
    · cases h
    · cases h

end Sys2Proof.Machine
end

