-- ==== Sys2Proof/Laws/Codec.lean ====
section
/-! SUPPORT. What the operand fields, the frame and the streams of the codec are, said once: the 16-bit operand, the
24-bit frame, the bytes of a clocked bit, of a clocked byte and of the read frame. -/

namespace Sys2Proof

/-! ## Operand fields -/

theorem le16_lo8_hi8 {n : Nat} (h : n < 2 ^ 16) : le16 (lo8 n) (hi8 n) = n := by
  simp only [le16, lo8, hi8, BitVec.toNat_ofNat, Nat.shiftRight_eq_div_pow]; omega

@[simp] theorem lo8_le16 (a b : Byte) : lo8 (le16 a b) = a := by
  apply BitVec.eq_of_toNat_eq; simp only [le16, lo8, BitVec.toNat_ofNat]; omega

@[simp] theorem hi8_le16 (a b : Byte) : hi8 (le16 a b) = b := by
  apply BitVec.eq_of_toNat_eq
  simp only [le16, hi8, BitVec.toNat_ofNat, Nat.shiftRight_eq_div_pow]; omega

theorem le16_lt (a b : Byte) : le16 a b < 2 ^ 16 := by simp only [le16]; omega

/-! ## Frames -/

theorem frameValue_toNat {x : Nat} (h : x < 2 ^ 22) : (frameValue x).toNat = 2 * x := by
  simp [frameValue, Nat.shiftLeft_eq]; omega

theorem framePayload_frameBytes {w x : Nat} (hx : x < 2 ^ w) (hw : w ≤ 22) :
    framePayload w ((frameValue x).extractLsb' 16 8) ((frameValue x).extractLsb' 8 8)
      ((frameValue x).extractLsb' 0 8) = some x := by
  have h22 : x < 2 ^ 22 := lt_of_lt_of_le hx (Nat.pow_le_pow_right (by omega) hw)
  simp only [framePayload, BitVec.extractLsb'_toNat, frameValue_toNat h22, Nat.shiftRight_eq_div_pow]
  have e : 2 * x / 2 ^ 16 % 2 ^ 8 * 65536 + 2 * x / 2 ^ 8 % 2 ^ 8 * 256 + 2 * x / 2 ^ 0 % 2 ^ 8 = 2 * x := by
    omega
  rw [e]; simp [hx]

end Sys2Proof

namespace Sys2Proof.Machine

/-! ## Clocked bits and bytes -/

theorem encode_icspBit (p : Config.Params) (b : Bool) : (icspBit p b).flatMap encode = bitBytes p b := by
  cases b <;>
    simp [icspBit, pinWh, pinWl, encode, bitBytes, dataLevel, Config.opSetLo, Config.dat, Config.bitMask,
      Config.datBit, Config.Params.clk]

theorem encode_icspByte (p : Config.Params) (c : Byte) : (icspByte p c).flatMap encode = commandBytes p c := by
  simp only [icspByte, List.flatMap_assoc, encode_icspBit, commandBytes, bitsBytes, byteBits]
  simp [List.range_succ, BitVec.getLsbD]

theorem passes_icspByte (p : Config.Params) (c : Byte) : ∀ i ∈ icspByte p c, passes i = true := by
  intro i hi
  simp only [icspByte, List.mem_flatMap, icspBit, List.mem_cons, List.not_mem_nil, or_false] at hi
  obtain ⟨_, _, rfl | rfl⟩ := hi <;> rfl

theorem samplesOf_icspByte (p : Config.Params) (c : Byte) : ((icspByte p c).map samplesOf).sum = 0 := by
  simp [icspByte, byteBits, icspBit, samplesOf, pinWh, pinWl]

theorem length_bitsBytes (p : Config.Params) (n v : Nat) : (bitsBytes p n v).length = 6 * n := by
  simp [bitsBytes, bitBytes]; omega

/-! ## Frames on the wire -/

theorem encode_frame (p : Config.Params) {x : Nat} (hx : x < 2 ^ 22) :
    ((frameBytes (frameValue x)).flatMap (icspByte p)).flatMap encode = payloadBytes p x := by
  simp only [List.flatMap_assoc, encode_icspByte, commandBytes, payloadBytes, bitsBytes]
  have split3 : ∀ (a b c : Byte) (v : Nat), (∀ k, k < 8 → a.toNat.testBit k = v.testBit (k + 16)) →
      (∀ k, k < 8 → b.toNat.testBit k = v.testBit (k + 8)) → (∀ k, k < 8 → c.toNat.testBit k = v.testBit k) →
      List.flatMap (fun x => (List.range 8).flatMap fun k => bitBytes p (x.toNat.testBit (8 - 1 - k))) [a, b, c] =
        (List.range 24).flatMap fun k => bitBytes p (v.testBit (24 - 1 - k)) := by
    intro a b c v h1 h2 h3
    simp [List.range_succ, h1, h2, h3, -Nat.testBit_zero]
  apply split3 <;> intro k hk <;>
    rw [BitVec.extractLsb'_toNat, frameValue_toNat hx, Nat.testBit_mod_two_pow, Nat.testBit_shiftRight] <;>
    simp [Nat.add_comm, hk]

theorem passes_frame (p : Config.Params) (bs : List Byte) : ∀ i ∈ bs.flatMap (icspByte p), passes i = true := by
  intro i hi
  obtain ⟨b, -, hb⟩ := List.mem_flatMap.mp hi
  exact passes_icspByte p b i hb

theorem samplesOf_frame (p : Config.Params) (bs : List Byte) :
    ((bs.flatMap (icspByte p)).map samplesOf).sum = 0 := by
  induction bs with
  | nil => rfl
  | cons b bs ih =>
    rw [List.flatMap_cons, List.map_append, List.sum_append, samplesOf_icspByte, ih]

/-! ## The read frame -/

theorem encode_readPulse (p : Config.Params) :
    (readPulse p).flatMap encode = [0x80, p.icspBase ||| (1#8 <<< p.clkBit.val), p.icspDir &&& 0xDF,
      0x80, p.icspBase, p.icspDir &&& 0xDF, 0x81] := rfl

theorem encode_readPulses (p : Config.Params) (n : Nat) :
    (List.replicate n (readPulse p)).flatten.flatMap encode =
      (List.replicate n [0x80, p.icspBase ||| (1#8 <<< p.clkBit.val), p.icspDir &&& 0xDF,
        0x80, p.icspBase, p.icspDir &&& 0xDF, 0x81]).flatten := by
  induction n with
  | zero => rfl
  | succ n ih =>
    rw [List.replicate_succ, List.flatten_cons, List.flatMap_append, encode_readPulse, ih]; rfl

theorem encode_icspReadFrame (p : Config.Params) : (icspReadFrame p).flatMap encode = readFrameBytes p := by
  rw [icspReadFrame, List.flatMap_append, List.flatMap_append, encode_readPulses]; rfl

theorem passes_icspReadFrame (p : Config.Params) : ∀ i ∈ icspReadFrame p, passes i = true := by
  intro i hi
  simp only [icspReadFrame, List.mem_append, List.mem_cons, List.mem_flatten, List.mem_replicate,
    List.not_mem_nil, or_false] at hi
  rcases hi with ((rfl | rfl) | ⟨_, ⟨_, rfl⟩, hi⟩) | rfl
  · rfl
  · rfl
  · simp only [readPulse, List.mem_cons, List.not_mem_nil, or_false] at hi
    rcases hi with rfl | rfl | rfl <;> rfl
  · rfl

theorem samplesOf_readPulses (p : Config.Params) (n : Nat) :
    ((List.replicate n (readPulse p)).flatten.map samplesOf).sum = n := by
  induction n with
  | zero => rfl
  | succ n ih =>
    rw [List.replicate_succ, List.flatten_cons, List.map_append, List.sum_append, ih, Nat.add_comm]; rfl

theorem samplesOf_icspReadFrame (p : Config.Params) : ((icspReadFrame p).map samplesOf).sum = 24 := by
  rw [icspReadFrame, List.map_append, List.map_append, List.sum_append, List.sum_append, samplesOf_readPulses]
  rfl

theorem length_readFrameBytes (p : Config.Params) : (readFrameBytes p).length = 176 := by
  have : ∀ (l : List Byte) n, ((List.replicate n l).flatten).length = n * l.length := by simp
  rw [readFrameBytes, List.length_append, List.length_append, this]; rfl

/-! ## Streams -/

/-- A stream whose front passes its checks and fits is emitted front first (R138). -/
theorem State.emitAll_append (s : State) (ch : Chan) (l m : List Instr) (hp : ∀ i ∈ l, passes i = true)
    (hr : (s.port ch).cur + (l.flatMap encode).length ≤ s.limit ch) :
    s.emitAll ch (l ++ m) = (s.emitAll ch l).emitAll ch m := by
  induction l generalizing s with
  | nil => rfl
  | cons i l ih =>
    rw [List.flatMap_cons, List.length_append] at hr
    obtain ⟨t, h1, h2⟩ :=
      State.emitBytes_fits (reads := samplesOf i) (s := s) (ch := ch) (bytes := encode i) (by omega)
    have hc := State.emitCheck_passes s ch (hp i (by simp))
    simp only [List.cons_append, State.emitAll, State.emitInstr, hc, h1]
    refine ih t (fun j hj => hp j (by simp [hj])) ?_
    rw [h2.1, State.limit_congr h2.2.2.2.params]; simp only []; omega

/-- The samples a stream requests are its pin reads (R26). -/
theorem sum_samplesOf (is : List Instr) : (is.map samplesOf).sum = is.count .readlo + is.count .readhi := by
  induction is with
  | nil => rfl
  | cons i l ih =>
    simp only [List.map_cons, List.sum_cons, ih, List.count_cons]
    cases i <;> simp [samplesOf] <;> omega

/-- A stream whose checks pass and whose bytes do not fit is emitted as far as whole instructions fit, and the next
one is the overflow (R24). -/
theorem State.emitAll_overflow (s : State) (ch : Chan) (is : List Instr) (hp : ∀ i ∈ is, passes i = true)
    (hn : is ≠ []) (hr : s.limit ch < (s.port ch).cur + (is.flatMap encode).length) :
    ∃ pre j post mid, is = pre ++ j :: post
      ∧ Emitted ch (pre.flatMap encode) (pre.map samplesOf).sum s mid
      ∧ (pre = [] ∨ (s.port ch).cur + (pre.flatMap encode).length ≤ s.limit ch)
      ∧ s.limit ch < (s.port ch).cur + (pre.flatMap encode).length + (encode j).length
      ∧ s.emitAll ch is = mid.fault .bufferOverflow := by
  induction is generalizing s with
  | nil => exact absurd rfl hn
  | cons i is ih =>
    have hc := State.emitCheck_passes s ch (hp i (by simp))
    by_cases hf : (s.port ch).cur + (encode i).length ≤ s.limit ch
    · obtain ⟨t, h1, h2⟩ := State.emitBytes_fits (reads := samplesOf i) hf
      have hlim := State.limit_congr h2.2.2.2.params (c := ch)
      have hcur : (t.port ch).cur = (s.port ch).cur + (encode i).length := by rw [h2.1]
      rw [List.flatMap_cons, List.length_append] at hr
      have hne : is ≠ [] := by
        rintro rfl
        simp only [List.flatMap_nil, List.length_nil] at hr; omega
      obtain ⟨pre, j, post, mid, e1, e2, e3, e4, e5⟩ :=
        ih t (fun k hk => hp k (by simp [hk])) hne (by rw [hcur, hlim]; omega)
      refine ⟨i :: pre, j, post, mid, by rw [e1]; rfl, ?_, .inr ?_, ?_, ?_⟩
      · rw [List.flatMap_cons, List.map_cons, List.sum_cons]; exact h2.trans e2
      · rw [List.flatMap_cons, List.length_append]
        rcases e3 with rfl | e3
        · simp only [List.flatMap_nil, List.length_nil]; omega
        · rw [hcur, hlim] at e3; omega
      · rw [List.flatMap_cons, List.length_append]; rw [hcur, hlim] at e4; omega
      · simp only [State.emitAll, State.emitInstr, hc, h1]; exact e5
    · refine ⟨[], i, is, s, rfl, Emitted.nil ch s, .inl rfl, ?_, ?_⟩
      · simp only [List.flatMap_nil, List.length_nil]; omega
      · simp only [State.emitAll, State.emitInstr, hc, State.emitBytes_overflow (Nat.lt_of_not_le hf)]

/-- A stream that does not fit faults before anything that follows it is emitted (R24). -/
theorem State.emitAll_overflow_append (s : State) (ch : Chan) (l m : List Instr)
    (hp : ∀ i ∈ l, passes i = true) (hn : l ≠ [])
    (hr : s.limit ch < (s.port ch).cur + (l.flatMap encode).length) :
    s.emitAll ch (l ++ m) = s.emitAll ch l := by
  induction l generalizing s with
  | nil => exact absurd rfl hn
  | cons i l ih =>
    have hc := State.emitCheck_passes s ch (hp i (by simp))
    by_cases hf : (s.port ch).cur + (encode i).length ≤ s.limit ch
    · obtain ⟨t, h1, h2⟩ := State.emitBytes_fits (reads := samplesOf i) hf
      have hlim := State.limit_congr h2.2.2.2.params (c := ch)
      have hcur : (t.port ch).cur = (s.port ch).cur + (encode i).length := by rw [h2.1]
      rw [List.flatMap_cons, List.length_append] at hr
      simp only [List.cons_append, State.emitAll, State.emitInstr, hc, h1]
      refine ih t (fun k hk => hp k (by simp [hk])) ?_ (by rw [hcur, hlim]; omega)
      rintro rfl
      simp only [List.flatMap_nil, List.length_nil] at hr; omega
    · simp only [List.cons_append, State.emitAll, State.emitInstr, hc,
        State.emitBytes_overflow (Nat.lt_of_not_le hf)]

/-- Every instruction of a clocked byte is a pin write of three bytes that requests no sample (R171, R172). -/
theorem icspByte_pinWrites (p : Config.Params) (c : Byte) :
    ∀ i ∈ icspByte p c, (encode i).length = 3 ∧ samplesOf i = 0 := by
  intro i hi
  simp only [icspByte, List.mem_flatMap, icspBit, List.mem_cons, List.not_mem_nil, or_false] at hi
  obtain ⟨_, _, rfl | rfl⟩ := hi <;> exact ⟨rfl, rfl⟩

/-- The stream of a command, a payload frame and what follows them, for a payload of its width (R104). -/
theorem commandFrame_ok (p : Config.Params) (c : Byte) {w x : Nat} (after : List Instr)
    (hw : w ∈ [4, 8, 16, 22]) (hx : x < 2 ^ w) :
    commandFrame p c w x after =
      .ok (icspByte p c ++ (frameBytes (frameValue x)).flatMap (icspByte p) ++ after) := by
  simp only [commandFrame, icspFrame, checkedFrame, hw, hx, and_self, if_true]

/-- A payload too wide for its field is a fault before any byte (R173, R350). -/
theorem commandFrame_wide (p : Config.Params) (c : Byte) {w x : Nat} (after : List Instr) (hx : 2 ^ w ≤ x) :
    commandFrame p c w x after = .error .paramRange := by
  simp only [commandFrame, icspFrame, checkedFrame, Nat.not_lt.mpr hx, and_false, if_false]

end Sys2Proof.Machine
end

