-- ==== Sys2Proof/Laws/PerInstr.lean ====
section
/-! SUPPORT. Per-instruction lemmas about the syntax and the encoding of every instruction. -/

namespace Sys2Proof.Laws.Length

/-- The first byte of a layer-1 instruction fixes its length, which is its footprint (R90, R94, R99, R136); a layer-2
instruction has no byte of its own, and on the wire it is a command byte and, where a payload frame follows, three
bytes more (R101, R104). -/
def Statement (i : Instr) : Prop :=
  (i.layerOne = true →
      ∃ op rest, encode i = op :: rest ∧ instrLength op = some (encode i).length
        ∧ (encode i).length = Machine.footprint i)
    ∧ (i.layerOne = false →
      encode i = [] ∧ ∀ p, (encodeUnit p i).length = if (payloadOf i).isSome then 4 else 1)

theorem setlo (v d : Byte) : Statement (.setlo v d) := ⟨fun _ => ⟨_, _, rfl, rfl, rfl⟩, fun h => by cases h⟩

theorem readlo : Statement .readlo := ⟨fun _ => ⟨_, _, rfl, rfl, rfl⟩, fun h => by cases h⟩

theorem sethi (v d : Byte) : Statement (.sethi v d) := ⟨fun _ => ⟨_, _, rfl, rfl, rfl⟩, fun h => by cases h⟩

theorem readhi : Statement .readhi := ⟨fun _ => ⟨_, _, rfl, rfl, rfl⟩, fun h => by cases h⟩

theorem loopon : Statement .loopon := ⟨fun _ => ⟨_, _, rfl, rfl, rfl⟩, fun h => by cases h⟩

theorem loopoff : Statement .loopoff := ⟨fun _ => ⟨_, _, rfl, rfl, rfl⟩, fun h => by cases h⟩

theorem setdiv (n : Nat) : Statement (.setdiv n) := ⟨fun _ => ⟨_, _, rfl, rfl, rfl⟩, fun h => by cases h⟩

theorem waithi : Statement .waithi := ⟨fun _ => ⟨_, _, rfl, rfl, rfl⟩, fun h => by cases h⟩

theorem waits (u : Nat) : Statement (.waits u) := ⟨fun _ => ⟨_, _, rfl, rfl, rfl⟩, fun h => by cases h⟩

theorem waitl (n : Nat) : Statement (.waitl n) := ⟨fun _ => ⟨_, _, rfl, rfl, rfl⟩, fun h => by cases h⟩

theorem probe : Statement .probe := ⟨fun _ => ⟨_, _, rfl, rfl, rfl⟩, fun h => by cases h⟩

theorem loadaddr (a : Nat) : Statement (.loadaddr a) := ⟨(fun h => by cases h), fun _ => ⟨rfl, fun _ => rfl⟩⟩

theorem readword : Statement .readword := ⟨(fun h => by cases h), fun _ => ⟨rfl, fun _ => rfl⟩⟩

theorem progword (w : Nat) : Statement (.progword w) := ⟨(fun h => by cases h), fun _ => ⟨rfl, fun _ => rfl⟩⟩

theorem progbyte (b : Nat) : Statement (.progbyte b) := ⟨(fun h => by cases h), fun _ => ⟨rfl, fun _ => rfl⟩⟩

theorem incaddr : Statement .incaddr := ⟨(fun h => by cases h), fun _ => ⟨rfl, fun _ => rfl⟩⟩

theorem erase (m : Nat) : Statement (.erase m) := ⟨(fun h => by cases h), fun _ => ⟨rfl, fun _ => rfl⟩⟩

theorem key0 : Statement .key0 := ⟨(fun h => by cases h), fun _ => ⟨rfl, fun _ => rfl⟩⟩

theorem key1 : Statement .key1 := ⟨(fun h => by cases h), fun _ => ⟨rfl, fun _ => rfl⟩⟩

theorem key2 : Statement .key2 := ⟨(fun h => by cases h), fun _ => ⟨rfl, fun _ => rfl⟩⟩

theorem key3 : Statement .key3 := ⟨(fun h => by cases h), fun _ => ⟨rfl, fun _ => rfl⟩⟩

end Sys2Proof.Laws.Length
end

