-- ==== Sys2Proof/Laws/Programs.lean ====
section
/-! SUPPORT. What the programs of the operations are made of, and what the shared operations of the block leave of the
session: the lemmas a proof about sessions cites instead of unfolding a program. -/

namespace Sys2Proof.Machine

/-! ## Programs -/

theorem emitted_append (ch : Chan) (l m : List BlockStep) :
    emitted ch (l ++ m) = emitted ch l ++ emitted ch m := by
  induction l with
  | nil => rfl
  | cons x l ih => cases x <;> simp [emitted, ih]; split <;> simp

theorem streamBytes_append (p : Config.Params) (ch : Chan) (l m : List Emitter) :
    streamBytes p ch (l ++ m) = streamBytes p ch l ++ streamBytes p ch m := by
  induction l with
  | nil => rfl
  | cons x l ih => simp [streamBytes, ih]

/-- Emissions on one channel are part of that channel's buffer and of no other's. -/
theorem buffers_onChan (ch c : Chan) (es acc : List Emitter) (rest : List BlockStep) :
    buffers ch acc (onChan c es ++ rest) = buffers ch (if c = ch then acc ++ es else acc) rest := by
  induction es generalizing acc with
  | nil => simp [onChan]
  | cons e es ih =>
    have h : onChan c (e :: es) ++ rest = .emit c e :: (onChan c es ++ rest) := rfl
    rw [h, buffers, ih]
    split <;> simp

theorem transactions_onChan (c : Chan) (es : List Emitter) (rest : List BlockStep) :
    transactions (onChan c es ++ rest) = transactions rest := by
  simp [transactions, onChan]

/-- Round trips after emissions are steps of a Read and none ends an Open. -/
theorem readRounds_fits (fuel rem : Nat) (load : List BlockStep)
    (hl : ∀ x ∈ load, ∃ ch e, x = BlockStep.emit ch e) :
    (readRounds fuel rem load).all (BlockStep.fits .read) = true
      ∧ BlockStep.finishOpen ∉ readRounds fuel rem load := by
  induction fuel generalizing rem load with
  | zero => simp [readRounds]
  | succ f ih =>
    obtain ⟨i1, i2⟩ := ih (rem - 2 * roundWords rem) [] (by simp)
    simp only [readRounds]
    split
    · simp
    · have h1 : load.all (BlockStep.fits .read) = true := by
        simp only [List.all_eq_true]; intro x hx; obtain ⟨c, e, rfl⟩ := hl x hx; rfl
      have h2 : BlockStep.finishOpen ∉ load := by
        intro hx; obtain ⟨c, e, h⟩ := hl _ hx; cases h
      constructor
      · simp only [List.all_append, h1, i1]; simp [onIcsp, BlockStep.fits, OpName.isCart]
      · simp [h2, i2, onIcsp]

/-- The units of a Write and its cuts are steps of a Write and none ends an Open. -/
theorem cutUnits_fits (cap used : Nat) (us : List Instr) :
    (cutUnits cap used us).all (BlockStep.fits .write) = true
      ∧ BlockStep.finishOpen ∉ cutUnits cap used us := by
  induction us generalizing used with
  | nil => simp [cutUnits]
  | cons u us ih =>
    simp only [cutUnits]; split
    · obtain ⟨i1, i2⟩ := ih (used + footprint u)
      simp only [List.all_cons, i1]; simp [onIcsp, i2, BlockStep.fits]
    · obtain ⟨i1, i2⟩ := ih (footprint u)
      simp only [List.all_cons, i1]; simp [onIcsp, i2, BlockStep.fits, OpName.isCart]

theorem onChan_fits (op : OpName) (ch : Chan) (es : List Emitter) :
    (onChan ch es).all (BlockStep.fits op) = true ∧ BlockStep.finishOpen ∉ onChan ch es := by
  simp [onChan, BlockStep.fits]

/-- Open writes every register before its last two steps, which resolve the length and end it. -/
theorem openProgram_shape (p : Config.Params) :
    ∃ before, openProgram p = before ++ [.resolveLength, .finishOpen] ∧ BlockStep.finishOpen ∉ before
      ∧ before.all (BlockStep.fits .openIcsp) = true ∧ .storeUserId ∈ before ∧ .storeConfig ∈ before
      ∧ .storeIds ∈ before ∧ .clearAddr ∈ before := by
  refine ⟨_, rfl, ?_, ?_, ?_⟩
  · simp [onIcsp, keyEntry, identityRead]
  · simp [onIcsp, keyEntry, identityRead, BlockStep.fits, OpName.isCart]
  · simp [onIcsp, keyEntry, identityRead]

/-! ## What is left of the session -/

/-- The mode, the sessions, the registers and the operation in progress are as they were. -/
def SameSession (s t : State) : Prop :=
  t.mode = s.mode ∧ t.sess = s.sess ∧ t.sessC = s.sessC ∧ t.regs = s.regs ∧ t.task = s.task

theorem SameSession.trans {s t u : State} (h : SameSession s t) (k : SameSession t u) : SameSession s u := by
  obtain ⟨h1, h2, h3, h4, h5⟩ := h
  obtain ⟨k1, k2, k3, k4, k5⟩ := k
  exact ⟨k1.trans h1, k2.trans h2, k3.trans h3, k4.trans h4, k5.trans h5⟩

theorem SameButPort.session {ch : Chan} {s t : State} (h : SameButPort ch s t) : SameSession s t := by
  obtain ⟨_, _, rfl, _⟩ := h.fields; exact ⟨rfl, rfl, rfl, rfl, rfl⟩

theorem State.writeOut_session {s t : State} {ch : Chan} {ok : Bool} (h : s.writeOut ch = .ok (ok, t)) :
    SameSession s t := by
  obtain ⟨_, -, ⟨-, rfl⟩ | ⟨-, _, rfl⟩⟩ := State.writeOut_cases h <;> exact ⟨rfl, rfl, rfl, rfl, rfl⟩

theorem State.writeHalf_session {s t : State} {ch : Chan} {ok : Bool} (h : s.writeHalf ch = .ok (ok, t)) :
    SameSession s t := by
  unfold State.writeHalf at h
  split at h
  · cases h; exact ⟨rfl, rfl, rfl, rfl, rfl⟩
  · exact State.writeOut_session h

/-- The cursor and the length of a ready session alone are read. -/
theorem State.readyCursor_ready {s : State} {x : Nat × Nat} (h : s.readyCursor = .ok x) : s.sess = .ready := by
  unfold State.readyCursor at h; split at h
  · assumption
  · cases h

/-! ## Samples -/

theorem foldBit_zero (w : Half) (b : Bool) : (foldBit w b).getLsbD 0 = b := by
  cases b <;> simp [foldBit]

theorem foldBit_succ (w : Half) (b : Bool) {k : Nat} (h : k + 1 < 16) :
    (foldBit w b).getLsbD (k + 1) = w.getLsbD k := by
  cases b <;> simp [foldBit, h] <;> rw [BitVec.getLsbD_eq_getElem (by omega)]

end Sys2Proof.Machine
end

