-- ==== Sys2Proof/Tests/Slice0.lean ====
section
/-! SUPPORT. The smoke tests of well-formedness, the decoding of a word of every row written out from its encoding, a
few worked examples of the spec (vector configuration VC, D50), and for every obligation with hypotheses a witness that
meets them, each clause at a boundary. -/

open Sys2Proof Sys2Proof.Machine

namespace Sys2Proof.Tests

/-! ## Well-formedness: an ill-formed term for each check -/

theorem test_setdiv_wide_refused : (Instr.setdiv 65536).wellFormed = false := by decide
theorem test_waits_wide_refused : (Instr.waits 8).wellFormed = false := by decide
theorem test_waitl_wide_refused : (Instr.waitl 65536).wellFormed = false := by decide
theorem test_loadaddr_wide_refused : (Instr.loadaddr 4194304).wellFormed = false := by decide
theorem test_progword_wide_refused : (Instr.progword 65536).wellFormed = false := by decide
theorem test_progbyte_wide_refused : (Instr.progbyte 256).wellFormed = false := by decide
theorem test_erase_wide_refused : (Instr.erase 16).wellFormed = false := by decide

/-! ## Decoding: words written out bit by bit from R94, the last byte first -/

theorem test_decode_setlo : decodeTableWord 24 0b001110000011000010000000 = some (.setlo 0x30 0x38) := by decide
theorem test_decode_readlo : decodeTableWord 8 0b10000001 = some .readlo := by decide
theorem test_decode_sethi : decodeTableWord 24 0b111111110001001010000010 = some (.sethi 0x12 0xFF) := by decide
theorem test_decode_readhi : decodeTableWord 8 0b10000011 = some .readhi := by decide
theorem test_decode_loopon : decodeTableWord 8 0b10000100 = some .loopon := by decide
theorem test_decode_loopoff : decodeTableWord 8 0b10000101 = some .loopoff := by decide
theorem test_decode_setdiv : decodeTableWord 24 0b000000010000111010000110 = some (.setdiv 0x10E) := by decide
theorem test_decode_waithi : decodeTableWord 8 0b10001000 = some .waithi := by decide
theorem test_decode_waits : decodeTableWord 16 0b0000011110001110 = some (.waits 7) := by decide
theorem test_decode_waitl : decodeTableWord 24 0b000000011111010010001111 = some (.waitl 500) := by decide
theorem test_decode_probe : decodeTableWord 8 0b10101010 = some .probe := by decide
theorem test_decode_unlisted : decodeTableWord 8 0b10000111 = none := by decide
theorem test_decode_waits_reserved : decodeTableWord 16 0b0000100010001110 = none := by decide

/-- The wire forms of R101 to R104 with VC's commands: `0x200000` as an address is the frame `40 00 00`, `0x1234` as a
word `00 24 68` (R174), `0xA5` as a byte `00 01 4A`, `0b0011` as a mask `00 00 06`. -/
theorem test_decode_loadaddr : decodeUnit Config.vc [0x80, 0x40, 0x00, 0x00] = [.loadaddr 0x200000] := by decide
theorem test_decode_readword : decodeUnit Config.vc [0xFE] = [.readword] := by decide
theorem test_decode_progword : decodeUnit Config.vc [0xE0, 0x00, 0x24, 0x68] = [.progword 0x1234] := by decide
/-- VC's word and byte commands are equal (D14): a small payload has both readings. -/
theorem test_decode_progbyte :
    decodeUnit Config.vc [0xE0, 0x00, 0x01, 0x4A] = [.progword 0xA5, .progbyte 0xA5] := by decide
theorem test_decode_incaddr : decodeUnit Config.vc [0xF8] = [.incaddr] := by decide
theorem test_decode_erase : decodeUnit Config.vc [0x18, 0x00, 0x00, 0x06] = [.erase 0b0011] := by decide
theorem test_decode_key0 : decodeUnit Config.vc [0x4D] = [.key0] := by decide
theorem test_decode_key1 : decodeUnit Config.vc [0x43] = [.key1] := by decide
theorem test_decode_key2 : decodeUnit Config.vc [0x48] = [.key2] := by decide
theorem test_decode_key3 : decodeUnit Config.vc [0x50] = [.key3] := by decide
/-- A frame whose stop bit is 1 is no unit (R102). -/
theorem test_decode_stop_bit : decodeUnit Config.vc [0x18, 0x00, 0x00, 0x07] = [] := by decide

/-! ## Small states -/

/-- The state after reset in configuration VC. -/
def start : State := State.resetWith Config.vc

/-- The block about to emit on a channel of a mode, its cursor and buffer as given. -/
def emitting (m : Mode) (ch : Chan) (cur : Nat) : State :=
  { start.setPort ch { start.port ch with cur := cur } with mode := m, emitCh := ch }

/-- An engine on turn with the given queue, its next samples fixed. -/
def running (c : Chan) (q samples : List Byte) : State :=
  { start.setEngine c { start.engine c with q := q, samples := ⟨samples, 0⟩ } with turn := .engine c }

/-- The next state of an outcome, or the state before where there is none. -/
def after (r : Host.Outcome State Fault Refusal) (s : State) : State :=
  match r with
  | .next t => t
  | .fault _ => s
  | .refused _ => s

/-- The `n` bytes of the buffer from an offset. -/
def bytesAt (s : State) (i n : Nat) : List (Option Byte) := (List.range n).map fun k => Memory.read s.buf (i + k)

/-! ## Emission: the worked examples of R122 to R135 -/

theorem test_emit_setlo : bytesAt (after (exec (.setlo 0x30 0x38) (emitting .icsp .icsp 0)) start) 0 4
    = [some 0x80, some 0x30, some 0x38, none] := by decide
theorem test_emit_sethi : bytesAt (after (exec (.sethi 0x12 0xFF) (emitting .cart .b 8192)) start) 8192 3
    = [some 0x82, some 0x12, some 0xFF] := by decide
theorem test_emit_readlo : (after (exec .readlo (emitting .icsp .icsp 10)) start).port .icsp = ⟨11, 1, 0, []⟩ := by
  decide
theorem test_emit_readhi : (after (exec .readhi (emitting .cart .a 5)) start).port .a = ⟨6, 1, 0, []⟩ := by decide
theorem test_emit_waits : bytesAt (after (exec (.waits 1) (emitting .icsp .icsp 0)) start) 0 3
    = [some 0x8E, some 0x01, none] := by decide
theorem test_emit_waitl : bytesAt (after (exec (.waitl 500) (emitting .icsp .icsp 0)) start) 0 3
    = [some 0x8F, some 0xF4, some 0x01] := by decide
theorem test_emit_waithi : bytesAt (after (exec .waithi (emitting .cart .b 8199)) start) 8199 2
    = [some 0x88, none] := by decide
theorem test_emit_waithi_icsp : (after (exec .waithi (emitting .icsp .icsp 0)) start).faulted = true := by decide
theorem test_emit_loopon : bytesAt (after (exec .loopon (emitting .icsp .icsp 0)) start) 0 2 = [some 0x84, none] := by
  decide
theorem test_emit_loopoff : bytesAt (after (exec .loopoff (emitting .icsp .icsp 0)) start) 0 2
    = [some 0x85, none] := by decide
theorem test_emit_setdiv : bytesAt (after (exec (.setdiv 14) (emitting .icsp .icsp 0)) start) 0 3
    = [some 0x86, some 0x0E, some 0x00] := by decide
theorem test_emit_probe : bytesAt (after (exec .probe (emitting .icsp .icsp 0)) start) 0 2 = [some 0xAA, none] := by
  decide
/-- R129: `emitWaitMicro(1000)` writes `8F F4 01`. -/
theorem test_emit_waitus : bytesAt (after (runEmitter .icsp (.waitUs 1000) start) start) 0 3
    = [some 0x8F, some 0xF4, some 0x01] := by decide
/-- R130: `emitWaitMilli(20)` writes `8F 10 27`. -/
theorem test_emit_waitms : bytesAt (after (runEmitter .icsp (.waitMs 20) start) start) 0 3
    = [some 0x8F, some 0x10, some 0x27] := by decide
/-- R24: three bytes do not fit in two. -/
theorem test_emit_overflow : (after (exec (.setlo 1 2) (emitting .icsp .icsp 16382)) start).results
    = [.marked .bufferOverflow] := by decide

/-! ## Layer 2 -/

/-- R172: `icspCommand(0x80)` begins `80 30 38 80 20 38 80 10 38 80 00 38`. -/
theorem test_emit_command : ((icspByte Config.vc 0x80).flatMap encode).take 12
    = [0x80, 0x30, 0x38, 0x80, 0x20, 0x38, 0x80, 0x10, 0x38, 0x80, 0x00, 0x38] := by decide
/-- R176: after its command, `READWORD` is `80 00 18 8E 01` and the first pulse `80 10 18 80 00 18 81`. -/
theorem test_emit_readword : (((readWordStream Config.vc).flatMap encode).drop 48).take 12
    = [0x80, 0x00, 0x18, 0x8E, 0x01, 0x80, 0x10, 0x18, 0x80, 0x00, 0x18, 0x81] := by decide
/-- R248: with `regions = 0b0011` the last three bits of the frame are 1, 1 and the stop bit 0. -/
theorem test_emit_erase : (match eraseStream Config.vc 0b0011 with
    | .ok is => ((is.flatMap encode).drop 174).take 18
    | .error _ => []) = [0x80, 0x30, 0x38, 0x80, 0x20, 0x38, 0x80, 0x30, 0x38, 0x80, 0x20, 0x38,
      0x80, 0x10, 0x38, 0x80, 0x00, 0x38] := by decide
/-- R244: `INCADDR` is 48 bytes with no delay. -/
theorem test_emit_incaddr : ((after (exec .incaddr start) start).port .icsp).cur = 48 := by decide
/-- R227: the four key bytes of VC are `4D 43 48 50`; the last data bit of each is its bit 0. -/
theorem test_emit_keys : [Config.vc.key0, Config.vc.key1, Config.vc.key2, Config.vc.key3].map
      (fun k => ((icspByte Config.vc k).flatMap encode).getD 46 0)
    = [0x20, 0x20, 0x00, 0x00] := by decide
/-- R228, R350: an address of 23 bits is a fault before any byte. -/
theorem test_emit_loadaddr_wide : (after (exec (.loadaddr 4194304) start) start).buf = [] := by decide

/-! ## Execution -/

theorem test_run_setlo : (after (step (running .a [0x80, 0x30, 0x38, 0x81] [])) start).engine .a
    = { start.engine .a with valLo := 0x30, dirLo := 0x38, q := [0x81] } := by decide
theorem test_run_sethi : (after (step (running .b [0x82, 0x12, 0xFF] [])) start).engine .b
    = { start.engine .b with valHi := 0x12, dirHi := 0xFF } := by decide
theorem test_run_readlo : ((after (step (running .icsp [0x81] [0x5A, 0x01])) start).engine .icsp).rsp = [0x5A] := by
  decide
theorem test_run_readhi : ((after (step (running .a [0x83] [0x77])) start).engine .a).rsp = [0x77] := by decide
theorem test_run_loopon : ((after (step (running .icsp [0x84] [])) start).engine .icsp).loop = true := by decide
theorem test_run_setdiv : ((after (step (running .icsp [0x86, 0x0E, 0x00] [])) start).engine .icsp).div = 14 := by
  decide
theorem test_run_waits : ((after (step (running .icsp [0x8E, 0x07] [])) start).engine .icsp).delay = 8 := by decide
theorem test_run_waitl : ((after (step (running .icsp [0x8F, 0xFF, 0xFF] [])) start).engine .icsp).delay = 524288 := by
  decide
/-- R135: the buffer `AA` yields the response `FA AA`. -/
theorem test_run_probe : ((after (step (running .icsp [0xAA] [])) start).engine .icsp).rsp = [0xFA, 0xAA] := by decide
/-- R131: a `WAITHI` that starts blocks engine B and stays in the queue. -/
theorem test_run_waithi : ((after (step (running .b [0x88, 0x81] [])) start).engine .b)
    = { start.engine .b with q := [0x88, 0x81], st := .blocked } := by decide
/-- R97: an unlisted first byte is refused by name. -/
theorem test_run_unlisted : step (running .icsp [0x87] []) = .refused (.unlistedOpcode 0x87) := rfl

/-! ## Codec -/

/-- R180: a word answered with its frame decodes to it: `0x1234` is `00 24 68` on bit 5 of the 24 samples. -/
def framed1234 : List Byte :=
  [0, 0, 0, 0, 0, 0, 0, 0, 0, 0, 0x20, 0, 0, 0x20, 0, 0, 0, 0x20, 0x20, 0, 0x20, 0, 0, 0]
theorem test_decode_word : decodeWord framed1234 = 0x1234 := by decide
/-- R233: raw `0b01_000011` is `'B'`, 3. -/
theorem test_revision : revMajorOf 0b01000011 = 0x42 ∧ revMinorOf 0b01000011 = 3 := by decide
/-- R189: A samples `11 22` and B samples `AA BB` are the words `AA11 BB22`. -/
theorem test_cart_words : cartWords [0x11, 0x22] [0xAA, 0xBB] = [0xAA11, 0xBB22] := by decide

/-! ## Witnesses: encodings -/

theorem test_witness_EmittedStreamsDecodeWhole :
    ∀ i ∈ [Instr.setlo 0x30 0x38, .waitl 65535, .waits 7, .readlo], i.layerOne = true ∧ i.wellFormed = true := by
  decide

/-- VC with the two program commands apart. -/
def distinct : Config.Params := { Config.vc with opProgByte := 0xE1 }

theorem test_witness_WireFormsAreReadBack :
    (Instr.loadaddr 4194303).layerOne = false ∧ (Instr.loadaddr 4194303).wellFormed = true
      ∧ [distinct.opLoadPc, distinct.opReadInc, distinct.opProgInc, distinct.opProgByte, distinct.opIncAddr,
          distinct.opBulkErase, distinct.key0, distinct.key1, distinct.key2, distinct.key3].Nodup := by decide

theorem test_witness_FrameBitsAreTheFieldTable :
    (22 ∈ [4, 8, 16, 22] ∧ 4194303 < 2 ^ 22 ∧ 21 < 22) ∧ (4 ∈ [4, 8, 16, 22] ∧ 15 < 2 ^ 4 ∧ 4 < 5 ∧ 22 ≤ 22) := by
  decide

/-! ## Witnesses: emission -/

theorem test_witness_LayerOneEmissionIsBoundChecked :
    ((Instr.waitl 65535).layerOne = true ∧ (Instr.waitl 65535).wellFormed = true ∧ start.turn = .block
        ∧ ((emitting .icsp .icsp 16381).port .icsp).cur + (encode (.waitl 65535)).length
            ≤ (emitting .icsp .icsp 16381).limit .icsp)
      ∧ (emitting .icsp .icsp 16382).limit .icsp
          < ((emitting .icsp .icsp 16382).port .icsp).cur + (encode (.waitl 65535)).length
      ∧ ((emitting .cart .b 16383).mode = .cart ∧ (emitting .cart .b 16383).emitCh = .b
        ∧ ((emitting .cart .b 16383).port .b).cur + (encode .waithi).length ≤ (emitting .cart .b 16383).limit .b) := by
  decide

theorem test_witness_EmitterChecksFault :
    start.turn = .block ∧ 7 < 8 ∧ 0xFFFF < 65536 ∧ ¬ (start.mode = .cart ∧ start.emitCh = .b) := by decide

theorem test_witness_CalibratedDelaysAreExact :
    (2 * 131071 * 2 / 8 ≤ 0xFFFF ∧ ((emitting .icsp .icsp 16381).port .icsp).cur + 3 ≤ start.limit .icsp)
      ∧ start.limit .icsp < ((emitting .icsp .icsp 16382).port .icsp).cur + 3
      ∧ 0xFFFF < 2 * 131072 * 2 / 8 ∧ 10000 * 26 * 2 / 8 ≤ 0xFFFF ∧ 0xFFFF < 10000 * 27 * 2 / 8
      ∧ (22 ∈ [4, 8, 16, 22] ∧ 4194303 < 2 ^ 22 ∧ 255 ≤ 0xFF ∧ Emitter.cartLatch (255#8).toNat = .cartLatch 255)
      ∧ ((emitting .cart .b 16383).port .b).cur + 1 ≤ (emitting .cart .b 16383).limit .b
      ∧ (emitting .cart .b 16384).limit .b < ((emitting .cart .b 16384).port .b).cur + 1
      ∧ 0xFF < 256 ∧ 2 ^ 4 ≤ 16 ∧ 5 ∉ [4, 8, 16, 22] := by decide

/-- R186, R188: a latch and a sample on a channel of CART; a sample is one byte and one request. -/
theorem test_run_latch : bytesAt (after (runEmitter .a (.cartLatch 0x12) (emitting .cart .a 5)) start) 5 4
    = [some 0x82, some 0x12, some 0xFF, none] := by decide
theorem test_run_sample : (after (runEmitter .b .cartSample (emitting .cart .b 8200)) start).port .b
    = ⟨8201, 1, 0, []⟩ := by decide

theorem test_witness_BareCommandsAreEightClockedBits :
    ((Instr.key3, start.params.key3) ∈ [(Instr.incaddr, start.params.opIncAddr), (.key0, start.params.key0),
        (.key1, start.params.key1), (.key2, start.params.key2), (.key3, start.params.key3)])
      ∧ ((emitting .icsp .icsp 16336).port .icsp).cur + 48 ≤ start.params.cap
      ∧ start.params.cap < ((emitting .icsp .icsp 16337).port .icsp).cur + 48 := by decide

/-- VC with an erase delay one millisecond too long. -/
def longErase : State := State.resetWith { Config.vc with tEraseMs := 132 }

theorem test_witness_PayloadUnitsAreCommandFrameDelay :
    ((Instr.loadaddr 4194303).wellFormed = true ∧ ((emitting .icsp .icsp 16192).port .icsp).cur + 192 ≤ start.params.cap)
      ∧ ((Instr.progword 65535).wellFormed = true ∧ 2 * start.params.tProgWordUs * 2 / 8 ≤ 0xFFFF
        ∧ ((emitting .icsp .icsp 16189).port .icsp).cur + 195 ≤ start.params.cap)
      ∧ ((Instr.erase 15).wellFormed = true ∧ 0xFFFF < 2000 * longErase.params.tEraseMs * 2 / 8
        ∧ (longErase.port .icsp).cur + 192 ≤ longErase.params.cap)
      ∧ start.params.cap < ((emitting .icsp .icsp 16193).port .icsp).cur
          + (commandBytes start.params start.params.opLoadPc ++ payloadBytes start.params 0).length := by
  refine ⟨by decide, by decide, by decide, ?_⟩
  rw [List.length_append, commandBytes, payloadBytes, length_bitsBytes, length_bitsBytes]; decide

theorem test_witness_ReadWordIsCommandAndReadFrame :
    ((emitting .icsp .icsp 16160).port .icsp).cur + 224 ≤ start.params.cap
      ∧ start.params.cap < ((emitting .icsp .icsp 16161).port .icsp).cur + 224 := by decide

theorem test_witness_WidePayloadsFault :
    2 ^ 22 ≤ 4194304 ∧ 2 ^ 16 ≤ 65536 ∧ 2 ^ 8 ≤ 256 ∧ 2 ^ 4 ≤ 16 := by decide

/-! ## Witnesses: execution -/

theorem test_witness_PinWritesReplaceTheirBank : (running .a [] []).turn = .engine .a := by decide
theorem test_witness_PinReadsAppendOneSample :
    (running .a [] []).turn = .engine .a ∧ (Instr.readhi = .readlo ∨ Instr.readhi = .readhi)
      ∧ ((running .a [] []).engine .a).samples.script = []
      ∧ ((running .a [] [0x20, 7]).engine .a).samples.script = 0x20 :: [7] := by decide
theorem test_witness_SetupInstructionsWriteTheirRegister : (running .icsp [] []).turn = .engine .icsp := by decide
theorem test_witness_DelaysChangeNothingObservable :
    (running .b [] []).turn = .engine .b ∧ 7 < 8 ∧ 65535 < 65536 := by decide
theorem test_witness_ProbeAnswersItsEcho : (running .icsp [] []).turn = .engine .icsp := by decide

/-- Engine B blocked at a `WAITHI`, the ready line's next levels fixed. -/
def waiting (levels : List Bool) : State :=
  { (running .b [0x88, 0x81] []).setEngine .b { start.engine .b with q := [0x88, 0x81], st := .blocked } with
    levels := ⟨levels, 0⟩ }

/-- VC with the ready line wired to `CS_A`. -/
def wired : State := { waiting [] with params := { Config.vc with readyModel := .wired 0x08 } }

theorem test_witness_WaitHighBlocksUntilAPollReadsHigh :
    ((running .b [0x88] []).turn = .engine .b ∧ ((running .b [0x88] []).engine .b).st = .running)
      ∧ ((waiting [true]).turn = .engine .b ∧ ((waiting [true]).engine .b).st = .blocked)
      ∧ ((waiting [true]).params.readyModel = .external ∧ (waiting [true]).levels.script = true :: []
        ∧ (waiting []).levels.script = [])
      ∧ wired.turn = .engine .b ∧ (wired.engine .b).st = .blocked ∧ wired.params.readyModel = .wired 0x08 := by decide

theorem test_witness_StopsOnAnEngine :
    (running .a [] []).turn = .engine .a ∧ Chan.a ≠ .b ∧ 65536 ≤ 65536 ∧ 8 ≤ 8 := by decide

/-! ## Witnesses: codec -/

theorem test_witness_DecodedWordIsSamplesSevenToTwentyTwo : framed1234.length = 24 ∧ 15 < 16 := by decide

theorem test_witness_FramedAnswerDecodesToItsWord : framed1234.length = 24
    ∧ ∀ i, i < 24 →
        (framed1234[i]?.getD 0#8).getLsbD 5 = (frameValue (0x1234#16).toNat).getLsbD (23 - i) := by decide

/-- `n` answers of one word each. -/
def answersOf (n : Nat) : List (List Byte) := List.replicate n framed1234

theorem test_witness_BatchedAndSingleReadsAgree : ∀ a ∈ answersOf 64, a.length = 24 := by
  intro a h; rw [(List.mem_replicate.mp h).2]; rfl

/-- A state whose last read-backs on A and B are the given samples. -/
def gottenPair (sa sb : List Byte) : State :=
  (start.setPort .a { start.port .a with got := sa }).setPort .b { start.port .b with got := sb }

theorem test_witness_CartridgeBytesInterleave :
    (List.replicate 256 0x11#8).length = 256 ∧ (List.replicate 256 0xAA#8).length = 256 ∧ 255 < 256
      ∧ ((gottenPair (List.replicate 256 0x11#8) (List.replicate 256 0xAA#8)).port .a).got = List.replicate 256 0x11#8
      ∧ ((gottenPair (List.replicate 256 0x11#8) (List.replicate 256 0xAA#8)).port .b).got
          = List.replicate 256 0xAA#8 := by
  refine ⟨List.length_replicate, List.length_replicate, by decide, rfl, rfl⟩

/-- A state whose last read-back is the given samples. -/
def gotten (samples : List Byte) : State := start.setPort .icsp { start.port .icsp with got := samples }

theorem test_witness_RevisionSplitsIntoLetterAndMinor : framed1234.length = 24
    ∧ ((gotten (framed1234 ++ framed1234)).port .icsp).got = framed1234 ++ framed1234 := ⟨rfl, rfl⟩

theorem test_witness_IdentityReadsKeepTheirWords :
    (∀ a ∈ answersOf 32, a.length = 24) ∧ ((gotten (answersOf 32).flatten).port .icsp).got = (answersOf 32).flatten
      ∧ (answersOf 32).length = 32 ∧ (answersOf 10).length = 10 := by
  refine ⟨fun a h => ?_, rfl, rfl, rfl⟩
  rw [(List.mem_replicate.mp h).2]; rfl

/-! ## Witnesses: operations of the block -/

/-- A ready session at a cursor, of the length of VC's device, with one call to begin. -/
def ready (addr : Nat) (c : Call) : State :=
  { start with
    sess := .ready
    calls := [c]
    regs := ⟨some 0x7420, some 0, some 0x41, some 0, some (Vector.replicate 32 0), some (Vector.replicate 10 0),
      some addr, some 131072⟩ }

theorem test_witness_SeekChecksParityThenRange :
    ((ready 6 (.seek 2 .other)).task = none ∧ (ready 6 (.seek 2 .other)).calls = .seek 2 .other :: []
        ∧ (ready 6 (.seek 2 .other)).sess = .ready ∧ (ready 6 (.seek 2 .other)).regs.addr = some 6
        ∧ (ready 6 (.seek 2 .other)).regs.pmLen = some 131072)
      ∧ (131073 : Int) % 2 ≠ 0
      ∧ ((131072 : Int) % 2 = 0 ∧ ((0 : Int) + 131072 < 0 ∨ ((131072 : Nat) : Int) ≤ 0 + 131072))
      ∧ ((-8 : Int) % 2 = 0 ∧ ((6 : Nat) : Int) + -8 < 0)
      ∧ ((131070 : Int) % 2 = 0 ∧ (0 : Int) + 131070 = (131070 : Nat) ∧ 131070 < 131072)
      ∧ ((-6 : Int) % 2 = 0 ∧ ((6 : Nat) : Int) + -6 = (0 : Nat) ∧ 0 < 131072) := by decide

theorem test_witness_ReadBeginsByItsContract :
    ((ready 131072 (.read 5)).task = none ∧ (ready 131072 (.read 5)).calls = .read 5 :: []
        ∧ (ready 131072 (.read 5)).sess = .ready ∧ (ready 131072 (.read 5)).regs.addr = some 131072
        ∧ (ready 131072 (.read 5)).regs.pmLen = some 131072 ∧ 131072 ≤ 131072)
      ∧ ((ready 131071 (.read 5)).regs.addr = some 131071 ∧ 131071 < 131072 ∧ 131071 % 2 = 1)
      ∧ ((ready 131070 (.read 0)).calls = .read 0 :: [] ∧ 131070 < 131072 ∧ 131070 % 2 = 0)
      ∧ 0 < 5
      ∧ (({ ready 6 .close with task := some ⟨.read, [], [1, 2], none, start.saved⟩ } : State).task
          = some ⟨.read, [], [1, 2], none, start.saved⟩ ∧ (ready 6 .close).regs.addr = some 6) := by decide

theorem test_witness_ReadLoadsOnceAndReadsHalfTheBytes :
    0 < 129 ∧ ({ gotten (answersOf 2).flatten with task := some ⟨.read, [], [], none, start.saved⟩ } : State).task
        = some ⟨.read, [], [], none, start.saved⟩
      ∧ (∀ a ∈ answersOf 2, a.length = 24)
      ∧ ((gotten (answersOf 2).flatten).port .icsp).got = (answersOf 2).flatten := by
  refine ⟨by decide, rfl, fun a h => ?_, rfl⟩
  rw [(List.mem_replicate.mp h).2]; rfl

theorem test_witness_WriteBeginsByItsContract :
    ((ready 1 (.write [])).task = none ∧ (ready 1 (.write [])).calls = .write [] :: []
        ∧ (ready 1 (.write [])).sess = .ready ∧ (ready 1 (.write [])).regs.addr = some 1
        ∧ (ready 1 (.write [])).regs.pmLen = some 131072)
      ∧ ([(1 : Byte)] ≠ [] ∧ 1 % 2 = 1)
      ∧ (131070 % 2 = 0 ∧ 131072 < 131070 + [(1 : Byte), 2, 3].length)
      ∧ 131070 + [(1 : Byte), 2].length ≤ 131072
      ∧ (ready 6 .close).regs.addr = some 6 := by decide

theorem test_witness_WriteUnitsAreTheWordsAndTheOddByte :
    2 * 0 + 1 < [(0xFF : Byte), 0xFF, 0xFF].length ∧ [(0xFF : Byte), 0xFF, 0xFF].length % 2 = 1 := by decide

theorem test_witness_WriteBuffersFitTheCapacity : 16384 ≤ Config.vc.cap := by decide
/-- R243, R251: a Write of three bytes is one buffer, one flush and the end. -/
theorem test_write_flushes : transactions (writeProgram Config.vc 0 [1, 2, 3]) = [.begin, .flush, .finishWrite 3] := by
  decide

theorem test_witness_NotReadyFaults :
    (start.task = none ∧ start.sess ≠ .ready ∧ start.sessC ≠ .ready)
      ∧ ({ start with calls := [Call.bulkErase 3] } : State).calls = Call.bulkErase 3 :: []
      ∧ ({ start with calls := [Call.setAddress 0] } : State).calls = Call.setAddress 0 :: [] := by decide

/-- A ready cartridge session with one call to begin. -/
def cart (c : Call) : State := { start with mode := .cart, sessC := .ready, calls := [c] }

theorem test_witness_OtherOperationsBegin :
    (({ start with calls := [.openIcsp] } : State).task = none ∧ start.sess = .closed ∧ start.sessC = .closed)
      ∧ ((ready 0 .openIcsp).calls = .openIcsp :: [] ∧ (ready 0 .openIcsp).sess = .ready)
      ∧ ((cart .openIcsp).calls = .openIcsp :: [] ∧ (cart .openIcsp).sessC ≠ .closed)
      ∧ ((ready 0 .setupPins).calls = .setupPins :: [] ∧ (ready 0 .setupPins).sess ≠ .closed)
      ∧ (cart .releaseCart).calls = .releaseCart :: []
      ∧ ((ready 0 .close).calls = .close :: [] ∧ (ready 0 .close).sess ≠ .closed)
      ∧ ({ start with calls := [.close] } : State).calls = .close :: []
      ∧ ((cart .resetCart).calls = .resetCart :: [] ∧ (cart .resetCart).sessC = .ready)
      ∧ (cart .readRom512).calls = .readRom512 :: []
      ∧ ((ready 0 (.bulkErase 15)).calls = .bulkErase 15 :: [] ∧ 15 ≤ 0xF)
      ∧ ((ready 0 (.bulkErase 16)).calls = .bulkErase 16 :: [] ∧ 0xF < 16)
      ∧ ((cart .setupPins).calls = .setupPins :: [] ∧ (cart .setupPins).sess = .closed)
      ∧ ((cart (.setAddress 4294967295)).calls = .setAddress 4294967295 :: [] ∧ 4294967295 < 2 ^ 32)
      ∧ ((cart (.setAddress 4294967296)).calls = .setAddress 4294967296 :: [] ∧ 2 ^ 32 ≤ 4294967296) := by decide

/-- The buffer after reset in VC is in order. -/
theorem start_bufferOk : BufferOk start := by
  refine ⟨rfl, rfl, by simp [start, State.resetWith], fun ch => ?_, fun ch i h1 h2 => ?_⟩
  · cases ch <;> decide
  · have h : (start.port ch).cur = start.base ch := by cases ch <;> rfl
    omega

/-- A pin write emitted, its three bytes at the cursor. -/
def pinned (s : State) (ch : Chan) : State :=
  match s.emitBytes ch [0x80, 0x30, 0x38] 0 with
  | .ok t => t
  | .error _ => s

theorem pinned_bufferOk {s : State} (h : BufferOk s) (ch : Chan) : BufferOk (pinned s ch) := by
  unfold pinned; split
  · rename_i t ht; exact h.emitBytes ht
  · exact h

/-- An operation in progress that began in the state after reset. -/
def work (op : OpName) (prog : List BlockStep) : Task := ⟨op, prog, [], none, start.saved⟩

/-- A pin write composed on A and on B, or on the channels given, in an operation, the transport's next answers
fixed. -/
def composed (op : OpName) (chs : List Chan) (answers : List Answer) : State :=
  { chs.foldl pinned start with task := some (work op [.finishPlain]), answers := ⟨answers, 0⟩ }

theorem composed_bufferInv (op : OpName) (chs : List Chan) (answers : List Answer) :
    BufferInv (composed op chs answers) := by
  have h : ∀ (l : List Chan) (s : State), BufferOk s → BufferOk (l.foldl pinned s) := by
    intro l
    induction l with
    | nil => exact fun _ h => h
    | cons c l ih => exact fun s hs => ih _ (pinned_bufferOk hs c)
  have hp : ∀ (l : List Chan) (s : State), s.params = start.params → (l.foldl pinned s).params = start.params := by
    intro l
    induction l with
    | nil => exact fun _ h => h
    | cons c l ih =>
      refine fun s hs => ih _ ?_
      unfold pinned
      rcases State.emitBytes_cases s c [0x80, 0x30, 0x38] 0 with ⟨t, e, -, rfl⟩ | e <;> rw [e] <;> exact hs
  exact ⟨(h chs start start_bufferOk).congr rfl rfl rfl, start_bufferOk.congr (hp chs start rfl) rfl rfl⟩

theorem test_witness_FlushSendsExactlyTheComposedBytes :
    start.mode = .icsp ∧ (cart .resetCart).mode = .cart
      ∧ BufferInv (composed .write [.icsp] [.count 3]) ∧ (composed .write [.icsp] [.count 3]).answer = .count 3
      ∧ ((composed .write [.icsp] [.count 3]).port .icsp).cur = 3
      ∧ (composed .write [.icsp] [.count 3]).answers.script = .count 3 :: []
      ∧ (composed .write [.icsp] []).answers.script = [] :=
  ⟨rfl, rfl, composed_bufferInv _ _ _, rfl, rfl, rfl, rfl⟩

/-- The transport's answers left, as a list. -/
def answered (more : List Answer) : Draws Answer := ⟨more, 0⟩

/-- Both halves not empty, each count the length of its half; A alone; B alone; neither. -/
theorem test_witness_PairedFlushSendsBothHalves_success :
    (BufferInv (composed .setAddress [.a, .b] [.count 3, .count 3])
        ∧ ((composed .setAddress [.a, .b] [.count 3, .count 3]).port .b).cur = start.params.half + 3
        ∧ (composed .setAddress [.a, .b] [.count 3, .count 3]).answer = .count 3
        ∧ answered [.count 3] = (composed .setAddress [.a, .b] [.count 3, .count 3]).answers.next
        ∧ ((composed .setAddress [.a, .b] [.count 3, .count 3]).port .a).cur = 3
        ∧ ({ composed .setAddress [.a, .b] [.count 3, .count 3] with answers := answered [.count 3] } : State).answer
            = .count 3
        ∧ answered [] = (answered [.count 3]).next)
      ∧ (BufferInv (composed .resetCart [.a] [.count 3])
        ∧ ((composed .resetCart [.a] [.count 3]).port .b).cur = (composed .resetCart [.a] [.count 3]).params.half
        ∧ ((composed .resetCart [.a] [.count 3]).port .a).cur ≤ 3
        ∧ (composed .resetCart [.a] [.count 3]).answer = .count 3)
      ∧ (BufferInv (composed .setupPins [.b] [.count 3])
        ∧ ((composed .setupPins [.b] [.count 3]).port .b).cur
            ≤ (composed .setupPins [.b] [.count 3]).params.half + 3
        ∧ ((composed .setupPins [.b] [.count 3]).port .a).cur = 0)
      ∧ (BufferInv (composed .setupPins [] []) ∧ ((composed .setupPins [] []).port .a).cur = 0
        ∧ ((composed .setupPins [] []).port .b).cur = (composed .setupPins [] []).params.half) :=
  ⟨⟨composed_bufferInv _ _ _, by decide, rfl, rfl, by decide, rfl, rfl⟩,
    ⟨composed_bufferInv _ _ _, rfl, by decide, rfl⟩, ⟨composed_bufferInv _ _ _, by decide, rfl⟩,
    composed_bufferInv _ _ _, rfl, rfl⟩

theorem test_witness_PairedFlushSendsBothHalves :
    (BufferInv (composed .setAddress [.a, .b] [.error])
        ∧ (composed .setAddress [.a, .b] [.error]).task = some (work .setAddress [.finishPlain])
        ∧ OpName.setAddress ≠ .close ∧ (composed .setAddress [.a, .b] [.error]).answer = .error
        ∧ (composed .setAddress [.a, .b] [.error]).params.half < ((composed .setAddress [.a, .b] [.error]).port .b).cur)
      ∧ ((composed .setAddress [.a, .b] [.count 2]).answer = .count 2
        ∧ (composed .setAddress [.a, .b] [.count 2]).params.half + 2
            < ((composed .setAddress [.a, .b] [.count 2]).port .b).cur)
      ∧ ((composed .setAddress [.a, .b] [.count 3, .error]).answer = .count 3
        ∧ ({ composed .setAddress [.a, .b] [.count 3, .error] with
            answers := (composed .setAddress [.a, .b] [.count 3, .error]).answers.next } : State).answer = .error
        ∧ ((composed .setAddress [.a, .b] [.count 3, .error]).port .b).cur
            ≤ (composed .setAddress [.a, .b] [.count 3, .error]).params.half + 3
        ∧ 0 < ((composed .setAddress [.a, .b] [.count 3, .error]).port .a).cur)
      ∧ (({ composed .setAddress [.a, .b] [.count 3, .count 2] with
            answers := (composed .setAddress [.a, .b] [.count 3, .count 2]).answers.next } : State).answer = .count 2
        ∧ 2 < ((composed .setAddress [.a, .b] [.count 3, .count 2]).port .a).cur)
      ∧ (BufferInv (composed .resetCart [.a] [.count 2])
        ∧ (composed .resetCart [.a] [.count 2]).task = some (work .resetCart [.finishPlain])
        ∧ ((composed .resetCart [.a] [.count 2]).port .b).cur = (composed .resetCart [.a] [.count 2]).params.half
        ∧ (composed .resetCart [.a] [.count 2]).answer = .count 2
        ∧ 2 < ((composed .resetCart [.a] [.count 2]).port .a).cur) :=
  ⟨⟨composed_bufferInv _ _ _, rfl, by decide, rfl, by decide⟩, ⟨rfl, by decide⟩,
    ⟨rfl, rfl, by decide, by decide⟩, ⟨rfl, by decide⟩, composed_bufferInv _ _ _, rfl, rfl, rfl, by decide⟩

/-- R352: a failing write leaves the cursor where it was before the operation. -/
theorem test_error_restores_cursor :
    (after (runStep .flush (composed .write [.icsp] [.error])) start).port .icsp = start.port .icsp := by decide

/-- An operation in progress that is owed two samples, the engine's responses and the transport's next answer
given. -/
def owing (op : OpName) (rsp : List Byte) (answer : Answer) : State :=
  { (start.setEngine .icsp { start.engine .icsp with rsp := rsp }).setPort .icsp
      { start.port .icsp with owed := 2 } with
    task := some (work op [.finishPlain])
    answers := ⟨[answer], 0⟩ }

theorem test_witness_ReadBackTakesTheSamplesOwed :
    (owing .read [1, 2] (.count 0)).task = some (work .read [.finishPlain])
      ∧ (owing .read [1, 2] (.count 0)).answer = .count 0 ∧ ((owing .read [1, 2] (.count 0)).port .icsp).owed ≠ 0
      ∧ ((owing .read [1, 2] (.count 0)).port .icsp).owed ≤ ((owing .read [1, 2] (.count 0)).engine .icsp).rsp.length
      ∧ ((owing .read [1] (.count 0)).engine .icsp).rsp.length < ((owing .read [1] (.count 0)).port .icsp).owed
      ∧ (composed .write [.icsp] []).task = some (work .write [.finishPlain])
      ∧ ((composed .write [.icsp] []).port .icsp).owed = 0 := by
  decide

theorem owing_bufferInv (op : OpName) (rsp : List Byte) (answer : Answer) : BufferInv (owing op rsp answer) := by
  have h : ∀ p, p.cur = (start.port .icsp).cur → BufferOk (start.setPort .icsp p) :=
    fun p hp => start_bufferOk.setPort_cur .icsp hp
  exact ⟨(h { start.port .icsp with owed := 2 } rfl).congr rfl rfl rfl, start_bufferOk.congr rfl rfl rfl⟩

theorem test_witness_TransportErrorEndsTheOperation :
    (BufferInv (owing .read [] .error) ∧ (owing .read [] .error).task = some (work .read [.finishPlain])
        ∧ OpName.read ≠ .close ∧ (owing .read [] .error).answer = .error
        ∧ ((owing .read [] .error).port .icsp).owed ≠ 0)
      ∧ (BufferInv (composed .setupPins [.a] [.error]) ∧ OpName.setupPins ≠ .close
        ∧ (composed .setupPins [.a] [.error]).task = some (work .setupPins [.finishPlain])
        ∧ (composed .setupPins [.a] [.error]).answer = .error
        ∧ 0 < ((composed .setupPins [.a] [.error]).port .a).cur)
      ∧ ((composed .write [.icsp] [.count 2]).task = some (work .write [.finishPlain]) ∧ OpName.write ≠ .close
        ∧ (composed .write [.icsp] [.count 2]).answer = .count 2
        ∧ 2 < ((composed .write [.icsp] [.count 2]).port .icsp).cur)
      ∧ (BufferInv (owing .openIcsp [] .error) ∧ OpName.openIcsp ≠ .close
        ∧ (owing .openIcsp [] .error).task = some (work .openIcsp [.finishPlain])
        ∧ (owing .openIcsp [] .error).answer = .error
        ∧ ((∃ o, BlockStep.readEmpty .o1 = .readEmpty o) ∧ TransportCall.read = .read)
        ∧ (BlockStep.readEcho = .readEcho ∧ TransportCall.read = .read)
        ∧ BlockStep.transport .setBitMode = .transport .setBitMode)
      ∧ (BufferInv (composed .write [.icsp] [.error]) ∧ (composed .write [.icsp] [.error]).answer = .error
        ∧ (composed .write [.icsp] [.error]).task = some (work .write [.finishPlain])
        ∧ BlockStep.flush = .flush ∧ TransportCall.write = .write) :=
  ⟨⟨owing_bufferInv _ _ _, rfl, by decide, rfl, by decide⟩,
    ⟨composed_bufferInv _ _ _, by decide, rfl, rfl, by decide⟩, ⟨rfl, by decide, rfl, by decide⟩,
    ⟨owing_bufferInv _ _ _, by decide, rfl, rfl, ⟨⟨_, rfl⟩, rfl⟩, ⟨rfl, rfl⟩, rfl⟩,
    composed_bufferInv _ _ _, rfl, rfl, rfl, rfl⟩

/-- A self-test that has collected the given bytes. -/
def echoing (got rsp : List Byte) : State :=
  (owing .openIcsp rsp (.count 1)).setPort .icsp { start.port .icsp with got := got }

theorem test_witness_SelfTestAcceptsOnlyTheEcho :
    ((owing .openIcsp [] (.count 2)).task = some (work .openIcsp [.finishPlain])
        ∧ (work .openIcsp [.finishPlain]).op = .openIcsp ∧ (owing .openIcsp [] (.count 2)).answer = .count 2
        ∧ ((owing .openIcsp [] (.count 2)).engine .icsp).rsp.take 2 = [])
      ∧ ((owing .openIcsp [7] (.count 2)).engine .icsp).rsp.take 2 ≠ []
      ∧ ((echoing [0xFA] [0xAA, 7]).answer = .count 1 ∧ 1 = min 1 (2 - ((echoing [0xFA] [0xAA, 7]).port .icsp).got.length)
        ∧ [0xFA, 0xAA] = ((echoing [0xFA] [0xAA, 7]).port .icsp).got
            ++ ((echoing [0xFA] [0xAA, 7]).engine .icsp).rsp.take 1)
      ∧ [0xFA, 0xAB] = ((echoing [0xFA] [0xAB]).port .icsp).got ++ ((echoing [0xFA] [0xAB]).engine .icsp).rsp.take 1
      ∧ ([0xFA] = ((echoing [] [0xFA, 0xAA]).port .icsp).got
            ++ ((echoing [] [0xFA, 0xAA]).engine .icsp).rsp.take 1) := by decide

/-- R223: the echo collected over two reads is accepted, the second byte of a longer FIFO alone is taken. -/
theorem test_echo_over_two_reads :
    ((after (runStep .readEcho (echoing [0xFA] [0xAA, 7])) start).engine .icsp).rsp = [7]
      ∧ (after (runStep .readEcho (echoing [0xFA] [0xAA, 7])) start).task = some (work .openIcsp [.finishPlain]) := by
  decide

theorem test_witness_UnknownDevicesAreRejected :
    ((ready 0 .close).regs.devId = some 0x7420 ∧ pmLookup (ready 0 .close).params 0x7420 = some 131072)
      ∧ pmLookup (ready 0 .close).params 0x7421 = none
      ∧ ((ready 0 .close).params.pmLen = [] ++ (0x7420, 131072) :: [] ∧ ∀ e ∈ (ready 0 .close).params.pmLen, e.1 ≠ 0x7421)
      ∧ (({ ready 0 .close with task := some (work .openIcsp [.finishOpen]) } : State).task
          = some (work .openIcsp [.finishOpen]) ∧ (work .openIcsp [.finishOpen]).op = .openIcsp) := by decide

/-- VC with a closing delay too long. -/
def longClose : State :=
  { State.resetWith { Config.vc with tCloseUs := 131072 } with task := some (work .close []) }

theorem test_witness_CloseAlwaysCloses :
    ((owing .close [] .error).task = some (work .close [.finishPlain]) ∧ (owing .close [] .error).answer = .error
        ∧ (work .close [.finishPlain]).firstError = none)
      ∧ ({ work .close [] with firstError := some .endOfMemory } : Task).firstError = some .endOfMemory
      ∧ (BufferInv (composed .close [] [.count 5, .error, .error])
        ∧ (composed .close [] [.count 5, .error, .error]).turn = .block
        ∧ (composed .close [] [.count 5, .error, .error]).mode = .icsp
        ∧ 2 * (composed .close [] [.count 5, .error, .error]).params.tCloseUs * 2 / 8 ≤ 0xFFFF
        ∧ (composed .close [] [.count 5, .error, .error]).answers.script = .count 5 :: .error :: .error :: [])
      ∧ (longClose.task = some (work .close []) ∧ 0xFFFF < 2 * longClose.params.tCloseUs * 2 / 8) :=
  ⟨⟨rfl, rfl, rfl⟩, rfl, ⟨composed_bufferInv _ _ _, rfl, rfl, by decide, rfl⟩, rfl, by decide⟩

/-! ## Witnesses: the machine -/

theorem test_witness_EngineStepRunsTheDecodedInstruction :
    (running .a [0x80, 0x30, 0x38, 0x81] []).turn = .engine .a
      ∧ decode ((running .a [0x80, 0x30, 0x38, 0x81] []).engine .a).q = .ok (.setlo 0x30 0x38, [0x81])
      ∧ (∃ t, exec (.setlo 0x30 0x38) (running .a [0x80, 0x30, 0x38, 0x81] []) = .next t)
      ∧ (∃ r, exec .waithi (running .a [0x88] []) = .refused r) := ⟨rfl, rfl, ⟨_, rfl⟩, ⟨_, rfl⟩⟩

/-- An operation of the block about to run one step. -/
def doing (m : BlockStep) : State := { start with task := some (work .openIcsp [m, .flush]) }

theorem test_witness_BlockStepRunsTheEmittedInstruction :
    ((doing .flush).turn = .block ∧ (doing .flush).task = some (work .openIcsp [.flush, .flush])
        ∧ (work .openIcsp [.flush, .flush]).prog = .flush :: [.flush])
      ∧ (start.task = none ∧ start.calls = [] ∧ start.turns.script = [])
      ∧ ((ready 6 (.read 5)).task = none ∧ (ready 6 (.read 5)).calls = .read 5 :: [] ∧ (ready 6 (.read 5)).turn = .block)
      ∧ ({ start with turns := ⟨[.engine .b], 0⟩ } : State).turns.script = .engine .b :: [] :=
  ⟨⟨rfl, rfl, rfl⟩, ⟨rfl, rfl, rfl⟩, ⟨rfl, rfl, rfl⟩, rfl⟩

theorem test_witness_EngineAtNoInstruction :
    ((running .b [0x87, 0x01] []).turn = .engine .b ∧ ((running .b [0x87, 0x01] []).engine .b).q = 0x87 :: [0x01]
        ∧ instrLength 0x87 = none)
      ∧ (((running .b [0x8E, 0x08] []).engine .b).q = 0x8E :: 0x08 :: [] ∧ 7 < (0x08 : Byte).toNat)
      ∧ ((running .b [] []).engine .b).q = []
      ∧ (((running .b [0x80, 0x01] []).engine .b).q = 0x80 :: [0x01] ∧ instrLength 0x80 = some 3
        ∧ [(0x01 : Byte)].length + 1 < 3) := by decide

theorem test_witness_NothingPassesAWaitBeforeAHighPoll :
    ((running .b [0x88, 0x81] []).turn = .engine .b ∧ ((running .b [0x88, 0x81] []).engine .b).q = 0x88 :: [0x81]
        ∧ ((running .b [0x88, 0x81] []).engine .b).st = .running)
      ∧ (((waiting [false]).engine .b).st = .blocked ∧ (waiting [false]).readyLevel = false)
      ∧ (((waiting [true]).engine .b).st = .blocked ∧ (waiting [true]).readyLevel = true) := by decide

theorem test_witness_steps_answer :
    (∃ t, step (running .b [0x88, 0x81] []) = .next t) ∧ (∃ t, step (waiting [false]) = .next t)
      ∧ (∃ t, step (waiting [true]) = .next t) := ⟨⟨_, rfl⟩, ⟨_, rfl⟩, ⟨_, rfl⟩⟩

theorem test_witness_QueuesAndResponsesAreFifo :
    ((∃ t, step (doing (.emit .icsp (.instr .probe))) = .next t) ∧ (doing (.emit .icsp (.instr .probe))).turn = .block)
      ∧ (∃ t, step (running .icsp [0xAA] []) = .next t) ∧ (running .icsp [0xAA] []).turn = .engine .icsp :=
  ⟨⟨⟨_, rfl⟩, rfl⟩, ⟨_, rfl⟩, rfl⟩

theorem test_witness_EngineStepsStayInTheirEngine :
    (running .icsp [0xAA] []).turn = .engine .icsp ∧ (∃ t, step (running .icsp [0xAA] []) = .next t)
      ∧ Chan.a ≠ .icsp := ⟨rfl, ⟨_, rfl⟩, by decide⟩

theorem test_witness_BlockStepsLeaveEngineRegisters :
    (doing (.emit .icsp (.instr .probe))).turn = .block
      ∧ ∃ t, step (doing (.emit .icsp (.instr .probe))) = .next t := ⟨rfl, ⟨_, rfl⟩⟩

theorem test_witness_PinRegistersChangeOnlyByPinWrites :
    ∃ t u, step (running .a [0x80, 0x30, 0x38] []) = .next t
      ∧ (t.engine .a).valLo ≠ ((running .a [0x80, 0x30, 0x38] []).engine .a).valLo
      ∧ step (running .a [0x82, 0x00, 0x01] []) = .next u
      ∧ (u.engine .a).dirHi ≠ ((running .a [0x82, 0x00, 0x01] []).engine .a).dirHi :=
  ⟨_, _, rfl, by decide, rfl, by decide⟩

theorem test_witness_FaultMarkIsSticky :
    ∃ t u, step (doing (.emit .icsp (.instr (.waits 8)))) = .next t
      ∧ t.results = (doing (.emit .icsp (.instr (.waits 8)))).results ++ [.marked .paramRange]
      ∧ step ({ start with faulted := true } : State) = .next u :=
  ⟨_, _, rfl, rfl, rfl⟩

theorem test_witness_StepsKeepTheBufferInvariant :
    BufferInv (composed .write [.icsp] [.count 3]) ∧ ∃ t, step (composed .write [.icsp] [.count 3]) = .next t :=
  ⟨composed_bufferInv _ _ _, ⟨_, rfl⟩⟩

theorem test_witness_NoStepReadsGarbage : BufferInv (composed .write [.icsp] [.count 3]) := composed_bufferInv _ _ _

theorem test_witness_StepsKeepTheSessionInvariant :
    SessionInv (ready 6 (.seek 2 .start)) ∧ ∃ t, step (ready 6 (.seek 2 .start)) = .next t := by
  refine ⟨⟨fun _ => ⟨rfl, rfl⟩, fun h => absurd rfl h, fun h => ?_, fun t h => ?_⟩, ⟨_, rfl⟩⟩
  · cases h
  · cases h

theorem test_witness_StepsKeepReadySessionsFull :
    ReadyInv (ready 6 (.seek 2 .start)) ∧ ∃ t, step (ready 6 (.seek 2 .start)) = .next t := by
  refine ⟨⟨fun _ => ⟨rfl, rfl, rfl, rfl, rfl, rfl, rfl, rfl⟩, fun t h => ?_⟩, ⟨_, rfl⟩⟩
  cases h

theorem test_witness_StepsKeepBlockedEnginesAtTheirWait :
    WaitInv (waiting [true]) ∧ ∃ t, step (waiting [true]) = .next t := by
  refine ⟨fun c h => ?_, ⟨_, rfl⟩⟩
  cases c
  · exact absurd h (by decide)
  · exact absurd h (by decide)
  · exact ⟨rfl, rfl⟩

end Sys2Proof.Tests
end

section
/-! The block's turn: the equations of the turn draw, of a call's beginning and of the block's step, and the statement
they make up. -/

namespace Sys2Proof.Machine

/-! ## Draws, by what is listed -/

theorem Draws.value_listed {α : Type} (free : Nat → α) {d : Draws α} {x : α} {xs : List α} (h : d.script = x :: xs) :
    d.value free = x := by
  simp only [Draws.value, h]

theorem Draws.next_listed {α : Type} {d : Draws α} {x : α} {xs : List α} (h : d.script = x :: xs) :
    d.next = { d with script := xs } := by
  simp only [Draws.next, h]

theorem Draws.value_free {α : Type} (free : Nat → α) {d : Draws α} (h : d.script = []) :
    d.value free = free d.count := by
  simp only [Draws.value, h]

theorem Draws.next_free {α : Type} {d : Draws α} (h : d.script = []) : d.next = { d with count := d.count + 1 } := by
  simp only [Draws.next, h]

theorem State.nextTurn_listed {s : State} {a : Agent} {more : List Agent} (h : s.turns.script = a :: more) :
    s.nextTurn = { s with turn := a, turns := { s.turns with script := more } } := by
  rw [State.nextTurn, Draws.value_listed Config.turn h, Draws.next_listed h]

theorem State.nextTurn_free {s : State} (h : s.turns.script = []) :
    s.nextTurn = { s with
      turn := Config.turn s.turns.count, turns := { s.turns with count := s.turns.count + 1 } } := by
  rw [State.nextTurn, Draws.value_free Config.turn h, Draws.next_free h]

/-! ## Beginning a call -/

/-- A call, however it begins (an operation started, an end at once, a fault), leaves the calls after it alone. -/
@[simp] theorem State.beginCall_calls (s : State) (c : Call) : (s.beginCall c).calls = s.calls := by
  cases c with
  | openIcsp => simp only [State.beginCall, State.callOpen]; split <;> rfl
  | read n =>
    simp only [State.beginCall, State.callRead]
    split
    · rfl
    · split_ifs <;> rfl
  | seek offset w =>
    simp only [State.beginCall, State.callSeek]
    split
    · rfl
    · split
      · rfl
      · split_ifs <;> rfl
  | write bytes =>
    simp only [State.beginCall, State.callWrite]
    split
    · rfl
    · split_ifs <;> rfl
  | bulkErase regions => simp only [State.beginCall, State.callErase]; split_ifs <;> rfl
  | close => simp only [State.beginCall, State.callClose]; split <;> rfl
  | setupPins => simp only [State.beginCall, State.callSetup]; split <;> rfl
  | resetCart => simp only [State.beginCall, State.callReset]; split <;> rfl
  | setAddress a => simp only [State.beginCall, State.callAddress]; split_ifs <;> rfl
  | readRom512 => simp only [State.beginCall, State.callRom]; split <;> rfl
  | releaseCart => rfl

/-! ## The block's step, by what the block has to do -/

theorem step_of_block_turn {s : State} (h : s.turn = .block) : step s = passTurn (blockStep s) := by
  simp only [step, agentStep, h]

theorem blockStep_of_prog {s : State} {task : Task} {m : BlockStep} {rest : List BlockStep}
    (ht : s.task = some task) (hp : task.prog = m :: rest) :
    blockStep s = runStep m { s with task := some { task with prog := rest } } := by
  simp only [blockStep, ht, hp]

theorem blockStep_of_call {s : State} {c : Call} {cs : List Call} (ht : s.task = none) (hc : s.calls = c :: cs) :
    blockStep s = .next ({ s with calls := cs }.beginCall c) := by
  simp only [blockStep, ht, hc]

theorem blockStep_idle {s : State} (ht : s.task = none) (hc : s.calls = []) : blockStep s = .next s := by
  simp only [blockStep, ht, hc]

/-- Settles O46: the equations of the block's step and of the turn draw, with `State.beginCall_calls` for what a call
leaves of the calls after it. -/
theorem blockStepRunsTheEmittedInstruction : Obligations.BlockStepRunsTheEmittedInstruction := by
  intro s
  refine ⟨step_of_block_turn, rfl, fun _ => rfl, fun _ => rfl, fun _ _ _ => blockStep_of_prog, fun htask => ⟨?_, ?_⟩,
    fun _ _ => rfl, fun _ _ => rfl, fun _ _ => State.nextTurn_listed, State.nextTurn_free⟩
  · intro c cs hcalls
    exact ⟨_, blockStep_of_call htask hcalls, State.beginCall_calls _ c⟩
  · exact blockStep_idle htask

end Sys2Proof.Machine
end

section
/-! The machine's step, by the agent on turn: what the decoder read, what a step of an engine makes of that engine, and
the statements about every step that follow from these and from `BlockFrame`. -/

namespace Sys2Proof.Machine

/-! ## What the decoder read -/

theorem encode_of_decodeF1 {op : Byte} {i : Instr} (h : decodeF1 op = some i) : encode i = [op] := by
  unfold decodeF1 at h
  split_ifs at h <;> cases h <;> simp only [encode, *]

theorem encode_of_decodeF3 {op b1 b2 : Byte} {i : Instr} (h : decodeF3 op b1 b2 = some i) :
    encode i = [op, b1, b2] := by
  unfold decodeF3 at h
  split_ifs at h <;> cases h <;> simp only [encode, lo8_le16, hi8_le16, *]

/-- A decoded stream is the encoding of its instruction and then the rest (R94, R99). -/
theorem eq_encode_append_of_decode {bytes rest : List Byte} {i : Instr} (h : decode bytes = .ok (i, rest)) :
    bytes = encode i ++ rest := by
  cases bytes with
  | nil => cases h
  | cons op tl =>
    simp only [decode] at h
    split at h
    · rename_i j hj
      cases h
      rw [encode_of_decodeF1 hj, List.singleton_append]
    · split at h
      · rename_i hop
        split at h
        · cases h
        · split at h
          · cases h
            simp [encode, lo8, hop]
          · cases h
      · split at h
        · cases h
        · split at h
          · split at h
            · rename_i j hj
              cases h
              rw [encode_of_decodeF3 hj]
              rfl
            · cases h
          · cases h

theorem decode_of_waitHigh_front {bytes : List Byte} (h : bytes.head? = some Config.opWaitHigh) :
    ∃ rest, decode bytes = .ok (.waithi, rest) := by
  obtain ⟨rest, rfl⟩ := List.head?_eq_some_iff.mp h
  exact ⟨rest, rfl⟩

/-! ## An engine's step -/

/-- What a step of engine `c` makes of that engine: bytes leave the front of its queue and join the end of its
responses; a bank changes by a pin write at the front of the queue alone, to the bytes of that pin write; it ends the
step blocked only where it was so before or is B at a `WAITHI`, and a `WAITHI` then stays at the front. -/
structure EngineStepped (c : Chan) (e f : Engine) : Prop where
  q : ∃ n, f.q = e.q.drop n
  rsp : ∃ more, f.rsp = e.rsp ++ more
  lo : (f.valLo = e.valLo ∧ f.dirLo = e.dirLo) ∨ ∃ rest, e.q = Config.opSetLo :: f.valLo :: f.dirLo :: rest
  hi : (f.valHi = e.valHi ∧ f.dirHi = e.dirHi) ∨ ∃ rest, e.q = Config.opSetHi :: f.valHi :: f.dirHi :: rest
  blocked : f.st = .blocked →
    (e.st = .blocked ∨ (c = .b ∧ e.q.head? = some Config.opWaitHigh))
      ∧ (e.q.head? = some Config.opWaitHigh → f.q = e.q)

theorem EngineStepped.refl (c : Chan) (e : Engine) : EngineStepped c e e :=
  ⟨⟨0, rfl⟩, ⟨[], by simp⟩, .inl ⟨rfl, rfl⟩, .inl ⟨rfl, rfl⟩, fun h => ⟨.inl h, fun _ => rfl⟩⟩

/-- An instruction executed that leaves the queue, as every one does but a wait still blocked. -/
theorem Executed.retired {c : Chan} {i : Instr} {rest : List Byte} {e f : Engine} (hx : Executed c i e f)
    (hd : decode e.q = .ok (i, rest)) (hw : ¬ (i = .waithi ∧ f.st = .blocked)) :
    EngineStepped c e { f with q := rest } where
  q := decode_rest hd
  rsp := hx.rsp
  lo := hx.lo.imp id fun hi => ⟨rest, by rw [eq_encode_append_of_decode hd, hi]; rfl⟩
  hi := hx.hi.imp id fun hi => ⟨rest, by rw [eq_encode_append_of_decode hd, hi]; rfl⟩
  blocked hb := by
    have hi : i ≠ .waithi := fun hi => hw ⟨hi, hb⟩
    refine ⟨.inl ?_, fun hq => ?_⟩
    · rcases hx.st with hst | ⟨h, -⟩
      · exact hst.symm.trans hb
      · exact absurd h hi
    · obtain ⟨rest', hd'⟩ := decode_of_waitHigh_front hq
      rw [hd'] at hd
      cases hd
      exact absurd rfl hi

/-- A wait still blocked stays at the front of the queue (R131). -/
theorem Executed.waiting {c : Chan} {rest : List Byte} {e f : Engine} (hx : Executed c .waithi e f)
    (hd : decode e.q = .ok (.waithi, rest)) : EngineStepped c e f where
  q := ⟨0, hx.q⟩
  rsp := hx.rsp
  lo := .inl (hx.lo.resolve_right (by simp))
  hi := .inl (hx.hi.resolve_right (by simp))
  blocked hb := by
    refine ⟨?_, fun _ => hx.q⟩
    rcases hx.st with hst | ⟨-, hc⟩
    · exact .inl (hst.symm.trans hb)
    · refine .inr ⟨hc, ?_⟩
      rw [eq_encode_append_of_decode hd]
      rfl

/-- An engine's step writes that engine, as `EngineStepped` says, and the levels left to come, nothing else. -/
theorem engineStep_stepped {s t : State} {c : Chan} (ht : s.turn = .engine c) (h : engineStep c s = .next t) :
    ∃ e lv, EngineStepped c (s.engine c) e ∧ t = { s with engines := s.engines.set c e, levels := lv } := by
  rcases engineStep_cases ht h with rfl | ⟨i, rest, e, lv, hd, hx, rfl⟩
  · exact ⟨_, t.levels, .refl c _, by rw [State.engine, PerChan.set_get]⟩
  · refine ⟨_, lv, ?_, rfl⟩
    split
    · rename_i hw
      obtain ⟨rfl, -⟩ := hw
      exact hx.waiting hd
    · rename_i hw
      exact hx.retired hd hw

/-! ## The machine's step -/

theorem passTurn_eq_next {o : Host.Outcome State Fault Refusal} {t : State} (h : passTurn o = .next t) :
    ∃ u, o = .next u ∧ t = u.nextTurn := by
  cases o with
  | next u => cases h; exact ⟨u, rfl, rfl⟩
  | fault f => cases h
  | refused r => cases h

/-- All a step can do before the next turn is drawn: a step of the block, or one of the engine on turn. -/
theorem step_cases {s t : State} (h : step s = .next t) :
    ∃ u, t = u.nextTurn ∧
      ((s.turn = .block ∧ blockStep s = .next u ∧ BlockFrame s u)
        ∨ ∃ c e lv, s.turn = .engine c ∧ EngineStepped c (s.engine c) e
            ∧ u = { s with engines := s.engines.set c e, levels := lv }) := by
  obtain ⟨u, hu, rfl⟩ := passTurn_eq_next h
  refine ⟨u, rfl, ?_⟩
  cases ht : s.turn with
  | block =>
    simp only [agentStep, ht] at hu
    exact .inl ⟨rfl, hu, .blockStep ht hu⟩
  | engine c =>
    simp only [agentStep, ht] at hu
    obtain ⟨e, lv, he, rfl⟩ := engineStep_stepped ht hu
    exact .inr ⟨c, e, lv, rfl, he, by rw [← ht]⟩

/-- Drawing the next turn leaves every engine. -/
@[simp] theorem State.engine_nextTurn (s : State) (c : Chan) : s.nextTurn.engine c = s.engine c := rfl

theorem State.engine_withEngine_same (s : State) (c : Chan) (e : Engine) (lv : Draws Bool) :
    ({ s with engines := s.engines.set c e, levels := lv } : State).engine c = e := PerChan.get_set_same _ _ _

theorem State.engine_withEngine_other (s : State) {c d : Chan} (e : Engine) (lv : Draws Bool) (h : d ≠ c) :
    ({ s with engines := s.engines.set c e, levels := lv } : State).engine d = s.engine d :=
  PerChan.get_set_other _ _ h

/-! ## What every step does to an engine -/

/-- Settles O49: the block's part is `BlockFrame.engines`, an engine's part the first two fields of `EngineStepped`. -/
theorem queuesAndResponsesAreFifo : Obligations.QueuesAndResponsesAreFifo := by
  intro s t h c
  obtain ⟨u, rfl, ⟨ht, -, hb⟩ | ⟨d, e, lv, ht, he, rfl⟩⟩ := step_cases h
  · obtain ⟨more, n, hc⟩ := hb.engines c
    simp only [State.engine_nextTurn, hc]
    exact ⟨fun _ => ⟨⟨more, rfl⟩, n, rfl⟩, fun hc' => by simp [ht] at hc'⟩
  · refine ⟨fun hb => by simp [ht] at hb, fun hc => ?_⟩
    obtain rfl : d = c := Agent.engine.inj (ht.symm.trans hc)
    rw [State.engine_nextTurn, State.engine_withEngine_same]
    exact ⟨he.q, he.rsp⟩

/-- Settles O51: of an engine `BlockFrame` lets queue and responses differ alone. -/
theorem blockStepsLeaveEngineRegisters : Obligations.BlockStepsLeaveEngineRegisters := by
  intro s t ht h c
  obtain ⟨u, rfl, ⟨-, -, hb⟩ | ⟨d, e, lv, hd, -, -⟩⟩ := step_cases h
  · obtain ⟨more, n, hc⟩ := hb.engines c
    simp only [State.engine_nextTurn, hc]
  · simp [ht] at hd

/-- Settles O52: the block leaves the pin registers, an engine's step those of every other engine, and of its own it
changes a bank by the pin write at the front of its queue alone (`EngineStepped.lo`, `EngineStepped.hi`). -/
theorem pinRegistersChangeOnlyByPinWrites : Obligations.PinRegistersChangeOnlyByPinWrites := by
  intro s t c h
  obtain ⟨u, rfl, ⟨-, -, hb⟩ | ⟨d, e, lv, ht, he, rfl⟩⟩ := step_cases h
  · obtain ⟨more, n, hc⟩ := hb.engines c
    simp [hc]
  · by_cases hcd : c = d
    · subst hcd
      rw [State.engine_nextTurn, State.engine_withEngine_same]
      refine ⟨fun hlo => ⟨ht, he.lo.resolve_left fun ⟨hv, hdir⟩ => ?_⟩,
        fun hhi => ⟨ht, he.hi.resolve_left fun ⟨hv, hdir⟩ => ?_⟩⟩
      · exact hlo.elim (· hv) (· hdir)
      · exact hhi.elim (· hv) (· hdir)
    · simp [State.engine_withEngine_other s e lv hcd]

/-- Settles O58: the block only appends to queues and leaves every status; an engine that ends its step blocked was so
before or starts its wait, and the `WAITHI` stays at the front (`EngineStepped.blocked`). -/
theorem stepsKeepBlockedEnginesAtTheirWait : Obligations.StepsKeepBlockedEnginesAtTheirWait := by
  intro s t hi h c hblocked
  obtain ⟨u, rfl, ⟨-, -, hb⟩ | ⟨d, e, lv, -, he, rfl⟩⟩ := step_cases h
  · obtain ⟨more, n, hc⟩ := hb.engines c
    rw [State.engine_nextTurn, hc] at hblocked ⊢
    obtain ⟨hcb, hq⟩ := hi c hblocked
    obtain ⟨rest, hrest⟩ := List.head?_eq_some_iff.mp hq
    exact ⟨hcb, by simp [hrest]⟩
  · rw [State.engine_nextTurn] at hblocked ⊢
    by_cases hcd : c = d
    · subst hcd
      rw [State.engine_withEngine_same] at hblocked ⊢
      obtain ⟨hwas, hstays⟩ := he.blocked hblocked
      obtain ⟨hcb, hq⟩ : c = .b ∧ (s.engine c).q.head? = some Config.opWaitHigh := hwas.elim (hi c) id
      exact ⟨hcb, by rw [hstays hq]; exact hq⟩
    · rw [State.engine_withEngine_other s e lv hcd] at hblocked ⊢
      exact hi c hblocked

/-! ## The fault mark and the buffer -/

/-- Settles O53: a step of the block keeps the mark and records a fault with the mark set alone (`BlockFrame`); an
engine's step touches neither mark nor results. -/
theorem faultMarkIsSticky : Obligations.FaultMarkIsSticky := by
  intro s t h
  obtain ⟨u, rfl, ⟨-, -, hb⟩ | ⟨d, e, lv, -, -, rfl⟩⟩ := step_cases h
  · refine ⟨hb.faulted, fun f hf => ?_, hb.params⟩
    rw [State.nextTurn_results] at hf
    rcases hb.results with hr | ⟨r, hr, hmark⟩
    · simp [hr] at hf
    · rw [hr] at hf
      exact hmark f (by simpa using hf)
  · refine ⟨id, fun f hf => ?_, rfl⟩
    simp at hf

/-- Settles O54: `BlockFrame.buffer` for the block; an engine's step leaves buffer, ports and operation. -/
theorem stepsKeepTheBufferInvariant : Obligations.StepsKeepTheBufferInvariant := by
  intro s t hi h
  obtain ⟨u, rfl, ⟨-, -, hb⟩ | ⟨d, e, lv, -, -, rfl⟩⟩ := step_cases h
  · exact (hb.buffer hi).congr rfl rfl rfl (.of_eq rfl)
  · exact hi.congr rfl rfl rfl (.of_eq rfl)

end Sys2Proof.Machine
end

section
/-! Emission of one layer-1 instruction, flush and read-back by the block: what each answers, and the statements about
them. -/

namespace Sys2Proof.Machine

/-! ## One layer-1 instruction on the block's turn -/

/-- On the block's turn every layer-1 instruction takes its emitting side (log entry 13). -/
theorem exec_layerOne_block {i : Instr} {s : State} (hi : i.layerOne = true) (ht : s.turn = .block) :
    exec i s = .next (s.emitAll s.emitCh [i]) := by
  have hside : ∀ run, s.bySide i run = .next (s.emitAll s.emitCh [i]) := fun run => by
    simp only [State.bySide, ht]
  cases i
  case loadaddr | readword | progword | progbyte | incaddr | erase | key0 | key1 | key2 | key3 => cases hi
  all_goals exact hside _

/-- A well-formed operand passes its emitter's check, and `WAITHI` on channel B in `CART` mode (R126, R127, R131,
R134). -/
theorem State.emitCheck_wellFormed {s : State} {ch : Chan} {i : Instr} (hi : i.wellFormed = true)
    (hw : i = .waithi → s.mode = .cart ∧ ch = .b) : s.emitCheck ch i = none := by
  cases i with
  | waithi => exact if_pos (hw rfl)
  | setdiv n | waits n | waitl n =>
    simp only [Instr.wellFormed, decide_eq_true_eq] at hi
    exact if_neg (by omega)
  | _ => rfl

/-- A pin read requests one sample, any other instruction none (R26, R136). -/
theorem samplesOf_eq (i : Instr) : samplesOf i = if i = .readlo ∨ i = .readhi then 1 else 0 := by
  cases i <;> rfl

/-- Settles O8: the emitter's check passes, and `emitBytes` writes all the bytes or is `fault BufferOverflow`. -/
theorem layerOneEmissionIsBoundChecked : Obligations.LayerOneEmissionIsBoundChecked := by
  intro i s hlayer hwf hturn hwait
  have hinstr : s.emitInstr s.emitCh i = s.emitBytes s.emitCh (encode i) (samplesOf i) := by
    simp only [State.emitInstr, State.emitCheck_wellFormed hwf hwait]
  refine ⟨fun hfits => ?_, fun hover => ?_⟩
  · obtain ⟨t, ht, hemitted⟩ := State.emitBytes_fits (reads := samplesOf i) hfits
    refine ⟨t, ?_, samplesOf_eq i ▸ hemitted⟩
    simp only [exec_layerOne_block hlayer hturn, State.emitAll, hinstr, ht]
  · refine ⟨s.fault .bufferOverflow, ?_, s.faulted_fault _⟩
    simp only [exec_layerOne_block hlayer hturn, State.emitAll, hinstr, State.emitBytes_overflow hover]

/-! ## The start of a composition -/

theorem State.beginBuffer_icsp {s : State} (h : s.mode = .icsp) :
    s.beginBuffer = s.setPort .icsp { s.port .icsp with cur := 0, nreq := 0 } := by
  simp only [State.beginBuffer, h]
  rfl

theorem State.beginBuffer_cart {s : State} (h : s.mode = .cart) :
    s.beginBuffer = (s.setPort .a { s.port .a with cur := 0, nreq := 0 }).setPort .b
      { s.port .b with cur := s.params.half, nreq := 0 } := by
  simp only [State.beginBuffer, h]
  rfl

/-! ## A flush of the single channel -/

/-- A transport write taken whole sends the composed bytes and uses up one answer (R45, R65). -/
theorem State.writeOut_whole {s : State} {ch : Chan} {bytes : List Byte} {k : Nat} (hb : s.composed ch = .ok bytes)
    (ha : s.answer = .count k) (hk : bytes.length ≤ k) :
    s.writeOut ch = .ok (true, s.popAnswer.enqueue ch bytes) := by
  simp only [State.writeOut, hb, ha, if_pos hk]

/-- A flush taken whole sends the bytes and resets the port (R65, R66). -/
theorem State.flushIcsp_whole {s : State} {bytes : List Byte} {k : Nat} (hb : s.composed .icsp = .ok bytes)
    (ha : s.answer = .count k) (hk : bytes.length ≤ k) :
    s.flushIcsp = .next ((s.popAnswer.enqueue .icsp bytes).afterFlush .icsp) := by
  simp only [State.flushIcsp, State.writeOut_whole hb ha hk]

/-- Settles O36: the equations of `State.beginBuffer`, and for the flush `State.flushIcsp_whole` with the bytes
`State.composed_ok` gives below the cursor. -/
theorem flushSendsExactlyTheComposedBytes : Obligations.FlushSendsExactlyTheComposedBytes := by
  intro s
  refine ⟨fun hmode => ?_, fun hmode => ?_, fun k hinv hanswer hk => ?_⟩
  · exact ⟨_, congrArg Host.Outcome.next (State.beginBuffer_icsp hmode), rfl, rfl, rfl, rfl⟩
  · exact ⟨_, congrArg Host.Outcome.next (State.beginBuffer_cart hmode), rfl, rfl, rfl, rfl⟩
  · obtain ⟨bytes, hbytes, hlen, hread⟩ := State.composed_ok hinv.1 .icsp
    simp only [State.base, Nat.sub_zero, Nat.zero_add] at hlen hread
    refine ⟨bytes, _, State.flushIcsp_whole hbytes hanswer (by omega), hlen, hread, rfl, rfl,
      fun c hc => ⟨?_, ?_⟩, rfl, rfl, fun x xs hlisted => ⟨?_, Draws.next_listed hlisted⟩,
      fun hfree => ⟨?_, Draws.next_free hfree⟩⟩
    · exact State.engine_setEngine_other _ _ hc
    · exact State.port_setPort_other _ _ hc
    · exact Draws.value_listed _ hlisted
    · exact Draws.value_free _ hfree

/-! ## The read-back -/

/-- Samples that are there are taken, with one answer used up (R45, R284). -/
theorem State.readBack_there {s : State} {ch : Chan} {k : Nat} (ho : (s.port ch).owed ≠ 0) (ha : s.answer = .count k)
    (h : (s.port ch).owed ≤ (s.engine ch).rsp.length) :
    s.readBack ch = s.popAnswer.takeResponses ch (s.port ch).owed := by
  simp only [State.readBack, if_neg ho, ha, if_pos h]

/-- While samples are missing the block waits (R389, log entry 19). -/
theorem State.readBack_waits {s : State} {ch : Chan} {k : Nat} (ho : (s.port ch).owed ≠ 0) (ha : s.answer = .count k)
    (h : (s.engine ch).rsp.length < (s.port ch).owed) : s.readBack ch = s.popAnswer.again (.readBack ch) := by
  simp only [State.readBack, if_neg ho, ha, if_neg (Nat.not_le.mpr h)]

/-- With no sample owed there is no call (R66, R284). -/
theorem State.readBack_none {s : State} {ch : Chan} (ho : (s.port ch).owed = 0) :
    s.readBack ch = s.setPort ch { s.port ch with owed := 0, got := [] } := by
  simp only [State.readBack, if_pos ho, State.takeResponses, List.drop_zero, List.take_zero]
  rw [State.setEngine, State.engine, PerChan.set_get]

/-- Settles O38: the three cases of `State.readBack` in which no call fails. -/
theorem readBackTakesTheSamplesOwed : Obligations.ReadBackTakesTheSamplesOwed := by
  intro s ch task htask
  refine ⟨fun k hanswer howed => ⟨fun hthere => ?_, fun hmissing => ?_⟩, fun hnone => ?_⟩
  · refine ⟨_, congrArg Host.Outcome.next (State.readBack_there howed hanswer hthere), State.port_setPort_same _ _ _,
      State.engine_setEngine_same _ _ _, fun c hc => ⟨?_, ?_⟩, rfl, rfl⟩
    · exact State.engine_setEngine_other _ _ hc
    · exact State.port_setPort_other _ _ hc
  · refine ⟨_, congrArg Host.Outcome.next (State.readBack_waits howed hanswer hmissing), ?_, rfl⟩
    simp [State.again, htask]
  · refine ⟨_, congrArg Host.Outcome.next (State.readBack_none hnone), ?_,
      fun c hc => State.port_setPort_other _ _ hc, fun _ => rfl, rfl⟩
    rw [State.port_setPort_same, ← hnone]

end Sys2Proof.Machine
end

section
/-! No step reads garbage: only a flush can stop the machine with its one fault, and under the buffer's invariant a
flush has a byte at every offset it sends. -/

namespace Sys2Proof.Machine

theorem next_ne_fault (s : State) (f : Fault) : (.next s : Host.Outcome State Fault Refusal) ≠ .fault f := nofun

theorem refused_ne_fault (r : Refusal) (f : Fault) : (.refused r : Host.Outcome State Fault Refusal) ≠ .fault f :=
  nofun

/-! ## Instructions and engines -/

theorem State.bySide_ne_fault {s : State} {i : Instr} {run : Chan → Host.Outcome State Fault Refusal} {f : Fault}
    (h : ∀ c, run c ≠ .fault f) : s.bySide i run ≠ .fault f := by
  unfold State.bySide
  split
  · exact next_ne_fault _ f
  · exact h _

/-- No instruction raises the machine's fault, emitted or executed: none reads the buffer. -/
theorem exec_ne_fault (i : Instr) (s : State) (f : Fault) : exec i s ≠ .fault f := by
  cases i
  case waithi =>
    refine State.bySide_ne_fault fun c => ?_
    cases c with
    | b => exact next_ne_fault _ f
    | icsp | a => exact refused_ne_fault _ f
  case setdiv | waits | waitl =>
    refine State.bySide_ne_fault fun c => ?_
    split
    · exact next_ne_fault _ f
    · exact refused_ne_fault _ f
  case setlo | readlo | sethi | readhi | loopon | loopoff | probe =>
    exact State.bySide_ne_fault fun c => next_ne_fault _ f
  all_goals exact next_ne_fault _ f

theorem engineStep_ne_fault (c : Chan) (s : State) (f : Fault) : engineStep c s ≠ .fault f := by
  unfold engineStep
  split
  · exact next_ne_fault _ f
  · exact refused_ne_fault _ f
  · exact refused_ne_fault _ f
  · split
    · exact next_ne_fault _ f
    · rename_i hexec
      exact absurd hexec (exec_ne_fault _ _ _)
    · exact refused_ne_fault _ f

/-! ## Flushes -/

/-- With the buffer in order a transport write reads no garbage. -/
theorem State.writeOut_ok {s : State} (h : BufferOk s) (ch : Chan) : ∃ ok t, s.writeOut ch = .ok (ok, t) := by
  obtain ⟨bytes, hbytes, -⟩ := State.composed_ok h ch
  simp only [State.writeOut, hbytes]
  split
  · exact ⟨_, _, rfl⟩
  · split
    · exact ⟨_, _, rfl⟩
    · exact ⟨_, _, rfl⟩

theorem State.writeHalf_ok {s : State} (h : BufferOk s) (ch : Chan) : ∃ ok t, s.writeHalf ch = .ok (ok, t) := by
  unfold State.writeHalf
  split
  · exact ⟨_, _, rfl⟩
  · exact State.writeOut_ok h ch

theorem State.flushIcsp_ne_fault {s : State} (h : BufferOk s) (f : Fault) : s.flushIcsp ≠ .fault f := by
  obtain ⟨ok, t, hwrite⟩ := State.writeOut_ok h .icsp
  simp only [State.flushIcsp, hwrite]
  cases ok <;> exact next_ne_fault _ f

/-- The second half is written from a buffer that the first write left in order. -/
theorem State.flushBoth_ne_fault {s : State} (h : BufferInv s) (f : Fault) : s.flushBoth ≠ .fault f := by
  obtain ⟨okB, t, hB⟩ := State.writeHalf_ok h.1 .b
  cases okB with
  | false =>
    simp only [State.flushBoth, hB]
    exact next_ne_fault _ f
  | true =>
    have ht : BufferInv t := (BlockFrame.writeHalf hB).1.buffer h
    obtain ⟨okA, u, hA⟩ := State.writeHalf_ok ht.1 .a
    simp only [State.flushBoth, hB, hA]
    cases okA <;> exact next_ne_fault _ f

/-! ## The block -/

theorem runEmitter_ne_fault (ch : Chan) (e : Emitter) (s : State) (f : Fault) : runEmitter ch e s ≠ .fault f := by
  cases e
  case instr i => exact exec_ne_fault i _ f
  all_goals exact next_ne_fault _ f

theorem runStep_ne_fault {s : State} (h : BufferInv s) (m : BlockStep) (f : Fault) : runStep m s ≠ .fault f := by
  cases m
  case emit ch e => exact runEmitter_ne_fault ch e s f
  case flush => exact State.flushIcsp_ne_fault h.1 f
  case flushPair => exact State.flushBoth_ne_fault h f
  all_goals exact next_ne_fault _ f

theorem blockStep_ne_fault {s : State} (h : BufferInv s) (f : Fault) : blockStep s ≠ .fault f := by
  unfold blockStep
  split
  · rename_i task htask
    split
    · rename_i m rest hprog
      have hbefore : SameBefore s { s with task := some { task with prog := rest } } :=
        .of_task (f := fun t => { t with prog := rest }) (by rw [htask]; rfl) fun _ => rfl
      have h' : BufferInv { s with task := some { task with prog := rest } } := h.congr rfl rfl rfl hbefore
      exact runStep_ne_fault h' m f
    · exact next_ne_fault _ f
  · split
    · exact next_ne_fault _ f
    · exact next_ne_fault _ f

theorem passTurn_ne_fault {o : Host.Outcome State Fault Refusal} {f : Fault} (h : o ≠ .fault f) :
    passTurn o ≠ .fault f := by
  cases o with
  | next u => exact next_ne_fault _ f
  | fault g => exact h
  | refused r => exact refused_ne_fault _ f

/-- Settles O55: an engine never raises the fault (`engineStep_ne_fault`), the block not under the invariant
(`blockStep_ne_fault`). -/
theorem noStepReadsGarbage : Obligations.NoStepReadsGarbage := by
  intro s f hinv
  refine passTurn_ne_fault ?_
  unfold agentStep
  split
  · exact blockStep_ne_fault hinv f
  · exact engineStep_ne_fault _ s f

end Sys2Proof.Machine
end

section
/-! The session invariant: it depends on mode, sessions, registers and operation alone, and each way a step of the block
can change these keeps it. -/

namespace Sys2Proof.Machine

/-! ## What the session invariant needs of a change -/

theorem SameSession.refl (s : State) : SameSession s s := ⟨rfl, rfl, rfl, rfl, rfl⟩

/-- What `SessionInv` asks of the sessions, the mode and the registers, whatever operation is in progress. -/
structure SessionsAgree (s : State) : Prop where
  icsp : s.sess ≠ .closed → s.mode = .icsp ∧ s.sessC = .closed
  cart : s.sessC ≠ .closed → s.mode = .cart ∧ s.sess = .closed
  regs : s.sess = .closed → s.regs = SessionRegs.none

/-- What `SessionInv` asks of the operation in progress: steps of its own, and its session on the buffer. -/
structure TaskInSession (s : State) (t : Task) : Prop where
  fits : t.prog.all (BlockStep.fits t.op) = true
  cart : t.op.isCart = true → s.mode = .cart ∧ s.sess = .closed
  icsp : t.op.isCart = false → s.mode = .icsp ∧ s.sess ≠ .closed ∧ s.sessC = .closed

theorem SessionsAgree.congr {s t : State} (h : SessionsAgree s) (hmode : t.mode = s.mode) (hsess : t.sess = s.sess)
    (hsessC : t.sessC = s.sessC) (hregs : t.regs = s.regs) : SessionsAgree t where
  icsp := by rw [hsess, hmode, hsessC]; exact h.icsp
  cart := by rw [hsess, hmode, hsessC]; exact h.cart
  regs := by rw [hsess, hregs]; exact h.regs

/-- `SessionInv` is the two together. -/
theorem sessionInv_iff (s : State) :
    SessionInv s ↔ SessionsAgree s ∧ ∀ t, s.task = some t → TaskInSession s t := by
  constructor
  · rintro ⟨hicsp, hcart, hregs, htask⟩
    refine ⟨⟨hicsp, hcart, hregs⟩, fun t ht => ?_⟩
    obtain ⟨hfits, htcart, hticsp⟩ := htask t ht
    exact ⟨hfits, htcart, hticsp⟩
  · rintro ⟨hagree, htask⟩
    refine ⟨hagree.icsp, hagree.cart, hagree.regs, fun t ht => ?_⟩
    obtain ⟨hfits, htcart, hticsp⟩ := htask t ht
    exact ⟨hfits, htcart, hticsp⟩

theorem SessionInv.sessions {s : State} (h : SessionInv s) : SessionsAgree s := ((sessionInv_iff s).mp h).1

theorem SessionInv.inSession {s : State} {t : Task} (h : SessionInv s) (ht : s.task = some t) : TaskInSession s t :=
  ((sessionInv_iff s).mp h).2 t ht

/-- With no operation in progress the invariant is that of the sessions. -/
theorem SessionsAgree.sessionInv {s : State} (h : SessionsAgree s) (ht : s.task = none) : SessionInv s :=
  (sessionInv_iff s).mpr ⟨h, fun t h' => by rw [ht] at h'; cases h'⟩

/-- With an operation in progress the invariant is that of the sessions and of this operation. -/
theorem SessionsAgree.sessionInv_task {s : State} {t : Task} (h : SessionsAgree s) (ht : s.task = some t)
    (hin : TaskInSession s t) : SessionInv s :=
  (sessionInv_iff s).mpr ⟨h, fun u hu => by rw [ht] at hu; cases hu; exact hin⟩

/-- The invariant depends on mode, sessions, registers and operation alone. -/
theorem SessionInv.congr {s t : State} (h : SessionInv s) (k : SameSession s t) : SessionInv t := by
  obtain ⟨hmode, hsess, hsessC, hregs, htask⟩ := k
  unfold SessionInv
  rw [hmode, hsess, hsessC, hregs, htask]
  exact h

theorem SessionInv.setPort {s : State} (h : SessionInv s) (c : Chan) (p : Port) : SessionInv (s.setPort c p) :=
  h.congr (.refl s)

theorem SessionInv.setEngine {s : State} (h : SessionInv s) (c : Chan) (e : Engine) : SessionInv (s.setEngine c e) :=
  h.congr (.refl s)

theorem SessionInv.popAnswer {s : State} (h : SessionInv s) : SessionInv s.popAnswer := h.congr (.refl s)

/-- An operation that ends, the session as it was. -/
theorem SessionInv.taskNone {s : State} (h : SessionInv s) (results : List Result) (faulted : Bool) :
    SessionInv { s with task := none, results, faulted } :=
  SessionsAgree.sessionInv (h.sessions.congr rfl rfl rfl rfl) rfl

theorem SessionInv.endTask {s : State} (h : SessionInv s) (r : Result) : SessionInv (s.endTask r) :=
  h.taskNone _ _

theorem SessionInv.fault {s : State} (h : SessionInv s) (f : Mark) : SessionInv (s.fault f) := h.taskNone _ _

/-- An operation that goes on as the same operation, with steps of its own. -/
theorem SessionInv.withTask {s : State} {task task' : Task} (h : SessionInv s) (ht : s.task = some task)
    (hop : task'.op = task.op) (hfits : task'.prog.all (BlockStep.fits task.op) = true) :
    SessionInv { s with task := some task' } := by
  obtain ⟨-, hcart, hicsp⟩ := h.inSession ht
  refine SessionsAgree.sessionInv_task (h.sessions.congr rfl rfl rfl rfl) rfl ⟨?_, ?_, ?_⟩ <;> rw [hop]
  · exact hfits
  · exact hcart
  · exact hicsp

/-- Registers written within the ICSP session. -/
theorem SessionInv.withRegs {s : State} (h : SessionInv s) (ho : s.sess ≠ .closed) (regs : SessionRegs) :
    SessionInv { s with regs } := by
  obtain ⟨hicsp, hcart, -, htask⟩ := h
  exact ⟨hicsp, hcart, fun hc => absurd hc ho, htask⟩

/-! ## The session an operation runs in -/

section Task
variable {s : State} {task : Task}

theorem SessionInv.of_icspTask (h : SessionInv s) (ht : s.task = some task) (hop : task.op.isCart = false) :
    s.mode = .icsp ∧ s.sess ≠ .closed ∧ s.sessC = .closed := (h.inSession ht).icsp hop

theorem SessionInv.of_cartTask (h : SessionInv s) (ht : s.task = some task) (hop : task.op.isCart = true) :
    s.mode = .cart ∧ s.sess = .closed := (h.inSession ht).cart hop

/-- A fatal error of the operation in progress fails the session the operation runs in (R341). -/
theorem SessionInv.fatal (h : SessionInv s) (ht : s.task = some task) (e : OpError) :
    SessionInv (s.fatal task.op e) := by
  rw [State.fatal_eq]
  refine SessionsAgree.sessionInv ?_ rfl
  cases hop : task.op.isCart with
  | true =>
    obtain ⟨hmode, hsess⟩ := h.of_cartTask ht hop
    simp only [State.failSession, hop, if_true]
    exact ⟨fun hne => absurd hsess hne, fun _ => ⟨hmode, hsess⟩, h.sessions.regs⟩
  | false =>
    obtain ⟨hmode, -, hsessC⟩ := h.of_icspTask ht hop
    simp only [State.failSession, hop]
    exact ⟨fun _ => ⟨hmode, hsessC⟩, fun hne => absurd hsessC hne, fun hc => Session.noConfusion hc⟩

theorem SessionInv.transportError (h : SessionInv s) (c : TransportCall) : SessionInv (s.transportError c) := by
  unfold State.transportError
  split
  · exact h
  · rename_i t ht
    split
    · exact h.withTask ht rfl (h.inSession ht).fits
    · exact h.fatal ht _

theorem SessionInv.again {m : BlockStep} (h : SessionInv s) (ht : s.task = some task)
    (hm : m.fits task.op = true) : SessionInv (s.again m) := by
  simp only [State.again, ht, Option.map_some]
  exact h.withTask ht rfl (by simpa [hm] using (h.inSession ht).fits)

end Task

/-! ## The steps of an operation -/

theorem State.beginBuffer_session (s : State) : SameSession s s.beginBuffer := by
  unfold State.beginBuffer
  split <;> exact .refl _

/-- An emission leaves the session, and may end the operation with a fault. -/
theorem runEmitter_cases {s t : State} {ch : Chan} {e : Emitter} (ht : s.turn = .block)
    (h : runEmitter ch e s = .next t) : ∃ mid, SameSession s mid ∧ (t = mid ∨ ∃ f, t = mid.fault f) := by
  cases e
  case instr i =>
    obtain ⟨mid, hsame, -, hexec | ⟨f, hexec⟩⟩ := exec_block_cases i (s := { s with emitCh := ch }) ht
    · exact ⟨mid, hsame.session, .inl (Host.Outcome.next.inj (h.symm.trans hexec))⟩
    · exact ⟨mid, hsame.session, .inr ⟨f, Host.Outcome.next.inj (h.symm.trans hexec)⟩⟩
  all_goals
    obtain ⟨mid, hsame, -, hstream⟩ := State.emitStream_cases { s with emitCh := ch } ch (expand s.params ch _)
    obtain rfl := Host.Outcome.next.inj h
    exact ⟨mid, hsame.session, hstream⟩

theorem SessionInv.of_runEmitter {s t : State} {ch : Chan} {e : Emitter} (hi : SessionInv s) (ht : s.turn = .block)
    (h : runEmitter ch e s = .next t) : SessionInv t := by
  obtain ⟨mid, hsame, rfl | ⟨f, rfl⟩⟩ := runEmitter_cases ht h
  · exact hi.congr hsame
  · exact (hi.congr hsame).fault f

theorem SessionInv.of_flushIcsp {s t : State} (hi : SessionInv s) (h : s.flushIcsp = .next t) : SessionInv t := by
  unfold State.flushIcsp at h
  split at h
  · cases h
  · rename_i u hu
    cases h
    exact (hi.congr (State.writeOut_session hu)).congr (.refl _)
  · rename_i u hu
    cases h
    exact (hi.congr (State.writeOut_session hu)).transportError _

theorem SessionInv.of_flushBoth {s t : State} (hi : SessionInv s) (h : s.flushBoth = .next t) : SessionInv t := by
  unfold State.flushBoth at h
  split at h
  · cases h
  · rename_i u hu
    cases h
    exact (hi.congr (State.writeHalf_session hu)).transportError _
  · rename_i u hu
    have hiu : SessionInv u := hi.congr (State.writeHalf_session hu)
    split at h
    · cases h
    · rename_i v hv
      cases h
      exact (hiu.congr (State.writeHalf_session hv)).transportError _
    · rename_i v hv
      cases h
      exact (hiu.congr (State.writeHalf_session hv)).congr (.refl _)

/-- A register written by an operation of the ICSP session; with none to add to, a fault. -/
theorem SessionInv.advance {s : State} (hi : SessionInv s) (ho : s.sess ≠ .closed) (n : Nat) (r : Result) :
    SessionInv (s.advance n r) := by
  unfold State.advance
  split
  · exact hi.fault _
  · exact (hi.withRegs ho _).endTask r

section Task
variable {s : State} {task : Task}

theorem SessionInv.readBack (hi : SessionInv s) (ht : s.task = some task) (ch : Chan) :
    SessionInv (s.readBack ch) := by
  unfold State.readBack
  split
  · exact hi.congr (.refl _)
  · split
    · exact hi.popAnswer.transportError _
    · split
      · exact hi.popAnswer.congr (.refl _)
      · exact hi.popAnswer.again ht rfl

theorem SessionInv.readEmpty (hi : SessionInv s) (ht : s.task = some task) (hop : task.op = .openIcsp)
    (o : SelfTest) : SessionInv (s.readEmpty o) := by
  unfold State.readEmpty
  split
  · exact hi.popAnswer.transportError _
  · simp only []
    split
    · exact hi.popAnswer
    · rw [← hop]
      exact (hi.popAnswer.setEngine _ _).fatal ht _

theorem SessionInv.readEcho (hi : SessionInv s) (ht : s.task = some task) (hop : task.op = .openIcsp) :
    SessionInv s.readEcho := by
  unfold State.readEcho
  split
  · exact hi.popAnswer.transportError _
  · have hread {e p} : SessionInv ((s.popAnswer.setEngine .icsp e).setPort .icsp p) :=
      (hi.popAnswer.setEngine _ _).setPort _ _
    simp only []
    split
    · exact hread.again ht (by rw [hop]; rfl)
    · split
      · exact hread
      · rw [← hop]
        exact hread.fatal ht _

theorem SessionInv.resolveLength (hi : SessionInv s) (ht : s.task = some task) (hop : task.op = .openIcsp) :
    SessionInv s.resolveLength := by
  unfold State.resolveLength
  split
  · exact hi.fault _
  · split
    · rw [← hop]
      exact hi.fatal ht _
    · obtain ⟨-, ho, -⟩ := hi.of_icspTask ht (by rw [hop]; rfl)
      exact hi.withRegs ho _

theorem SessionInv.plainCall (hi : SessionInv s) (c : TransportCall) : SessionInv (s.plainCall c) := by
  unfold State.plainCall
  split
  · exact hi.popAnswer.transportError _
  · exact hi.popAnswer

/-- Open ends: the session that was opening is ready (R236). -/
theorem SessionInv.finishOpen (hi : SessionInv s) (ht : s.task = some task) (hop : task.op.isCart = false) :
    SessionInv s.finishOpen := by
  obtain ⟨hmode, -, hsessC⟩ := hi.of_icspTask ht hop
  exact SessionsAgree.sessionInv
    ⟨fun _ => ⟨hmode, hsessC⟩, fun hne => absurd hsessC hne, fun hc => Session.noConfusion hc⟩ rfl

/-- Close ends: the session is closed and no register holds a value (R249). -/
theorem SessionInv.finishClose (hi : SessionInv s) (ht : s.task = some task) (hop : task.op.isCart = false) :
    SessionInv s.finishClose := by
  obtain ⟨-, -, hsessC⟩ := hi.of_icspTask ht hop
  unfold State.finishClose
  split <;>
    exact SessionsAgree.sessionInv
      ⟨fun hne => absurd rfl hne, fun hne => absurd hsessC hne, fun _ => rfl⟩ rfl

/-- SetupPins ends: the cartridge session is ready, and the ICSP session closed as before (R287). -/
theorem SessionInv.finishSetup (hi : SessionInv s) (ht : s.task = some task) (hop : task.op.isCart = true) :
    SessionInv s.finishSetup := by
  obtain ⟨hmode, hsess⟩ := hi.of_cartTask ht hop
  exact SessionsAgree.sessionInv ⟨fun hne => absurd hsess hne, fun _ => ⟨hmode, hsess⟩, hi.sessions.regs⟩ rfl

theorem SessionInv.collect (hi : SessionInv s) (ht : s.task = some task) (want : Nat) :
    SessionInv (s.collect want) := by
  simp only [State.collect, ht, Option.map_some]
  exact hi.withTask ht rfl (hi.inSession ht).fits

/-- Every step of an operation keeps the invariant, where it is a step of that operation. -/
theorem SessionInv.of_runStep {t : State} {m : BlockStep} (hi : SessionInv s) (ht : s.task = some task)
    (hm : m.fits task.op = true) (hturn : s.turn = .block) (h : runStep m s = .next t) : SessionInv t := by
  have hopen {op : OpName} (hop : task.op = op) (hicsp : op.isCart = false) : s.sess ≠ .closed := by
    obtain ⟨-, ho, -⟩ := hi.of_icspTask ht (hop ▸ hicsp)
    exact ho
  cases m
  case emit ch e => exact hi.of_runEmitter hturn h
  case flush => exact hi.of_flushIcsp h
  case flushPair => exact hi.of_flushBoth h
  all_goals
    obtain rfl := Host.Outcome.next.inj h
    simp only [BlockStep.fits, Bool.or_eq_true, beq_iff_eq] at hm
  case begin => exact hi.congr s.beginBuffer_session
  case readBack ch => exact hi.readBack ht ch
  case readEmpty o => exact hi.readEmpty ht hm o
  case readEcho => exact hi.readEcho ht hm
  case storeUserId | storeConfig | storeIds | clearAddr => exact hi.withRegs (hopen hm rfl) _
  case resolveLength => exact hi.resolveLength ht hm
  case finishOpen => exact hi.finishOpen ht (by rw [hm]; rfl)
  case collect want => exact hi.collect ht want
  case finishRead n => exact hi.advance (hopen hm rfl) _ _
  case finishWrite n => exact hi.advance (hopen hm rfl) _ _
  case finishPlain => exact hi.endTask _
  case transport c => exact hi.plainCall c
  case finishClose => exact hi.finishClose ht (by rw [hm]; rfl)
  case finishSetup => exact hi.finishSetup ht (by rw [hm]; rfl)
  case finishRom => exact hi.endTask _

end Task

/-! ## The steps of a program fit its operation -/

theorem readProgram_fits (addr m : Nat) : (readProgram addr m).all (BlockStep.fits .read) = true := by
  obtain ⟨hrounds, -⟩ := readRounds_fits m m [onIcsp (.loadaddr addr)] (by simp [onIcsp])
  simp only [readProgram, List.all_append, hrounds]
  rfl

theorem writeProgram_fits (p : Config.Params) (addr : Nat) (bytes : List Byte) :
    (writeProgram p addr bytes).all (BlockStep.fits .write) = true := by
  simp only [writeProgram, List.all_append, (cutUnits_fits _ _ _).1]
  rfl

theorem openProgram_fits (p : Config.Params) : (openProgram p).all (BlockStep.fits .openIcsp) = true := by
  obtain ⟨before, hprog, -, hfits, -⟩ := openProgram_shape p
  rw [hprog, List.all_append, hfits]
  rfl

theorem setupProgram_fits (p : Config.Params) : (setupProgram p).all (BlockStep.fits .setupPins) = true := by
  simp only [setupProgram, List.all_append, (onChan_fits _ _ _).1]
  rfl

theorem resetProgram_fits (p : Config.Params) : (resetProgram p).all (BlockStep.fits .resetCart) = true := by
  simp only [resetProgram, List.all_append, (onChan_fits _ _ _).1]
  rfl

theorem addressProgram_fits (p : Config.Params) (a : Nat) :
    (addressProgram p a).all (BlockStep.fits .setAddress) = true := by
  simp only [addressProgram, List.all_append, (onChan_fits _ _ _).1]
  rfl

theorem romProgram_fits (p : Config.Params) : (romProgram p).all (BlockStep.fits .readRom512) = true := by
  simp only [romProgram, List.all_append, (onChan_fits _ _ _).1]
  rfl

/-! ## The beginning of a call -/

/-- An operation of the open ICSP session starts. -/
theorem SessionInv.start_icsp {s : State} {op : OpName} {prog : List BlockStep} (hi : SessionInv s)
    (ho : s.sess ≠ .closed) (hop : op.isCart = false) (hfits : prog.all (BlockStep.fits op) = true) :
    SessionInv (s.start op prog) := by
  obtain ⟨hmode, hsessC⟩ := hi.sessions.icsp ho
  exact SessionsAgree.sessionInv_task (hi.sessions.congr rfl rfl rfl rfl) rfl
    ⟨hfits, fun hc => by simp [hop] at hc, fun _ => ⟨hmode, ho, hsessC⟩⟩

/-- An operation of the ready cartridge session starts. -/
theorem SessionInv.start_cart {s : State} {op : OpName} {prog : List BlockStep} (hi : SessionInv s)
    (hr : s.sessC = .ready) (hop : op.isCart = true) (hfits : prog.all (BlockStep.fits op) = true) :
    SessionInv (s.start op prog) := by
  obtain ⟨hmode, hsess⟩ := hi.sessions.cart (by rw [hr]; exact CartSession.noConfusion)
  exact SessionsAgree.sessionInv_task (hi.sessions.congr rfl rfl rfl rfl) rfl
    ⟨hfits, fun _ => ⟨hmode, hsess⟩, fun hc => by simp [hop] at hc⟩

/-- Open takes the buffer for the ICSP session where no cartridge session holds it (R221, R396). -/
theorem SessionInv.callOpen {s : State} (hi : SessionInv s) : SessionInv s.callOpen := by
  unfold State.callOpen
  split
  · rename_i hready
    obtain ⟨-, hsessC⟩ := hready
    exact SessionsAgree.sessionInv_task
      ⟨fun _ => ⟨rfl, hsessC⟩, fun hne => absurd hsessC hne, fun hc => Session.noConfusion hc⟩ rfl
      ⟨openProgram_fits _, fun hc => Bool.noConfusion hc, fun _ => ⟨rfl, Session.noConfusion, hsessC⟩⟩
  · exact hi.fault _

/-- SetupPins takes the buffer for the cartridge session where no ICSP session holds it (R287, R396). -/
theorem SessionInv.callSetup {s : State} (hi : SessionInv s) : SessionInv s.callSetup := by
  unfold State.callSetup
  split
  · rename_i hsess
    exact SessionsAgree.sessionInv_task
      ⟨fun hne => absurd hsess hne, fun _ => ⟨rfl, hsess⟩, hi.sessions.regs⟩ rfl
      ⟨setupProgram_fits _, fun _ => ⟨rfl, hsess⟩, fun hc => Bool.noConfusion hc⟩
  · exact hi.fault _

/-- The cartridge session ends (R300). -/
theorem SessionInv.callRelease {s : State} (hi : SessionInv s) : SessionInv s.callRelease := by
  refine SessionsAgree.sessionInv ⟨fun ho => ?_, fun hne => absurd rfl hne, hi.sessions.regs⟩ rfl
  obtain ⟨hmode, -⟩ := hi.sessions.icsp ho
  exact ⟨hmode, rfl⟩

theorem State.readyCursor_open {s : State} {x : Nat × Nat} (h : s.readyCursor = .ok x) : s.sess ≠ .closed := by
  rw [State.readyCursor_ready h]
  exact Session.noConfusion

theorem SessionInv.callRead {s : State} (hi : SessionInv s) (n : Nat) : SessionInv (s.callRead n) := by
  unfold State.callRead
  split
  · exact hi.fault _
  · rename_i addr len hcur
    split_ifs
    · exact hi.endTask _
    · exact hi.fault _
    · exact hi.endTask _
    · exact hi.start_icsp (State.readyCursor_open hcur) rfl (readProgram_fits _ _)

theorem SessionInv.callSeek {s : State} (hi : SessionInv s) (offset : Int) (w : Whence) :
    SessionInv (s.callSeek offset w) := by
  unfold State.callSeek
  split
  · exact hi.fault _
  · rename_i addr len hcur
    split
    · exact hi.fault _
    · split_ifs
      · exact hi.endTask _
      · exact hi.endTask _
      · exact (hi.withRegs (State.readyCursor_open hcur) _).endTask _

theorem SessionInv.callWrite {s : State} (hi : SessionInv s) (bytes : List Byte) :
    SessionInv (s.callWrite bytes) := by
  unfold State.callWrite
  split
  · exact hi.fault _
  · rename_i addr len hcur
    split_ifs
    · exact hi.endTask _
    · exact hi.fault _
    · exact hi.fault _
    · exact hi.start_icsp (State.readyCursor_open hcur) rfl (writeProgram_fits _ _ _)

theorem SessionInv.beginCall {s : State} (hi : SessionInv s) (c : Call) : SessionInv (s.beginCall c) := by
  cases c with
  | openIcsp => exact hi.callOpen
  | read n => exact hi.callRead n
  | seek offset w => exact hi.callSeek offset w
  | write bytes => exact hi.callWrite bytes
  | bulkErase regions =>
    simp only [State.beginCall, State.callErase]
    split_ifs with hready
    · exact hi.fault _
    · exact hi.start_icsp (by rw [hready]; exact Session.noConfusion) rfl rfl
    · exact hi.fault _
  | close =>
    simp only [State.beginCall, State.callClose]
    split_ifs with hclosed
    · exact hi.endTask _
    · exact hi.start_icsp hclosed rfl rfl
  | setupPins => exact hi.callSetup
  | resetCart =>
    simp only [State.beginCall, State.callReset]
    split_ifs with hready
    · exact hi.start_cart hready rfl (resetProgram_fits _)
    · exact hi.fault _
  | setAddress a =>
    simp only [State.beginCall, State.callAddress]
    split_ifs with hready
    · exact hi.start_cart hready rfl (addressProgram_fits _ _)
    · exact hi.fault _
    · exact hi.fault _
  | readRom512 =>
    simp only [State.beginCall, State.callRom]
    split_ifs with hready
    · exact hi.start_cart hready rfl (romProgram_fits _)
    · exact hi.fault _
  | releaseCart => exact hi.callRelease

/-! ## The step -/

theorem SessionInv.of_blockStep {s t : State} (hi : SessionInv s) (hturn : s.turn = .block)
    (h : blockStep s = .next t) : SessionInv t := by
  unfold blockStep at h
  split at h
  · rename_i task htask
    split at h
    · rename_i m rest hprog
      have hsteps : (m :: rest).all (BlockStep.fits task.op) = true := hprog ▸ (hi.inSession htask).fits
      rw [List.all_cons, Bool.and_eq_true] at hsteps
      obtain ⟨hm, hrest⟩ := hsteps
      have hi' : SessionInv { s with task := some { task with prog := rest } } := hi.withTask htask rfl hrest
      exact hi'.of_runStep rfl hm hturn h
    · cases h
      exact hi.endTask _
  · split at h
    · rename_i c cs hcalls
      cases h
      have hi' : SessionInv { s with calls := cs } := hi.congr (.refl s)
      exact hi'.beginCall c
    · cases h
      exact hi

/-- Settles O56: every step of the block keeps the invariant (`SessionInv.of_blockStep`), an engine's step and the
drawing of the next turn leave all it speaks of. -/
theorem stepsKeepTheSessionInvariant : Obligations.StepsKeepTheSessionInvariant := by
  intro s t hi h
  obtain ⟨u, rfl, ⟨hturn, hblock, -⟩ | ⟨c, e, lv, -, -, rfl⟩⟩ := step_cases h
  · exact (hi.of_blockStep hturn hblock).congr (.refl _)
  · exact hi.congr (.refl _)

end Sys2Proof.Machine
end

section
/-! The state after reset. -/

namespace Sys2Proof

/-- The open parameters of the machine meet the spec's constraints: the opaque record where it does, else the vector
configuration. -/
theorem Config.params_wf : Config.params.wf = true := by
  unfold Config.params
  split
  · assumption
  · decide

theorem Config.Params.capWf_of_wf {p : Config.Params} (h : p.wf = true) : p.capWf = true := by
  simp only [Config.Params.wf, Bool.and_eq_true] at h
  obtain ⟨⟨⟨hcap, -⟩, -⟩, -⟩ := h
  exact hcap

namespace Machine

/-! ## What each channel holds after reset -/

theorem State.port_resetWith (p : Config.Params) (c : Chan) :
    (State.resetWith p).port c = Port.reset ((State.resetWith p).base c) := by cases c <;> rfl

theorem State.engine_resetWith (p : Config.Params) (c : Chan) : (State.resetWith p).engine c = Engine.reset := by
  cases c <;> rfl

theorem State.base_le_limit (s : State) (c : Chan) : s.base c ≤ s.limit c := by
  cases c
  · exact Nat.zero_le _
  · exact Nat.zero_le _
  · exact Nat.div_le_self _ _

/-! ## The invariants -/

/-- With no byte composed the buffer is in order. -/
theorem BufferOk.resetWith {p : Config.Params} (h : p.capWf = true) : BufferOk (State.resetWith p) := by
  refine ⟨h, rfl, fun c hc => absurd hc List.not_mem_nil, fun c => ?_, fun c i hlo hhi => ?_⟩
  · rw [State.port_resetWith]
    exact ⟨Nat.le_refl _, State.base_le_limit _ c⟩
  · rw [State.port_resetWith] at hhi
    exact absurd hhi (Nat.not_lt.mpr hlo)

/-- With no operation in progress an error would bring back what the block holds. -/
theorem BufferInv.of_idle {s : State} (h : BufferOk s) (ht : s.task = none) : BufferInv s :=
  ⟨h, h.congr rfl (by simp [ht, State.saved]) (by simp [ht, State.saved])⟩

theorem SessionInv.resetWith (p : Config.Params) : SessionInv (State.resetWith p) :=
  SessionsAgree.sessionInv ⟨fun h => absurd rfl h, fun h => absurd rfl h, fun _ => rfl⟩ rfl

theorem ReadyInv.resetWith (p : Config.Params) : ReadyInv (State.resetWith p) :=
  ⟨fun h => Session.noConfusion h, fun _ h => by cases h⟩

theorem WaitInv.resetWith (p : Config.Params) : WaitInv (State.resetWith p) := fun c h => by
  rw [State.engine_resetWith] at h
  cases h

/-- Settles O59: each invariant holds after reset with any parameters of legal capacity, and `Config.params` are. -/
theorem resetMeetsTheInvariants : Obligations.ResetMeetsTheInvariants :=
  ⟨.of_idle (.resetWith (Config.Params.capWf_of_wf Config.params_wf)) rfl, .resetWith _, .resetWith _, .resetWith _⟩

/-- Settles O60: the sessions, the mark and the registers by definition, ports and engines channel by channel, and the
buffer holds no byte. -/
theorem resetIsTheTableOfResetValues : Obligations.ResetIsTheTableOfResetValues := by
  refine ⟨rfl, rfl, rfl, fun c => ?_, fun c => ?_, rfl, fun _ => rfl⟩
  · rw [State.reset, State.port_resetWith]
    exact ⟨rfl, rfl⟩
  · rw [State.reset, State.engine_resetWith]
    exact ⟨rfl, rfl, rfl⟩

end Machine
end Sys2Proof
end

section
/-! The paired flush: what the write of one half answers, and what the pair makes of the two. Besides, what an engine's
step leaves alone. -/

namespace Sys2Proof.Machine

/-! ## An engine's step and the rest of the machine -/

/-- Settles O50: an engine's step writes its own engine and the levels left to come (`step_cases`); drawing the next
turn touches neither the block nor an engine. -/
theorem engineStepsStayInTheirEngine : Obligations.EngineStepsStayInTheirEngine := by
  intro s t c hturn h
  obtain ⟨u, rfl, ⟨hblock, -, -⟩ | ⟨c', e, lv, hc', -, rfl⟩⟩ := step_cases h
  · cases hturn.symm.trans hblock
  · obtain rfl : c = c' := Agent.engine.inj (hturn.symm.trans hc')
    refine ⟨⟨rfl, rfl, rfl, rfl, rfl, rfl, rfl, rfl, rfl, rfl, rfl, rfl, rfl⟩, fun d hd => ?_⟩
    rw [State.engine_nextTurn, State.engine_withEngine_other s e lv hd]

/-! ## The write of one half -/

section
variable {s : State} {ch : Chan} {k : Nat}

/-- An empty half is flushed as no call (R283). -/
theorem State.writeHalf_empty (hc : (s.port ch).cur = s.base ch) : s.writeHalf ch = .ok (true, s) := by
  simp only [State.writeHalf, if_pos hc]

theorem State.writeHalf_call (hc : (s.port ch).cur ≠ s.base ch) : s.writeHalf ch = s.writeOut ch := by
  simp only [State.writeHalf, if_neg hc]

/-- A call that counts the whole half succeeds, sends it and uses up one answer (R45, R73). -/
theorem State.writeHalf_counted (h : BufferOk s) (hc : (s.port ch).cur ≠ s.base ch) (ha : s.answer = .count k)
    (hk : (s.port ch).cur ≤ s.base ch + k) :
    ∃ bytes, s.writeHalf ch = .ok (true, s.popAnswer.enqueue ch bytes)
      ∧ bytes.length = (s.port ch).cur - s.base ch
      ∧ ∀ i, i < bytes.length → bytes[i]? = Memory.read s.buf (s.base ch + i) := by
  obtain ⟨bytes, hbytes, hlen, hread⟩ := State.composed_ok h ch
  refine ⟨bytes, ?_, hlen, hread⟩
  rw [State.writeHalf_call hc, State.writeOut_whole hbytes ha (by omega)]

/-- A half that the transport takes whole, `after` being the answers then left: all of them where the half is empty, one
less where a call was made (R45, R283). -/
theorem State.writeHalf_whole {after : Draws Answer} (h : BufferOk s)
    (htaken : if (s.port ch).cur = s.base ch then after = s.answers
      else s.answer = .count k ∧ (s.port ch).cur ≤ s.base ch + k ∧ after = s.answers.next) :
    ∃ bytes, s.writeHalf ch = .ok (true, ({ s with answers := after } : State).enqueue ch bytes)
      ∧ bytes.length = (s.port ch).cur - s.base ch
      ∧ ∀ i, i < bytes.length → bytes[i]? = Memory.read s.buf (s.base ch + i) := by
  split at htaken
  · rename_i hempty
    refine ⟨[], ?_, by simp [hempty], fun i hi => absurd hi (Nat.not_lt_zero i)⟩
    rw [State.writeHalf_empty hempty, State.enqueue_nil, htaken]
  · rename_i hcall
    obtain ⟨hanswer, hk, rfl⟩ := htaken
    exact State.writeHalf_counted h hcall hanswer hk

/-- A call that fails with an error sends nothing and uses up one answer (log entry 18). -/
theorem State.writeHalf_error (h : BufferOk s) (hc : s.base ch < (s.port ch).cur) (ha : s.answer = .error) :
    s.writeHalf ch = .ok (false, s.popAnswer) := by
  obtain ⟨bytes, hbytes, -⟩ := State.composed_ok h ch
  rw [State.writeHalf_call hc.ne']
  simp only [State.writeOut, hbytes, ha]

/-- A call that counts `k` bytes of a longer half fails and sends the first `k` (log entry 18). -/
theorem State.writeHalf_short (h : BufferOk s) (ha : s.answer = .count k) (hk : s.base ch + k < (s.port ch).cur) :
    ∃ bytes, s.writeHalf ch = .ok (false, s.popAnswer.enqueue ch bytes) ∧ bytes.length = k
      ∧ ∀ i, i < k → bytes[i]? = Memory.read s.buf (s.base ch + i) := by
  obtain ⟨bytes, hbytes, hlen, hread⟩ := State.composed_ok h ch
  have hshort : ¬ bytes.length ≤ k := by omega
  refine ⟨bytes.take k, ?_, List.length_take_of_le (by omega), fun i hi => ?_⟩
  · rw [State.writeHalf_call (by omega)]
    simp only [State.writeOut, hbytes, ha, if_neg hshort]
  · rw [List.getElem?_take_of_lt hi, hread i (by omega)]

end

/-! ## The pair -/

section
variable {s t u : State}

theorem State.flushBoth_whole (hB : s.writeHalf .b = .ok (true, t)) (hA : t.writeHalf .a = .ok (true, u)) :
    s.flushBoth = .next ((u.afterFlush .b).afterFlush .a) := by
  simp only [State.flushBoth, hB, hA]

/-- B's call is the first: where it fails, A's half is not written (R73, R283). -/
theorem State.flushBoth_failsB (hB : s.writeHalf .b = .ok (false, t)) :
    s.flushBoth = .next (t.transportError .write) := by
  simp only [State.flushBoth, hB]

theorem State.flushBoth_failsA (hB : s.writeHalf .b = .ok (true, t)) (hA : t.writeHalf .a = .ok (false, u)) :
    s.flushBoth = .next (u.transportError .write) := by
  simp only [State.flushBoth, hB, hA]

theorem State.transportError_engines (s : State) (c : TransportCall) :
    (s.transportError c).engines = s.engines := by rw [State.transportError_eq]

theorem State.transportError_engine (s : State) (c : TransportCall) (ch : Chan) :
    (s.transportError c).engine ch = s.engine ch := by simp only [State.engine, State.transportError_engines]

theorem State.transportError_answers (s : State) (c : TransportCall) :
    (s.transportError c).answers = s.answers := by rw [State.transportError_eq]

/-- A transport error in an operation other than Close ends it as `Ended` says, from any state that differs from the
operation's by engines, ports and answers alone (R342, R352). -/
theorem State.transportError_ended {task : Task} (c : TransportCall) (ht : u.task = some task)
    (hop : task.op ≠ .close)
    (h : { u with engines := s.engines, ports := s.ports, answers := s.answers } = s) :
    Ended (.transport task.op c) task s (u.transportError c) := by
  rw [State.transportError_fatal c ht hop]
  exact State.fatal_ended _ ht h

/-- What a first write leaves is again a buffer in order. -/
theorem BufferOk.enqueue (h : BufferOk s) (answers : Draws Answer) (ch : Chan) (bytes : List Byte) :
    BufferOk (({ s with answers } : State).enqueue ch bytes) := h.congr rfl rfl rfl

end

/-! ## The statement -/

/-- Settles O37: the pair is its two halves (`State.flushBoth_whole`, `State.flushBoth_failsB`,
`State.flushBoth_failsA`), each of which is one of the cases of `State.writeHalf`; A's half is written from the
state that B's left. -/
theorem pairedFlushSendsBothHalves : Obligations.PairedFlushSendsBothHalves := by
  refine ⟨fun s k l afterB afterA hinv htakenB htakenA => ?whole, fun s task hinv htask hop hhalf =>
    ⟨fun herror => ?errorB, fun k hanswer hk => ?shortB, fun k hanswer herror hk hcurA => ?errorA,
      fun k l hanswer hanswerA hk hl => ?shortA⟩,
    fun s task l hinv htask hop hempty hanswer hl => ?shortAAlone⟩
  case whole =>
    obtain ⟨bytesB, hB, hlenB, hreadB⟩ := State.writeHalf_whole (ch := .b) hinv.1 htakenB
    obtain ⟨bytesA, hA, hlenA, hreadA⟩ := State.writeHalf_whole (ch := .a) (k := l) (after := afterA)
      (hinv.1.enqueue afterB .b bytesB) (by simp only [State.base, Nat.zero_add]; exact htakenA)
    simp only [State.base, Nat.zero_add] at hreadA
    exact ⟨bytesA, bytesB, _, State.flushBoth_whole hB hA, hlenA, hlenB, hreadA, hreadB, rfl, rfl, rfl, rfl, rfl, rfl,
      rfl, rfl⟩
  case errorB =>
    have hB := State.writeHalf_error (ch := .b) hinv.1 hhalf herror
    exact ⟨_, State.flushBoth_failsB hB, State.transportError_ended _ htask hop rfl,
      State.transportError_engines _ _, State.transportError_answers _ _⟩
  case shortB =>
    obtain ⟨bytes, hB, hlen, hread⟩ := State.writeHalf_short (ch := .b) hinv.1 hanswer hk
    exact ⟨bytes, _, State.flushBoth_failsB hB, State.transportError_ended _ htask hop rfl, hlen, hread,
      State.transportError_engine _ _ _, State.transportError_engine _ _ _, State.transportError_engine _ _ _,
      State.transportError_answers _ _⟩
  case errorA =>
    obtain ⟨bytes, hB, hlen, hread⟩ := State.writeHalf_counted (ch := .b) hinv.1 hhalf.ne' hanswer hk
    have hA := State.writeHalf_error (ch := .a) (hinv.1.enqueue s.answers.next .b bytes) hcurA herror
    exact ⟨bytes, _, State.flushBoth_failsA hB hA, State.transportError_ended _ htask hop rfl, hlen, hread,
      State.transportError_engine _ _ _, State.transportError_engine _ _ _, State.transportError_engine _ _ _,
      State.transportError_answers _ _⟩
  case shortA =>
    obtain ⟨bytesB, hB, hlenB, hreadB⟩ := State.writeHalf_counted (ch := .b) hinv.1 hhalf.ne' hanswer hk
    obtain ⟨bytesA, hA, hlenA, hreadA⟩ := State.writeHalf_short (ch := .a) (k := l)
      (hinv.1.enqueue s.answers.next .b bytesB) hanswerA (by simp only [State.base, Nat.zero_add]; exact hl)
    simp only [State.base, Nat.zero_add] at hreadA
    exact ⟨bytesA, bytesB, _, State.flushBoth_failsA hB hA, State.transportError_ended _ htask hop rfl, hlenA, hlenB,
      fun i hi => hreadA i (hlenA ▸ hi), hreadB,
      State.transportError_engine _ _ _, State.transportError_engine _ _ _, State.transportError_engine _ _ _,
      State.transportError_answers _ _⟩
  case shortAAlone =>
    have hB := State.writeHalf_empty (ch := .b) hempty
    obtain ⟨bytes, hA, hlen, hread⟩ := State.writeHalf_short (ch := .a) (k := l) hinv.1 hanswer
      (by simp only [State.base, Nat.zero_add]; exact hl)
    simp only [State.base, Nat.zero_add] at hread
    exact ⟨bytes, _, State.flushBoth_failsA hB hA, State.transportError_ended _ htask hop rfl, hlen, hread,
      State.transportError_engine _ _ _, State.transportError_engine _ _ _, State.transportError_engine _ _ _,
      State.transportError_answers _ _⟩

end Sys2Proof.Machine
end

section
/-! Layer 1: the format a first byte announces, what the decoder answers, and the statements about decoder and encoder
that follow. -/

namespace Sys2Proof

/-! ## The format of an instruction, by its first byte -/

/-- What the first byte of an instruction fixes: its length and the one reading of its format (R90 to R93), or that it
is in no row of the table (R96). -/
inductive FirstByte (op : Byte) : Prop where
  | f1 {i : Instr} (length : instrLength op = some 1) (reading : decodeF1 op = some i)
  | f2 (short : op = Config.opWaitShort)
  | f3 (length : instrLength op = some 3) (notF1 : decodeF1 op = none) (notShort : op ≠ Config.opWaitShort)
      (reading : ∀ b1 b2, ∃ i, decodeF3 op b1 b2 = some i)
  | unlisted (length : instrLength op = none) (notF1 : decodeF1 op = none) (notShort : op ≠ Config.opWaitShort)

/-- The first bytes of the table's rows (R94). -/
def listedBytes : List Byte :=
  [Config.opSetLo, Config.opReadLo, Config.opSetHi, Config.opReadHi, Config.opLoopOn, Config.opLoopOff,
   Config.opSetDiv, Config.opWaitHigh, Config.opWaitShort, Config.opWaitLong, Config.probe]

theorem instrLength_eq_none_iff (op : Byte) : instrLength op = none ↔ op ∉ listedBytes := by
  unfold instrLength
  split_ifs with h1 h2 h3
  · rcases h1 with rfl | rfl | rfl | rfl | rfl | rfl <;> decide
  · subst h2; decide
  · rcases h3 with rfl | rfl | rfl | rfl <;> decide
  · simp only [not_or] at h1 h3
    simp [listedBytes, h1, h2, h3]

theorem decodeF1_eq_none_of_instrLength {op : Byte} (h : instrLength op = none) : decodeF1 op = none := by
  rw [instrLength_eq_none_iff] at h
  cases hd : decodeF1 op with
  | none => rfl
  | some i =>
    unfold decodeF1 at hd
    split_ifs at hd <;> subst op <;> exact absurd (by decide) h

theorem firstByte (op : Byte) : FirstByte op := by
  cases hl : instrLength op with
  | none =>
    refine .unlisted hl (decodeF1_eq_none_of_instrLength hl) ?_
    rintro rfl
    cases hl
  | some n =>
    unfold instrLength at hl
    split_ifs at hl with h1 h2 h3
    · rcases h1 with rfl | rfl | rfl | rfl | rfl | rfl <;> exact .f1 rfl rfl
    · exact .f2 h2
    · rcases h3 with rfl | rfl | rfl | rfl <;> exact .f3 rfl rfl (by decide) fun _ _ => ⟨_, rfl⟩

/-! ## What the decoder answers -/

theorem decode_of_f1 {op : Byte} {i : Instr} (h : decodeF1 op = some i) (rest : List Byte) :
    decode (op :: rest) = .ok (i, rest) := by
  simp only [decode, h]

theorem decode_waitShort (u : Byte) (rest : List Byte) :
    decode (Config.opWaitShort :: u :: rest)
      = if u.toNat < 8 then .ok (.waits u.toNat, rest) else .error (.reservedOperand u) := rfl

theorem decode_of_f3 {op b1 b2 : Byte} {i : Instr} (hl : instrLength op = some 3) (h1 : decodeF1 op = none)
    (hs : op ≠ Config.opWaitShort) (h : decodeF3 op b1 b2 = some i) (rest : List Byte) :
    decode (op :: b1 :: b2 :: rest) = .ok (i, rest) := by
  simp [decode, hl, h1, hs, h]

theorem decode_of_unlisted {op : Byte} (h : instrLength op = none) (rest : List Byte) :
    decode (op :: rest) = .error (.unlistedOpcode op) := by
  have hs : op ≠ Config.opWaitShort := by rintro rfl; cases h
  simp [decode, h, decodeF1_eq_none_of_instrLength h, hs]

theorem decode_of_short {op : Byte} {n : Nat} {rest : List Byte} (hl : instrLength op = some n)
    (h : rest.length + 1 < n) : decode (op :: rest) = .error .incomplete := by
  cases firstByte op with
  | f1 length reading =>
    cases hl.symm.trans length
    omega
  | f2 short =>
    subst short
    cases hl
    have : rest = [] := List.length_eq_zero_iff.mp (by omega)
    subst this
    rfl
  | f3 length notF1 notShort reading =>
    cases hl.symm.trans length
    match rest, h with
    | [], _ | [_], _ => simp [decode, length, notF1, notShort]
  | unlisted length => cases hl.symm.trans length

/-- All the decoder can answer for a stream: one case per format, per reason of refusal, and per way to be too short. -/
inductive Decoded : List Byte → Except DecodeError (Instr × List Byte) → Prop where
  | empty : Decoded [] (.error .incomplete)
  | f1 {op : Byte} {i : Instr} {rest : List Byte} (reading : decodeF1 op = some i) :
      Decoded (op :: rest) (.ok (i, rest))
  | waits {u : Byte} {rest : List Byte} (fits : u.toNat < 8) :
      Decoded (Config.opWaitShort :: u :: rest) (.ok (.waits u.toNat, rest))
  | reserved {u : Byte} {rest : List Byte} (above : ¬ u.toNat < 8) :
      Decoded (Config.opWaitShort :: u :: rest) (.error (.reservedOperand u))
  | f3 {op b1 b2 : Byte} {i : Instr} {rest : List Byte} (reading : decodeF3 op b1 b2 = some i) :
      Decoded (op :: b1 :: b2 :: rest) (.ok (i, rest))
  | unlisted {op : Byte} {rest : List Byte} (length : instrLength op = none) :
      Decoded (op :: rest) (.error (.unlistedOpcode op))
  | short {op : Byte} {n : Nat} {rest : List Byte} (length : instrLength op = some n) (missing : rest.length + 1 < n) :
      Decoded (op :: rest) (.error .incomplete)

theorem Decoded.of_short {op : Byte} {n : Nat} {rest : List Byte} (length : instrLength op = some n)
    (missing : rest.length + 1 < n) : Decoded (op :: rest) (decode (op :: rest)) := by
  rw [decode_of_short length missing]
  exact .short length missing

theorem decoded (bytes : List Byte) : Decoded bytes (decode bytes) := by
  match bytes with
  | [] => exact .empty
  | op :: tl =>
    cases firstByte op with
    | f1 length reading => rw [decode_of_f1 reading]; exact .f1 reading
    | f2 is =>
      subst is
      match tl with
      | [] => exact .of_short rfl (by decide)
      | u :: rest =>
        rw [decode_waitShort]
        split
        · next fits => exact .waits fits
        · next above => exact .reserved above
    | f3 length notF1 notShort reading =>
      match tl with
      | [] => exact .of_short length (by decide)
      | [_] => exact .of_short length (by simp)
      | b1 :: b2 :: rest =>
        obtain ⟨i, hi⟩ := reading b1 b2
        rw [decode_of_f3 length notF1 notShort hi]
        exact .f3 hi
    | unlisted length => rw [decode_of_unlisted length]; exact .unlisted length

theorem wellFormed_of_decodeF1 {op : Byte} {i : Instr} (h : decodeF1 op = some i) : i.wellFormed = true := by
  unfold decodeF1 at h
  split_ifs at h <;> cases h <;> rfl

theorem wellFormed_of_decodeF3 {op b1 b2 : Byte} {i : Instr} (h : decodeF3 op b1 b2 = some i) :
    i.wellFormed = true := by
  unfold decodeF3 at h
  split_ifs at h <;> cases h
  · rfl
  · rfl
  · exact decide_eq_true (le16_lt b1 b2)
  · exact decide_eq_true (le16_lt b1 b2)

theorem wellFormed_of_decode {bytes rest : List Byte} {i : Instr} (h : decode bytes = .ok (i, rest)) :
    i.wellFormed = true := by
  have hd := decoded bytes
  rw [h] at hd
  cases hd with
  | f1 reading => exact wellFormed_of_decodeF1 reading
  | waits fits => exact decide_eq_true fits
  | f3 reading => exact wellFormed_of_decodeF3 reading

theorem lo8_toNat_of_lt {n : Nat} (h : n < 2 ^ 8) : (lo8 n).toNat = n := by
  rw [lo8, BitVec.toNat_ofNat, Nat.mod_eq_of_lt h]

theorem decode_encode_append {i : Instr} (h1 : i.layerOne = true) (hw : i.wellFormed = true) (rest : List Byte) :
    decode (encode i ++ rest) = .ok (i, rest) := by
  cases i with
  | setlo | readlo | sethi | readhi | loopon | loopoff | waithi | probe => rfl
  | setdiv n =>
    have hn : le16 (lo8 n) (hi8 n) = n := le16_lo8_hi8 (of_decide_eq_true hw)
    exact (decode_of_f3 rfl rfl (by decide) rfl rest).trans (by rw [hn])
  | waitl n =>
    have hn : le16 (lo8 n) (hi8 n) = n := le16_lo8_hi8 (of_decide_eq_true hw)
    exact (decode_of_f3 rfl rfl (by decide) rfl rest).trans (by rw [hn])
  | waits u =>
    have hu : u < 8 := of_decide_eq_true hw
    have hlo : (lo8 u).toNat = u := lo8_toNat_of_lt (by omega)
    exact (decode_waitShort (lo8 u) rest).trans (by rw [hlo, if_pos hu])
  | _ => cases h1

/-- Settles O3: what the decoder reads is of layer 1, well formed and encoded in front of the rest, and each encoding
is read back. -/
theorem decodeInvertsEncode : Obligations.DecodeInvertsEncode := fun _ _ rest =>
  ⟨fun h => ⟨Machine.decode_layerOne h, wellFormed_of_decode h, Machine.eq_encode_append_of_decode h⟩,
    fun ⟨h1, hw, hbytes⟩ => hbytes ▸ decode_encode_append h1 hw rest⟩

/-! ## Whole streams -/

theorem decodeAll_cons {i : Instr} {is : List Instr} {bytes rest : List Byte} {fuel : Nat}
    (hd : decode bytes = .ok (i, rest)) (hr : decodeAll fuel rest = .ok is) :
    decodeAll (fuel + 1) bytes = .ok (i :: is) := by
  cases bytes with
  | nil => cases hd
  | cons b bs => simp only [decodeAll, hd, hr]

/-- Settles O4, by induction on the list of instructions. -/
theorem emittedStreamsDecodeWhole : Obligations.EmittedStreamsDecodeWhole := by
  intro is h
  induction is with
  | nil => rfl
  | cons i is ih =>
    obtain ⟨⟨h1, hw⟩, his⟩ := List.forall_mem_cons.mp h
    rw [List.flatMap_cons]
    exact decodeAll_cons (decode_encode_append h1 hw _) (ih his)

/-! ## What is refused -/

theorem decode_unlistedOpcode_iff (b : Byte) (rest : List Byte) :
    decode (b :: rest) = .error (.unlistedOpcode b) ↔ instrLength b = none := by
  refine ⟨fun h => ?_, fun h => decode_of_unlisted h rest⟩
  have hd := decoded (b :: rest)
  rw [h] at hd
  cases hd with
  | unlisted length => exact length

theorem decode_reservedOperand_iff (u : Byte) (rest : List Byte) :
    decode (Config.opWaitShort :: u :: rest) = .error (.reservedOperand u) ↔ 7 < u.toNat := by
  rw [decode_waitShort]
  split
  · next h => exact ⟨nofun, fun h7 => by omega⟩
  · next h => exact ⟨fun _ => by omega, fun _ => rfl⟩

/-- Settles O5: the unlisted first bytes are those of no length, and a `WAITS` operand is read where it is below 8. -/
theorem reservedEncodingsAreRefused : Obligations.ReservedEncodingsAreRefused := fun b rest =>
  ⟨(decode_unlistedOpcode_iff b rest).trans (instrLength_eq_none_iff b), fun u => decode_reservedOperand_iff u rest⟩

/-! ## The field table -/

theorem lo8_toNat (n : Half) : lo8 n.toNat = n.extractLsb' 0 8 :=
  BitVec.eq_of_toNat_eq (by rw [lo8, BitVec.toNat_ofNat, BitVec.extractLsb'_toNat, Nat.shiftRight_zero])

theorem hi8_toNat (n : Half) : hi8 n.toNat = n.extractLsb' 8 8 :=
  BitVec.eq_of_toNat_eq (by rw [hi8, BitVec.toNat_ofNat, BitVec.extractLsb'_toNat])

theorem lo8_toNat_short (u : BitVec 3) : lo8 u.toNat = 0#5 ++ u := by
  have hu : u.toNat < 8 := u.isLt
  apply BitVec.eq_of_toNat_eq
  rw [lo8_toNat_of_lt (by omega), BitVec.toNat_append]
  simp

/-- Settles O1: the rows by their definition, the operand bytes by `lo8_toNat`, `hi8_toNat` and `lo8_toNat_short`. -/
theorem encodingsAreTheFieldTable : Obligations.EncodingsAreTheFieldTable :=
  ⟨fun _ _ => rfl, rfl, fun _ _ => rfl, rfl, rfl, rfl,
    fun n => by rw [encode, lo8_toNat, hi8_toNat]; rfl, rfl,
    fun u => by rw [encode, lo8_toNat_short]; rfl,
    fun n => by rw [encode, lo8_toNat, hi8_toNat]; rfl, rfl⟩

/-- Settles O2, by running the decoder on each of the eight words. -/
theorem writtenWordsDecode : Obligations.WrittenWordsDecode := by
  unfold Obligations.WrittenWordsDecode
  decide

end Sys2Proof
end

section
/-! Layer 2: the rows of the table of ICSP units and the bits of a frame. -/

namespace Sys2Proof

/-! ## The rows of the layer-2 table -/

/-- The rows `decodeUnit` tries: command byte, width of the payload where one follows, and instruction (R103, R104). -/
def unitRows (p : Config.Params) : List (Byte × Option Nat × (Nat → Instr)) :=
  [(p.opLoadPc, some 22, .loadaddr), (p.opReadInc, none, fun _ => .readword), (p.opProgInc, some 16, .progword),
   (p.opProgByte, some 8, .progbyte), (p.opIncAddr, none, fun _ => .incaddr), (p.opBulkErase, some 4, .erase),
   (p.key0, none, fun _ => .key0), (p.key1, none, fun _ => .key1), (p.key2, none, fun _ => .key2),
   (p.key3, none, fun _ => .key3)]

theorem decodeUnit_eq_filterMap (p : Config.Params) (bytes : List Byte) :
    decodeUnit p bytes = (unitRows p).filterMap fun (cmd, width, mk) => readRow bytes cmd width mk := rfl

theorem readRow_command (c : Byte) (mk : Nat → Instr) : readRow [c] c none mk = some (mk 0) := if_pos rfl

theorem readRow_frame {w x : Nat} (c : Byte) (mk : Nat → Instr) (hx : x < 2 ^ w) (hw : w ≤ 22) :
    readRow (c :: frameBytes (frameValue x)) c (some w) mk = some (mk x) := by
  simp only [readRow, frameBytes, if_true, framePayload_frameBytes hx hw, Option.map_some]

theorem readRow_of_command_ne {c cmd : Byte} (h : c ≠ cmd) (tl : List Byte) (width : Option Nat)
    (mk : Nat → Instr) : readRow (c :: tl) cmd width mk = none := by
  unfold readRow
  split
  · next heq => cases heq; exact if_neg h
  · next heq => cases heq; exact if_neg h
  · rfl

/-- The row of a well-formed layer-2 instruction reads its wire form, which begins with that row's command. -/
theorem exists_unitRow (p : Config.Params) {i : Instr} (h2 : i.layerOne = false) (hw : i.wellFormed = true) :
    ∃ cmd width mk tl, (cmd, width, mk) ∈ unitRows p ∧ encodeUnit p i = cmd :: tl
      ∧ readRow (cmd :: tl) cmd width mk = some i := by
  cases i with
  | loadaddr a =>
    exact ⟨p.opLoadPc, some 22, .loadaddr, _, by simp [unitRows], rfl,
      readRow_frame _ _ (of_decide_eq_true hw) (by decide)⟩
  | progword w =>
    exact ⟨p.opProgInc, some 16, .progword, _, by simp [unitRows], rfl,
      readRow_frame _ _ (of_decide_eq_true hw) (by decide)⟩
  | progbyte b =>
    exact ⟨p.opProgByte, some 8, .progbyte, _, by simp [unitRows], rfl,
      readRow_frame _ _ (of_decide_eq_true hw) (by decide)⟩
  | erase m =>
    exact ⟨p.opBulkErase, some 4, .erase, _, by simp [unitRows], rfl,
      readRow_frame _ _ (of_decide_eq_true hw) (by decide)⟩
  | readword => exact ⟨p.opReadInc, none, fun _ => .readword, [], by simp [unitRows], rfl, readRow_command _ _⟩
  | incaddr => exact ⟨p.opIncAddr, none, fun _ => .incaddr, [], by simp [unitRows], rfl, readRow_command _ _⟩
  | key0 => exact ⟨p.key0, none, fun _ => .key0, [], by simp [unitRows], rfl, readRow_command _ _⟩
  | key1 => exact ⟨p.key1, none, fun _ => .key1, [], by simp [unitRows], rfl, readRow_command _ _⟩
  | key2 => exact ⟨p.key2, none, fun _ => .key2, [], by simp [unitRows], rfl, readRow_command _ _⟩
  | key3 => exact ⟨p.key3, none, fun _ => .key3, [], by simp [unitRows], rfl, readRow_command _ _⟩
  | _ => cases h2

/-- Where the keys of a list are distinct and `f` answers at the key of `a` alone, `a` gives the one answer. -/
theorem filterMap_eq_singleton_of_nodup {α β κ : Type} {key : α → κ} {f : α → Option β} {l : List α}
    {a : α} {b : β} (hnodup : (l.map key).Nodup) (ha : a ∈ l) (hb : f a = some b)
    (hf : ∀ x, key a ≠ key x → f x = none) :
    l.filterMap f = [b] := by
  obtain ⟨before, after, rfl⟩ := List.append_of_mem ha
  simp only [List.map_append, List.map_cons, List.nodup_middle, List.nodup_cons, List.mem_append, not_or] at hnodup
  obtain ⟨⟨hbefore, hafter⟩, -⟩ := hnodup
  have hnil : ∀ xs : List α, key a ∉ xs.map key → xs.filterMap f = [] := fun xs hxs =>
    List.filterMap_eq_nil_iff.mpr fun x hx => hf x fun h => hxs (h ▸ List.mem_map_of_mem hx)
  rw [List.filterMap_append, List.filterMap_cons_some hb, hnil before hbefore, hnil after hafter, List.nil_append]

/-- Settles O6: the instruction's own row reads its wire form (`exists_unitRow`), and a row with another command does
not (`readRow_of_command_ne`). -/
theorem wireFormsAreReadBack : Obligations.WireFormsAreReadBack := by
  intro p i h2 hw
  obtain ⟨cmd, width, mk, tl, hrow, hunit, hread⟩ := exists_unitRow p h2 hw
  rw [hunit, decodeUnit_eq_filterMap]
  refine ⟨List.mem_filterMap.mpr ⟨_, hrow, hread⟩, fun hnodup => ?_⟩
  exact filterMap_eq_singleton_of_nodup (key := Prod.fst) hnodup hrow hread
    fun x hx => readRow_of_command_ne hx tl x.2.1 x.2.2

/-! ## The bits of a frame -/

theorem getLsbD_frameValue (x j : Nat) :
    (frameValue x).getLsbD j = (decide (j < 24) && (decide (1 ≤ j) && x.testBit (j - 1))) := by
  rw [frameValue, BitVec.getLsbD_ofNat, Nat.testBit_shiftLeft]

theorem getLsbD_frameValue_of_width_lt {w x j : Nat} (hx : x < 2 ^ w) (hj : w < j) :
    (frameValue x).getLsbD j = false := by
  have hbit : x.testBit (j - 1) = false :=
    Nat.testBit_lt_two_pow (lt_of_lt_of_le hx (Nat.pow_le_pow_right (by decide) (by omega)))
  simp only [getLsbD_frameValue, hbit, Bool.and_false]

theorem getLsbD_frameValue_succ (x : Nat) {j : Nat} (hj : j < 23) :
    (frameValue x).getLsbD (j + 1) = x.testBit j := by
  have h24 : j + 1 < 24 := by omega
  rw [getLsbD_frameValue]
  simp [h24]

theorem frameBytes_map_toNat (f : BitVec 24) :
    (frameBytes f).map BitVec.toNat = [f.toNat / 65536, f.toNat / 256 % 256, f.toNat % 256] := by
  have hhigh : f.toNat / 65536 < 256 := by have := f.isLt; omega
  simp [frameBytes, BitVec.extractLsb'_toNat, Nat.shiftRight_eq_div_pow, Nat.mod_eq_of_lt hhigh]

/-- Settles O7: bit `j + 1` of a frame is bit `j` of its payload, which has no bit at or above its width. -/
theorem frameBitsAreTheFieldTable : Obligations.FrameBitsAreTheFieldTable := by
  intro w x hw hx
  have hw22 : w ≤ 22 := (by decide : ∀ v ∈ [4, 8, 16, 22], v ≤ 22) w hw
  exact ⟨getLsbD_frameValue_of_width_lt hx (by omega), getLsbD_frameValue x 0,
    fun j hj => getLsbD_frameValue_succ x (by omega), fun j hj _ => getLsbD_frameValue_of_width_lt hx hj,
    frameBytes_map_toNat _⟩

end Sys2Proof
end

section
/-! An engine whose queue holds no whole listed instruction: its step is what the decoder answers. -/

namespace Sys2Proof.Machine

theorem step_of_engine_turn {s : State} {c : Chan} (h : s.turn = .engine c) : step s = passTurn (engineStep c s) := by
  simp only [step, agentStep, h]

theorem engineStep_of_incomplete {s : State} {c : Chan} (h : decode (s.engine c).q = .error .incomplete) :
    engineStep c s = .next s := by
  simp only [engineStep, h]

theorem engineStep_of_unlisted {s : State} {c : Chan} {b : Byte}
    (h : decode (s.engine c).q = .error (.unlistedOpcode b)) : engineStep c s = .refused (.unlistedOpcode b) := by
  simp only [engineStep, h]

theorem engineStep_of_reserved {s : State} {c : Chan} {u : Byte}
    (h : decode (s.engine c).q = .error (.reservedOperand u)) : engineStep c s = .refused (.reservedOperand u) := by
  simp only [engineStep, h]

/-- Settles O47: the engine's step is what the decoder answers for its queue, and the turn passes. -/
theorem engineAtNoInstruction : Obligations.EngineAtNoInstruction := by
  intro s c hturn
  rw [step_of_engine_turn hturn]
  refine ⟨fun b rest hq hl => ?unlisted, fun u rest hq hu => ?reserved, fun hq => ?empty,
    fun b rest n hq hl hn => ?short⟩
  case unlisted => rw [engineStep_of_unlisted (hq ▸ decode_of_unlisted hl rest), passTurn]
  case reserved => rw [engineStep_of_reserved (hq ▸ (decode_reservedOperand_iff u rest).mpr hu), passTurn]
  case empty => rw [engineStep_of_incomplete (hq ▸ rfl), passTurn]
  case short => rw [engineStep_of_incomplete (hq ▸ decode_of_short hl hn), passTurn]

end Sys2Proof.Machine
end

section
/-! A layer-1 instruction on an engine's turn: the engine it leaves, or its refusal, and the statements about execution
that say so. -/

namespace Sys2Proof.Machine

/-! ## Frames -/

theorem SameButEngine.setEngine (s : State) (c : Chan) (e : Engine) : SameButEngine c s (s.setEngine c e) :=
  ⟨fun _ hd => State.engine_setEngine_other s e hd, rfl⟩

/-- An instruction whose effect is one engine record: that engine holds the record, and nothing else changes. -/
theorem exists_engine_of_exec {i : Instr} {s : State} {c : Chan} {e : Engine}
    (h : exec i s = .next (s.setEngine c e)) :
    ∃ t, exec i s = .next t ∧ t.engine c = e ∧ SameButEngine c s t :=
  ⟨_, h, State.engine_setEngine_same s c e, .setEngine s c e⟩

/-! ## Execution, instruction by instruction -/

/-- On an engine's turn an instruction takes its executing side (log entry 13). -/
theorem State.bySide_engine {s : State} {c : Chan} (h : s.turn = .engine c) (i : Instr)
    (run : Chan → Host.Outcome State Fault Refusal) : s.bySide i run = run c := by
  simp only [State.bySide, h]

section Execution
variable {s : State} {c : Chan} (h : s.turn = .engine c)
include h

theorem exec_setlo_engine (v d : Byte) :
    exec (.setlo v d) s = .next (s.setEngine c { s.engine c with valLo := v, dirLo := d }) :=
  State.bySide_engine h _ _

theorem exec_sethi_engine (v d : Byte) :
    exec (.sethi v d) s = .next (s.setEngine c { s.engine c with valHi := v, dirHi := d }) :=
  State.bySide_engine h _ _

theorem exec_pinRead_engine {i : Instr} (hi : i = .readlo ∨ i = .readhi) : exec i s = .next (s.samplePins c) := by
  obtain rfl | rfl := hi <;> exact State.bySide_engine h _ _

theorem exec_loopon_engine : exec .loopon s = .next (s.setEngine c { s.engine c with loop := true }) :=
  State.bySide_engine h _ _

theorem exec_loopoff_engine : exec .loopoff s = .next (s.setEngine c { s.engine c with loop := false }) :=
  State.bySide_engine h _ _

theorem exec_probe_engine :
    exec .probe s = .next (s.setEngine c { s.engine c with rsp := (s.engine c).rsp ++ [0xFA, 0xAA] }) :=
  State.bySide_engine h _ _

theorem exec_setdiv_engine {n : Nat} (hn : n < 2 ^ 16) :
    exec (.setdiv n) s = .next (s.setEngine c { s.engine c with div := BitVec.ofNat 16 n }) :=
  (State.bySide_engine h _ _).trans (if_pos hn)

theorem exec_waits_engine {u : Nat} (hu : u < 8) :
    exec (.waits u) s = .next (s.setEngine c { s.engine c with delay := u + 1 }) :=
  (State.bySide_engine h _ _).trans (if_pos hu)

theorem exec_waitl_engine {n : Nat} (hn : n < 2 ^ 16) :
    exec (.waitl n) s = .next (s.setEngine c { s.engine c with delay := 8 * (n + 1) }) :=
  (State.bySide_engine h _ _).trans (if_pos hn)

theorem exec_setdiv_engine_wide {n : Nat} (hn : 2 ^ 16 ≤ n) : exec (.setdiv n) s = .refused .unencodableOperand :=
  (State.bySide_engine h _ _).trans (if_neg (Nat.not_lt.mpr hn))

theorem exec_waits_engine_wide {u : Nat} (hu : 8 ≤ u) : exec (.waits u) s = .refused .unencodableOperand :=
  (State.bySide_engine h _ _).trans (if_neg (Nat.not_lt.mpr hu))

theorem exec_waitl_engine_wide {n : Nat} (hn : 2 ^ 16 ≤ n) : exec (.waitl n) s = .refused .unencodableOperand :=
  (State.bySide_engine h _ _).trans (if_neg (Nat.not_lt.mpr hn))

theorem exec_waithi_engine_offB (hc : c ≠ .b) : exec .waithi s = .refused (.waitHighOffB c) := by
  refine (State.bySide_engine h _ _).trans ?_
  cases c with
  | icsp | a => rfl
  | b => exact absurd rfl hc

end Execution

theorem exec_waithi_engineB {s : State} (h : s.turn = .engine .b) : exec .waithi s = .next (s.waitHigh .b) :=
  State.bySide_engine h _ _

/-! ## The wait and its poll -/

theorem State.waitHigh_running {s : State} {c : Chan} (h : (s.engine c).st = .running) :
    s.waitHigh c = s.setEngine c { s.engine c with st := .blocked } := by
  simp only [State.waitHigh, h, State.setStatus]

theorem State.waitHigh_blocked {s : State} {c : Chan} (h : (s.engine c).st = .blocked) :
    s.waitHigh c =
      { s with levels := s.popLevel.levels }.setEngine c
        { s.engine c with st := if s.readyLevel then .running else .blocked } := by
  simp only [State.waitHigh, h]
  rw [State.popLevel_eq]
  rfl

section Poll
variable {s : State}

theorem State.popLevel_levels_external (h : s.params.readyModel = .external) : s.popLevel.levels = s.levels.next := by
  simp only [State.popLevel, h]

theorem State.popLevel_levels_wired {m : Byte} (h : s.params.readyModel = .wired m) : s.popLevel.levels = s.levels := by
  simp only [State.popLevel, h]

theorem State.readyLevel_external (h : s.params.readyModel = .external) :
    s.readyLevel = s.levels.value Config.level := by
  simp only [State.readyLevel, h]

theorem State.readyLevel_wired_iff {m : Byte} (h : s.params.readyModel = .wired m) :
    s.readyLevel = true ↔ (s.engine .a).valLo &&& m ≠ 0#8 ∧ (s.engine .a).dirLo &&& m ≠ 0#8 := by
  simp only [State.readyLevel, h, Bool.and_eq_true, bne_iff_ne]

end Poll

/-! ## The statements -/

/-- Settles O15, by the equations of the two pin writes. -/
theorem pinWritesReplaceTheirBank : Obligations.PinWritesReplaceTheirBank := fun _ _ v d hturn =>
  ⟨exists_engine_of_exec (exec_setlo_engine hturn v d), exists_engine_of_exec (exec_sethi_engine hturn v d)⟩

/-- Settles O16: both pin reads are `State.samplePins`, and the sample is the first one listed or a free value. -/
theorem pinReadsAppendOneSample : Obligations.PinReadsAppendOneSample := by
  intro s c i hturn hread
  obtain ⟨t, hexec, hengine, hframe⟩ := exists_engine_of_exec (exec_pinRead_engine hturn hread)
  refine ⟨t, hexec, hengine, hframe, fun x xs hlisted => ?_, fun hfree => ?_⟩
  · rw [hengine, State.sample, Draws.value_listed _ hlisted, Draws.next_listed hlisted]
  · rw [hengine, State.sample, Draws.value_free _ hfree, Draws.next_free hfree]

/-- Settles O17, by the equations of the three instructions; the divisor's operand is a 16-bit value. -/
theorem setupInstructionsWriteTheirRegister : Obligations.SetupInstructionsWriteTheirRegister := by
  intro s c n hturn
  refine ⟨exists_engine_of_exec (exec_loopon_engine hturn), exists_engine_of_exec (exec_loopoff_engine hturn), ?_⟩
  have hdiv := exec_setdiv_engine hturn n.isLt
  rw [BitVec.ofNat_toNat, BitVec.setWidth_eq] at hdiv
  exact exists_engine_of_exec hdiv

/-- Settles O18, by the equations of the two delays. -/
theorem delaysChangeNothingObservable : Obligations.DelaysChangeNothingObservable := fun _ _ hturn =>
  ⟨fun _ hu => exists_engine_of_exec (exec_waits_engine hturn hu),
    fun _ hn => exists_engine_of_exec (exec_waitl_engine hturn hn)⟩

/-- Settles O19, by the equation of the probe. -/
theorem probeAnswersItsEcho : Obligations.ProbeAnswersItsEcho := fun _ _ hturn =>
  exists_engine_of_exec (exec_probe_engine hturn)

/-- Settles O20: a running engine starts its wait, a blocked one polls, by a draw or by A's control bank. -/
theorem waitHighBlocksUntilAPollReadsHigh : Obligations.WaitHighBlocksUntilAPollReadsHigh := by
  intro s hturn
  have hexec := exec_waithi_engineB hturn
  refine ⟨fun hrunning => ?_, fun hblocked => ?_, fun m hwired => State.readyLevel_wired_iff hwired⟩
  · rw [State.waitHigh_running hrunning] at hexec
    exact exists_engine_of_exec hexec
  · rw [State.waitHigh_blocked hblocked] at hexec
    refine ⟨_, hexec, State.engine_setEngine_same _ _ _, SameButEngine.setEngine _ _ _,
      fun hexternal => ?_, fun m hwired => State.popLevel_levels_wired hwired⟩
    rw [State.engine_setEngine_same, State.setEngine_levels, State.popLevel_levels_external hexternal,
      State.readyLevel_external hexternal]
    exact ⟨fun x xs hlisted => ⟨by rw [Draws.value_listed _ hlisted], Draws.next_listed hlisted⟩,
      fun hfree => ⟨by rw [Draws.value_free _ hfree], Draws.next_free hfree⟩⟩

/-- Settles O21, by the refusing equation of each instruction. -/
theorem stopsOnAnEngine : Obligations.StopsOnAnEngine := fun _ _ hturn =>
  ⟨exec_waithi_engine_offB hturn,
    fun _ hn => ⟨exec_setdiv_engine_wide hturn hn, exec_waitl_engine_wide hturn hn⟩,
    fun _ hu => exec_waits_engine_wide hturn hu⟩

end Sys2Proof.Machine
end

section
/-! An engine at a whole instruction: its step is that instruction and, once the instruction has finished, its bytes off
the queue. -/

namespace Sys2Proof.Machine

/-! ## The step at a decoded instruction -/

section Decoded
variable {s : State} {c : Chan} {i : Instr} {rest : List Byte} (hd : decode (s.engine c).q = .ok (i, rest))
include hd

theorem engineStep_of_next {t : State} (h : exec i s = .next t) : engineStep c s = .next (t.retire c i rest) := by
  simp only [engineStep, hd, h]

theorem engineStep_of_refused {r : Refusal} (h : exec i s = .refused r) : engineStep c s = .refused r := by
  simp only [engineStep, hd, h]

theorem engineStep_of_fault {f : Fault} (h : exec i s = .fault f) : engineStep c s = .fault f := by
  simp only [engineStep, hd, h]

end Decoded

/-- Settles O45: the engine's step follows what the instruction answers, and the turn passes. -/
theorem engineStepRunsTheDecodedInstruction : Obligations.EngineStepRunsTheDecodedInstruction := by
  intro s c i rest hturn hd
  rw [step_of_engine_turn hturn]
  refine ⟨fun t hnext => ?_, fun r hrefused => ?_, fun f hfault => ?_⟩
  · rw [engineStep_of_next hd hnext]; rfl
  · rw [engineStep_of_refused hd hrefused]; rfl
  · rw [engineStep_of_fault hd hfault]; rfl

/-! ## Engine B at a wait -/

theorem State.retire_waithi_blocked {s : State} {c : Chan} (h : (s.engine c).st = .blocked) (rest : List Byte) :
    s.retire c .waithi rest = s := if_pos ⟨rfl, h⟩

theorem State.retire_waithi_running {s : State} {c : Chan} (h : (s.engine c).st = .running) (rest : List Byte) :
    s.retire c .waithi rest = s.setEngine c { s.engine c with q := rest } :=
  if_neg fun ⟨_, hb⟩ => by simp [h] at hb

/-- A step of B at a wait runs that wait alone (R131). -/
theorem step_at_wait {s : State} {rest : List Byte} (hturn : s.turn = .engine .b)
    (hq : (s.engine .b).q = Config.opWaitHigh :: rest) :
    step s = .next ((s.waitHigh .b).retire .b .waithi rest).nextTurn := by
  have hd : decode (s.engine .b).q = .ok (.waithi, rest) := hq ▸ decode_of_f1 rfl rest
  rw [step_of_engine_turn hturn, engineStep_of_next hd (exec_waithi_engineB hturn), passTurn]

/-- Settles O48: the wait starts, or polls, and leaves the queue where the poll has set the engine running. -/
theorem nothingPassesAWaitBeforeAHighPoll : Obligations.NothingPassesAWaitBeforeAHighPoll := by
  intro s t rest hturn hq hstep
  rw [step_at_wait hturn hq] at hstep
  obtain rfl := Host.Outcome.next.inj hstep
  rw [State.engine_nextTurn]
  refine ⟨fun hrunning => ?starts, fun hblocked hlow => ?stays, fun hblocked hhigh => ?leaves⟩
  case starts =>
    rw [State.waitHigh_running hrunning, State.retire_waithi_blocked (by simp), State.engine_setEngine_same]
  case stays =>
    rw [State.waitHigh_blocked hblocked, State.retire_waithi_blocked (by simp [hlow]), State.engine_setEngine_same]
    simp [hlow, ← hblocked]
  case leaves =>
    rw [State.waitHigh_blocked hblocked, State.retire_waithi_running (by simp [hhigh])]
    simp [hhigh]

end Sys2Proof.Machine
end

section
/-! Emission where an operand check fails, and the pseudo-instructions: the stream of layer-1 instructions each stands
for, and what running it writes. -/

namespace Sys2Proof.Machine

/-! ## One instruction that is not written -/

theorem State.emitAll_refused {s : State} {ch : Chan} {i : Instr} {f : Mark} (h : s.emitCheck ch i = some f)
    (is : List Instr) : s.emitAll ch (i :: is) = s.fault f := by
  simp only [State.emitAll, State.emitInstr, h]

theorem State.emitAll_first_overflows {s : State} {ch : Chan} {i : Instr} (hp : passes i = true)
    (h : s.limit ch < (s.port ch).cur + (encode i).length) (is : List Instr) :
    s.emitAll ch (i :: is) = s.fault .bufferOverflow := by
  simp only [State.emitAll, State.emitInstr, s.emitCheck_passes ch hp, State.emitBytes_overflow h]

/-- A layer-1 instruction whose operand check fails is that fault on the block's turn, with nothing written. -/
theorem exec_block_refused {i : Instr} {s : State} {f : Mark} (hi : i.layerOne = true) (hturn : s.turn = .block)
    (hcheck : s.emitCheck s.emitCh i = some f) : ∃ t, exec i s = .next t ∧ Faulted f s t := by
  refine ⟨s.fault f, ?_, s.faulted_fault f⟩
  rw [exec_layerOne_block hi hturn, State.emitAll_refused hcheck]

/-- Settles O9: each clause is the operand check of its emitter. -/
theorem emitterChecksFault : Obligations.EmitterChecksFault := fun _ hturn =>
  ⟨fun _ hu => exec_block_refused rfl hturn (if_pos hu), fun _ hn => exec_block_refused rfl hturn (if_pos hn),
    fun _ hn => exec_block_refused rfl hturn (if_pos hn), fun hoff => exec_block_refused rfl hturn (if_neg hoff)⟩

/-! ## The streams of the pseudo-instructions -/

/-- A pseudo-instruction stands for a stream of layer-1 instructions whose operand checks pass (R106). -/
structure ExpandsTo (p : Config.Params) (ch : Chan) (e : Emitter) (is : List Instr) : Prop where
  pseudo : ∀ i, e ≠ .instr i
  stream : expand p ch e = .ok is
  nonempty : is ≠ []
  passes : ∀ i ∈ is, passes i = true

section Streams
variable (p : Config.Params) (ch : Chan)

theorem expandsTo_icspBit (b : Bool) : ExpandsTo p ch (.icspBit b) (icspBit p b) where
  pseudo := nofun
  stream := rfl
  nonempty := nofun
  passes := by simp [icspBit, pinWh, pinWl, Machine.passes]

theorem expandsTo_icspCmd {c : Nat} (hc : c ≤ 0xFF) : ExpandsTo p ch (.icspCmd c) (icspByte p (lo8 c)) where
  pseudo := nofun
  stream := if_neg (Nat.not_lt.mpr hc)
  nonempty := nofun
  passes := passes_icspByte p _

theorem expandsTo_icspFrame {w x : Nat} (hw : w ∈ [4, 8, 16, 22]) (hx : x < 2 ^ w) :
    ExpandsTo p ch (.icspFrame w x) ((frameBytes (frameValue x)).flatMap (icspByte p)) where
  pseudo := nofun
  stream := by simp only [expand, icspFrame, checkedFrame, hw, hx, and_self, if_true]
  nonempty := nofun
  passes := passes_frame p _

theorem expandsTo_icspRead : ExpandsTo p ch .icspRead (icspReadFrame p) where
  pseudo := nofun
  stream := rfl
  nonempty := nofun
  passes := passes_icspReadFrame p

theorem expandsTo_cartLatch (x : Byte) : ExpandsTo p ch (.cartLatch x.toNat) [.sethi x 0xFF] where
  pseudo := nofun
  stream := by
    have hx : ¬ x.toNat > 0xFF := by omega
    simp [expand, cartLatch, hx, pinWrite, Config.dataBank, lo8]
  nonempty := nofun
  passes := by simp [Machine.passes]

theorem expandsTo_cartRelease : ExpandsTo p ch .cartRelease [.sethi 0x00 0x00] where
  pseudo := nofun
  stream := rfl
  nonempty := nofun
  passes := by simp [Machine.passes]

theorem expandsTo_cartSample : ExpandsTo p ch .cartSample [.readhi] where
  pseudo := nofun
  stream := rfl
  nonempty := nofun
  passes := by simp [Machine.passes]

end Streams

/-! ## Running a pseudo-instruction -/

/-- A pseudo-instruction is the emission of its expansion on the channel named (R106). -/
theorem runEmitter_pseudo {e : Emitter} (h : ∀ i, e ≠ .instr i) (ch : Chan) (s : State) :
    runEmitter ch e s = .next ({ s with emitCh := ch }.emitStream ch (expand s.params ch e)) := by
  cases e with
  | instr i => exact absurd rfl (h i)
  | _ => rfl

theorem runEmitter_of_expand {e : Emitter} {ch : Chan} {s : State} {is : List Instr} (h : ∀ i, e ≠ .instr i)
    (hs : expand s.params ch e = .ok is) : runEmitter ch e s = .next ({ s with emitCh := ch }.emitAll ch is) := by
  rw [runEmitter_pseudo h, hs, State.emitStream]

/-- An emission that is a fault at once leaves everything but the fault as it was. -/
theorem runEmitter_faulted {e : Emitter} {ch : Chan} {s : State} {f : Mark} (h : ∀ i, e ≠ .instr i)
    (hs : { s with emitCh := ch }.emitStream ch (expand s.params ch e) = { s with emitCh := ch }.fault f) :
    ∃ u, runEmitter ch e s = .next u ∧ Faulted f { s with emitCh := ch } u :=
  ⟨_, (runEmitter_pseudo h ch s).trans (congrArg Host.Outcome.next hs), State.faulted_fault _ f⟩

section Running
variable {s : State} {ch : Chan} {e : Emitter} {is : List Instr} (h : ExpandsTo s.params ch e is)
include h

theorem ExpandsTo.fits (hfits : (s.port ch).cur + (is.flatMap encode).length ≤ s.limit ch) :
    ∃ u, runEmitter ch e s = .next u
      ∧ Emitted ch (is.flatMap encode) (is.map samplesOf).sum { s with emitCh := ch } u :=
  ⟨_, runEmitter_of_expand h.pseudo h.stream, State.emitAll_fits _ ch is h.passes hfits⟩

theorem ExpandsTo.overflow (hover : s.limit ch < (s.port ch).cur + (is.flatMap encode).length) :
    ∃ (pre post : List Instr) (next : Instr) (mid u : State),
      pre ++ next :: post = is
        ∧ Emitted ch (pre.flatMap encode) (pre.count .readlo + pre.count .readhi) { s with emitCh := ch } mid
        ∧ (pre ≠ [] → (s.port ch).cur + (pre.flatMap encode).length ≤ s.limit ch)
        ∧ s.limit ch < (s.port ch).cur + (pre.flatMap encode).length + (encode next).length
        ∧ runEmitter ch e s = .next u ∧ Faulted .bufferOverflow mid u := by
  obtain ⟨pre, next, post, mid, hsplit, hemitted, hfits, hnext, hfault⟩ :=
    State.emitAll_overflow { s with emitCh := ch } ch is h.passes h.nonempty hover
  refine ⟨pre, post, next, mid, _, hsplit.symm, sum_samplesOf pre ▸ hemitted, hfits.resolve_left, hnext, ?_,
    mid.faulted_fault _⟩
  rw [runEmitter_of_expand h.pseudo h.stream, hfault]

end Running

/-! ## Calibrated delays -/

/-- A calibrated delay and the clocks it lasts on a channel (R129, R130). -/
theorem expand_delay (p : Config.Params) {ch : Chan} {t : Nat} {e : Emitter} {clocks : Nat}
    (h : (e = .waitUs t ∧ clocks = (if ch = .icsp then 2 else 10) * t)
      ∨ (e = .waitMs t ∧ clocks = (if ch = .icsp then 2000 else 10000) * t)) :
    (∀ i, e ≠ .instr i) ∧ expand p ch e = .ok [.waitl (clocks * 2 / 8)] := by
  obtain ⟨rfl, rfl⟩ | ⟨rfl, rfl⟩ := h <;> refine ⟨nofun, ?_⟩
  · rw [expand, microLength, Nat.shiftRight_eq_div_pow]; cases ch <;> rfl
  · rw [expand, milliLength, Nat.shiftRight_eq_div_pow]; cases ch <;> rfl

theorem encode_waitl (n : Nat) : encode (.waitl n) = longDelayBytes n := by
  rw [encode, longDelayBytes, lo8, hi8, Nat.shiftRight_eq_div_pow]; rfl

section Delay
variable {s : State} {ch : Chan} {e : Emitter} {n : Nat} (hps : ∀ i, e ≠ .instr i)
  (hexp : expand s.params ch e = .ok [.waitl n])
include hps hexp

theorem runEmitter_delay_fits (hn : n ≤ 0xFFFF) (hfits : (s.port ch).cur + 3 ≤ s.limit ch) :
    ∃ u, runEmitter ch e s = .next u ∧ Emitted ch (longDelayBytes n) 0 { s with emitCh := ch } u := by
  have hstream : ExpandsTo s.params ch e [.waitl n] :=
    ⟨hps, hexp, nofun, by simp [passes]; omega⟩
  obtain ⟨u, hrun, hemitted⟩ := hstream.fits hfits
  exact ⟨u, hrun, encode_waitl n ▸ hemitted⟩

theorem runEmitter_delay_overflow (hn : n ≤ 0xFFFF) (hover : s.limit ch < (s.port ch).cur + 3) :
    ∃ u, runEmitter ch e s = .next u ∧ Faulted .bufferOverflow { s with emitCh := ch } u := by
  refine runEmitter_faulted hps ?_
  rw [hexp]
  exact State.emitAll_first_overflows (s := { s with emitCh := ch }) (i := .waitl n) (decide_eq_true (by omega))
    hover []

theorem runEmitter_delay_long (hn : 0xFFFF < n) :
    ∃ u, runEmitter ch e s = .next u ∧ Faulted .waitLengthOverflow { s with emitCh := ch } u := by
  refine runEmitter_faulted hps ?_
  rw [hexp]
  exact State.emitAll_refused (i := .waitl n) (if_pos hn) []

end Delay

/-! ## The statement -/

/-- A command's byte holds its whole operand, so its bits are the operand's (R172). -/
theorem commandBytes_lo8 (p : Config.Params) {c : Nat} (hc : c ≤ 0xFF) : commandBytes p (lo8 c) = bitsBytes p 8 c := by
  rw [commandBytes, lo8_toNat_of_lt (by omega)]

/-- Every pseudo-instruction but the delays, with the bytes and the sample requests listed for it, is a stream of
layer-1 instructions that writes them (R171 to R176, R186 to R188). -/
theorem exists_expandsTo {p : Config.Params} (ch : Chan) {e : Emitter} {bytes : List Byte} {reads : Nat}
    (h : (∃ b, e = .icspBit b ∧ bytes = bitBytes p b ∧ reads = 0)
      ∨ (∃ c, e = .icspCmd c ∧ c ≤ 0xFF ∧ bytes = bitsBytes p 8 c ∧ reads = 0)
      ∨ (∃ w x, e = .icspFrame w x ∧ w ∈ [4, 8, 16, 22] ∧ x < 2 ^ w ∧ bytes = payloadBytes p x ∧ reads = 0)
      ∨ (e = .icspRead ∧ bytes = readFrameBytes p ∧ reads = 24)
      ∨ (∃ x : Byte, e = .cartLatch x.toNat ∧ bytes = [0x82, x, 0xFF] ∧ reads = 0)
      ∨ (e = .cartRelease ∧ bytes = [0x82, 0x00, 0x00] ∧ reads = 0)
      ∨ (e = .cartSample ∧ bytes = [0x83] ∧ reads = 1)) :
    ∃ is, ExpandsTo p ch e is ∧ is.flatMap encode = bytes ∧ (is.map samplesOf).sum = reads := by
  obtain ⟨b, rfl, rfl, rfl⟩ | ⟨c, rfl, hc, rfl, rfl⟩ | ⟨w, x, rfl, hw, hx, rfl, rfl⟩ | ⟨rfl, rfl, rfl⟩
    | ⟨x, rfl, rfl, rfl⟩ | ⟨rfl, rfl, rfl⟩ | ⟨rfl, rfl, rfl⟩ := h
  · exact ⟨_, expandsTo_icspBit p ch b, encode_icspBit p b, rfl⟩
  · exact ⟨_, expandsTo_icspCmd p ch hc, (encode_icspByte p _).trans (commandBytes_lo8 p hc), samplesOf_icspByte p _⟩
  · have hw22 : w ≤ 22 := by
      simp only [List.mem_cons, List.not_mem_nil, or_false] at hw; omega
    have hx22 : x < 2 ^ 22 := hx.trans_le (Nat.pow_le_pow_right (by omega) hw22)
    exact ⟨_, expandsTo_icspFrame p ch hw hx, encode_frame p hx22, samplesOf_frame p _⟩
  · exact ⟨_, expandsTo_icspRead p ch, encode_icspReadFrame p, samplesOf_icspReadFrame p⟩
  · exact ⟨_, expandsTo_cartLatch p ch x, rfl, rfl⟩
  · exact ⟨_, expandsTo_cartRelease p ch, rfl, rfl⟩
  · exact ⟨_, expandsTo_cartSample p ch, rfl, rfl⟩

/-- A command or latch above 8 bits, a payload too wide and a width not listed fail their check (R172, R173, R186). -/
theorem expand_paramRange (p : Config.Params) (ch : Chan) {e : Emitter}
    (h : (∃ c, e = .icspCmd c ∧ 0xFF < c) ∨ (∃ x, e = .cartLatch x ∧ 0xFF < x)
      ∨ (∃ w x, e = .icspFrame w x ∧ (2 ^ w ≤ x ∨ w ∉ [4, 8, 16, 22]))) :
    (∀ i, e ≠ .instr i) ∧ expand p ch e = .error .paramRange := by
  obtain ⟨c, rfl, hc⟩ | ⟨x, rfl, hx⟩ | ⟨w, x, rfl, hwide⟩ := h
  · exact ⟨nofun, if_pos hc⟩
  · exact ⟨nofun, by simp only [expand, cartLatch, gt_iff_lt, hx, if_true]⟩
  · have hbad : ¬ (w ∈ [4, 8, 16, 22] ∧ x < 2 ^ w) := fun ⟨hw, hlt⟩ =>
      hwide.elim (fun hle => Nat.not_lt.mpr hle hlt) fun hnot => hnot hw
    exact ⟨nofun, by simp only [expand, icspFrame, checkedFrame, hbad, if_false]⟩

/-- Settles O10: a calibrated delay is one long delay (`expand_delay`), every other pseudo-instruction the stream of
`exists_expandsTo`, and an operand too wide fails its check before any byte (`expand_paramRange`). -/
theorem calibratedDelaysAreExact : Obligations.CalibratedDelaysAreExact := by
  intro s ch
  refine ⟨fun t e clocks hdelay => ?delay, fun e bytes reads hlisted => ?stream, fun e hwide => ?wide⟩
  case delay =>
    obtain ⟨hps, hexp⟩ := expand_delay s.params hdelay
    exact ⟨runEmitter_delay_fits hps hexp, runEmitter_delay_overflow hps hexp, runEmitter_delay_long hps hexp⟩
  case stream =>
    obtain ⟨is, hstream, rfl, rfl⟩ := exists_expandsTo ch hlisted
    refine ⟨hstream.fits, fun hover => ?_⟩
    obtain ⟨pre, post, next, mid, u, hsplit, hrun⟩ := hstream.overflow hover
    exact ⟨pre, post, next, mid, u, by rw [hsplit], hrun⟩
  case wide =>
    obtain ⟨hps, hexp⟩ := expand_paramRange s.params ch hwide
    exact runEmitter_faulted hps (by rw [hexp, State.emitStream])

end Sys2Proof.Machine
end

section
/-! The decoding of samples: a word from the samples of one read, the words of a batch, and the interleaved bytes of a
cartridge read. -/

namespace Sys2Proof.Machine

/-! ## One word -/

/-- Bit `k` of a fold is the sample `k` before the last: each later step moves it up by one place (R179). -/
theorem getLsbD_foldl_foldBit (w : Half) (samples : List Byte) {k : Nat} (hk : k < samples.length) (h16 : k < 16) :
    (samples.foldl (fun w x => foldBit w (sampleBit x)) w).getLsbD k
      = (samples.reverse[k]?.getD 0#8).getLsbD 5 := by
  induction samples using List.reverseRecOn generalizing k with
  | nil => exact absurd hk (Nat.not_lt_zero k)
  | append_singleton xs x ih =>
    rw [List.foldl_concat, List.reverse_concat]
    cases k with
    | zero => exact foldBit_zero _ _
    | succ k =>
      rw [List.length_append, List.length_singleton] at hk
      rw [foldBit_succ _ _ h16, List.getElem?_cons_succ]
      exact ih (by omega) (by omega)

/-- The last payload bit is sample 22's, and each higher one that of the sample before (R179). -/
theorem getLsbD_decodeWord {samples : List Byte} (h : samples.length = 24) {k : Nat} (hk : k < 16) :
    (decodeWord samples).getLsbD k = (samples[22 - k]?.getD 0#8).getLsbD 5 := by
  have hlen : ((samples.drop 7).take 16).length = 16 := by rw [List.length_take, List.length_drop, h]; rfl
  have hindex : ((samples.drop 7).take 16).reverse[k]? = samples[22 - k]? := by
    rw [List.getElem?_reverse (by omega), hlen, List.getElem?_take_of_lt (by omega), List.getElem?_drop]
    congr 1
    omega
  rw [decodeWord, getLsbD_foldl_foldBit _ _ (by omega) hk, hindex]

/-- Settles O22: bit `15 - j` is that of sample `22 - (15 - j)`. -/
theorem decodedWordIsSamplesSevenToTwentyTwo : Obligations.DecodedWordIsSamplesSevenToTwentyTwo := by
  intro samples hlen j hj
  rw [getLsbD_decodeWord hlen (by omega), show 22 - (15 - j) = 7 + j by omega]

/-- Settles O23: bit `k` of the word is that of sample `22 - k`, where the answer carries bit `k + 1` of the frame, and
that is bit `k` of the payload. -/
theorem framedAnswerDecodesToItsWord : Obligations.FramedAnswerDecodesToItsWord := by
  intro w samples hlen hframe
  refine ⟨BitVec.eq_of_getLsbD_eq fun k hk => ?_, rfl⟩
  calc (decodeWord samples).getLsbD k
      = (samples[22 - k]?.getD 0#8).getLsbD 5 := getLsbD_decodeWord hlen hk
    _ = (frameValue w.toNat).getLsbD (23 - (22 - k)) := hframe _ (by omega)
    _ = (frameValue w.toNat).getLsbD (k + 1) := by congr 1; omega
    _ = w.getLsbD k := getLsbD_frameValue_succ _ (by omega)

/-! ## Batches -/

/-- The samples of word `j` are the `j`-th answer of 24 samples (R183). -/
theorem wordSamples_flatten {answers : List (List Byte)} (h : ∀ a ∈ answers, a.length = 24) (j : Nat) :
    wordSamples answers.flatten j = answers[j]?.getD [] := by
  induction answers generalizing j with
  | nil => simp [wordSamples]
  | cons a rest ih =>
    obtain ⟨ha, hrest⟩ := List.forall_mem_cons.mp h
    cases j with
    | zero => exact List.take_left' ha
    | succ j =>
      have hdrop : 24 * (j + 1) = a.length + 24 * j := by omega
      rw [wordSamples, List.flatten_cons, hdrop, List.drop_length_add_append]
      exact ih hrest j

theorem decodeWords_flatten {answers : List (List Byte)} (h : ∀ a ∈ answers, a.length = 24) :
    decodeWords answers.length answers.flatten = answers.map decodeWord := by
  refine List.ext_getElem (by simp [decodeWords]) fun j _ hj => ?_
  rw [List.length_map] at hj
  simp [decodeWords, wordSamples_flatten h, hj]

theorem batchBytes_flatten {answers : List (List Byte)} (h : ∀ a ∈ answers, a.length = 24) :
    batchBytes answers.length answers.flatten = answers.flatMap fun a => outputBytes (decodeWord a) := by
  rw [batchBytes, decodeWords_flatten h, List.flatMap_map]

/-- A single round trip gives the bytes of its one word. -/
theorem batchBytes_one {answer : List Byte} (h : answer.length = 24) :
    batchBytes 1 answer = outputBytes (decodeWord answer) := by
  have hone := batchBytes_flatten (answers := [answer]) (by simpa using h)
  simpa using hone

/-- Settles O24: each word of a batch has its own answer's samples (`wordSamples_flatten`). -/
theorem batchedAndSingleReadsAgree : Obligations.BatchedAndSingleReadsAgree := by
  intro answers h
  refine ⟨decodeWords_flatten h, ?_⟩
  rw [batchBytes_flatten h, List.flatMap_def]
  exact congrArg List.flatten (List.map_congr_left fun a ha => (batchBytes_one (h a ha)).symm)

/-! ## Cartridge reads -/

theorem cartWord_toNat (a b : Byte) : (cartWord a b).toNat = 256 * b.toNat + a.toNat := by
  rw [cartWord, BitVec.toNat_append, ← Nat.shiftLeft_add_eq_or_of_lt a.isLt, Nat.shiftLeft_eq]
  omega

theorem length_cartBytes {sa sb : List Byte} (h : sa.length = sb.length) :
    (cartBytes sa sb).length = 2 * sa.length := by
  have hpairs : (sa.zip sb).length = sa.length := by rw [List.length_zip, ← h, min_self]
  calc (cartBytes sa sb).length
      = ((sa.zip sb).map fun _ => 2).sum := List.length_flatMap
    _ = sa.length * 2 := by rw [List.map_const', List.sum_replicate_nat, hpairs]
    _ = 2 * sa.length := mul_comm _ _

/-- The two channels alternate in the output, A's byte first (R189). -/
theorem getElem?_cartBytes {sa sb : List Byte} (h : sa.length = sb.length) (i : Nat) :
    (cartBytes sa sb)[2 * i]? = sa[i]? ∧ (cartBytes sa sb)[2 * i + 1]? = sb[i]? := by
  induction sa generalizing sb i with
  | nil =>
    obtain rfl := List.length_eq_zero_iff.mp h.symm
    exact ⟨rfl, rfl⟩
  | cons a sa ih =>
    obtain ⟨b, sb, rfl⟩ := List.exists_cons_of_length_eq_add_one h.symm
    cases i with
    | zero => exact ⟨rfl, rfl⟩
    | succ i => exact ih (Nat.succ.inj h) i

theorem getElem?_cartWords {sa sb : List Byte} {i : Nat} (ha : i < sa.length) (hb : i < sb.length) :
    (cartWords sa sb)[i]? = some (cartWord sa[i] sb[i]) := by
  simp [cartWords, ha, hb]

/-- Settles O25: words and bytes by their place in the two sequences, and the last step of a ReadROM512 by its
definition. -/
theorem cartridgeBytesInterleave : Obligations.CartridgeBytesInterleave := by
  intro sa sb ha hb
  have hsame : sa.length = sb.length := ha.trans hb.symm
  refine ⟨by rw [length_cartBytes hsame, ha], fun i hi => ⟨?_, getElem?_cartBytes hsame i⟩, fun s hsa hsb => ?_⟩
  · have hia : i < sa.length := ha ▸ hi
    have hib : i < sb.length := hb ▸ hi
    rw [getElem?_cartWords hia hib, Option.map_some, cartWord_toNat, List.getElem?_eq_getElem hia,
      List.getElem?_eq_getElem hib]
    rfl
  · rw [← hsa, ← hsb]
    rfl

end Sys2Proof.Machine
end

section
/-! A layer-2 instruction with an operand too wide for its field. -/

namespace Sys2Proof.Machine

/-- An instruction that emits a command and a frame is a fault, with nothing written, where the payload is too wide. -/
theorem exec_commandFrame_wide {i : Instr} {s : State} {c : Byte} {w x : Nat} {after : List Instr} (hx : 2 ^ w ≤ x)
    (hexec : exec i s = .next (s.emitStream .icsp (commandFrame s.params c w x after))) :
    ∃ t, exec i s = .next t ∧ Faulted .paramRange s t := by
  refine ⟨s.fault .paramRange, ?_, s.faulted_fault .paramRange⟩
  rw [hexec, commandFrame_wide s.params c after hx, State.emitStream]

/-- Settles O14: each of the four units is a command and a frame of its width. -/
theorem widePayloadsFault : Obligations.WidePayloadsFault := fun _ _ =>
  ⟨fun hx => exec_commandFrame_wide hx rfl, fun hx => exec_commandFrame_wide hx rfl,
    fun hx => exec_commandFrame_wide hx rfl, fun hx => exec_commandFrame_wide hx rfl⟩

end Sys2Proof.Machine
end

section
/-! The ready session: what a running Open has still to write, what a step of an operation does to session and
registers, and that every step keeps a ready session with a value in every register. -/

namespace Sys2Proof.Machine

/-! ## What a running Open has still to write -/

/-- What `ReadyInv` asks of the steps an Open still has to run: its last step, and no other, ends it, and each register
has a value or is written by one of them. -/
structure WillFill (r : SessionRegs) (prog : List BlockStep) : Prop where
  last : ∃ before, prog = before ++ [.finishOpen] ∧ BlockStep.finishOpen ∉ before
  userId : r.userId.isSome ∨ .storeUserId ∈ prog
  config : r.config.isSome ∨ .storeConfig ∈ prog
  ids : (r.devId.isSome ∧ r.revId.isSome ∧ r.revMajor.isSome ∧ r.revMinor.isSome) ∨ .storeIds ∈ prog
  addr : r.addr.isSome ∨ .clearAddr ∈ prog
  pmLen : r.pmLen.isSome ∨ .resolveLength ∈ prog

/-- `ReadyInv`, with what it asks of a running Open under one name. -/
theorem readyInv_iff (s : State) :
    ReadyInv s ↔ (s.sess = .ready → s.regs.full)
      ∧ ∀ t, s.task = some t → BlockStep.finishOpen ∈ t.prog → WillFill s.regs t.prog := by
  refine and_congr_right fun _ => forall₂_congr fun t _ => imp_congr_right fun _ => ⟨?_, ?_⟩
  · rintro ⟨hlast, huser, hconfig, hids, haddr, hlen⟩
    exact ⟨hlast, huser, hconfig, hids, haddr, hlen⟩
  · rintro ⟨hlast, huser, hconfig, hids, haddr, hlen⟩
    exact ⟨hlast, huser, hconfig, hids, haddr, hlen⟩

/-- With the step that ends the Open alone left, every register has its value. -/
theorem WillFill.full {r : SessionRegs} (h : WillFill r [.finishOpen]) : r.full := by
  obtain ⟨-, huser, hconfig, hids, haddr, hlen⟩ := h
  simp only [List.mem_singleton, reduceCtorEq, or_false] at huser hconfig hids haddr hlen
  obtain ⟨hdev, hrev, hmajor, hminor⟩ := hids
  exact ⟨hdev, hrev, hmajor, hminor, huser, hconfig, haddr, hlen⟩

/-- The step that ends an Open is its last one. -/
theorem WillFill.rest_nil {r : SessionRegs} {rest : List BlockStep} (h : WillFill r (.finishOpen :: rest)) :
    rest = [] := by
  obtain ⟨before, hprog, hbefore⟩ := h.last
  cases before with
  | nil => exact (List.cons.inj hprog).2
  | cons m before =>
    obtain rfl := (List.cons.inj hprog).1
    exact absurd List.mem_cons_self hbefore

/-- A register that a step writes, or that has its value, is provided for once the step is done; any other is as
before. -/
theorem provided_next {a b : Prop} {m x : BlockStep} {rest : List BlockStep} (h : a ∨ x ∈ m :: rest)
    (hb : a ∨ m = x → b) : b ∨ x ∈ rest := by
  rcases h with ha | hx
  · exact .inl (hb (.inl ha))
  · rcases List.mem_cons.mp hx with rfl | hx
    · exact .inl (hb (.inr rfl))
    · exact .inr hx

/-- A step of an Open takes no value from a register and, where it is to write one, writes it. -/
structure RegsWritten (m : BlockStep) (r r' : SessionRegs) : Prop where
  userId : r.userId.isSome ∨ m = .storeUserId → r'.userId.isSome
  config : r.config.isSome ∨ m = .storeConfig → r'.config.isSome
  ids : (r.devId.isSome ∧ r.revId.isSome ∧ r.revMajor.isSome ∧ r.revMinor.isSome) ∨ m = .storeIds →
    r'.devId.isSome ∧ r'.revId.isSome ∧ r'.revMajor.isSome ∧ r'.revMinor.isSome
  addr : r.addr.isSome ∨ m = .clearAddr → r'.addr.isSome
  pmLen : r.pmLen.isSome ∨ m = .resolveLength → r'.pmLen.isSome

theorem RegsWritten.full {m : BlockStep} {r r' : SessionRegs} (w : RegsWritten m r r') (h : r.full) : r'.full := by
  obtain ⟨hdev, hrev, hmajor, hminor, huser, hconfig, haddr, hlen⟩ := h
  obtain ⟨hdev', hrev', hmajor', hminor'⟩ := w.ids (.inl ⟨hdev, hrev, hmajor, hminor⟩)
  exact ⟨hdev', hrev', hmajor', hminor', w.userId (.inl huser), w.config (.inl hconfig), w.addr (.inl haddr),
    w.pmLen (.inl hlen)⟩

theorem regsWritten_userId (r : SessionRegs) (u : Vector Half 32) :
    RegsWritten .storeUserId r { r with userId := some u } := by
  constructor <;> simp

theorem regsWritten_config (r : SessionRegs) (c : Vector Byte 10) :
    RegsWritten .storeConfig r { r with config := some c } := by
  constructor <;> simp

theorem regsWritten_ids (r : SessionRegs) (dev rev : Half) (major : Byte) (minor : BitVec 6) :
    RegsWritten .storeIds r
      { r with devId := some dev, revId := some rev, revMajor := some major, revMinor := some minor } := by
  constructor <;> simp

theorem regsWritten_addr (r : SessionRegs) (a : Nat) : RegsWritten .clearAddr r { r with addr := some a } := by
  constructor <;> simp

theorem regsWritten_pmLen (r : SessionRegs) (n : Nat) : RegsWritten .resolveLength r { r with pmLen := some n } := by
  constructor <;> simp

/-- Once a step is done, what it wrote is no more to be written. -/
theorem WillFill.next {r r' : SessionRegs} {m : BlockStep} {rest : List BlockStep} (h : WillFill r (m :: rest))
    (hrest : BlockStep.finishOpen ∈ rest) (w : RegsWritten m r r') : WillFill r' rest where
  last := by
    obtain ⟨before, hprog, hbefore⟩ := h.last
    cases before with
    | nil => obtain rfl := (List.cons.inj hprog).2; exact absurd hrest List.not_mem_nil
    | cons m' before => exact ⟨before, (List.cons.inj hprog).2, fun hx => hbefore (.tail _ hx)⟩
  userId := provided_next h.userId w.userId
  config := provided_next h.config w.config
  ids := provided_next h.ids w.ids
  addr := provided_next h.addr w.addr
  pmLen := provided_next h.pmLen w.pmLen

/-- The steps that write a session register for a running Open (R230 to R235). -/
def BlockStep.writes : BlockStep → Bool
  | .storeUserId | .storeConfig | .storeIds | .clearAddr | .resolveLength => true
  | _ => false

/-- A step that writes no register leaves what is still to be written. -/
theorem WillFill.tail {r : SessionRegs} {m : BlockStep} {rest : List BlockStep} (h : WillFill r (m :: rest))
    (hrest : BlockStep.finishOpen ∈ rest) (hm : m.writes = false) : WillFill r rest := by
  refine h.next hrest ?_
  constructor <;> refine Or.rec id ?_ <;> rintro rfl <;> cases hm

/-- A step that waits is run again before the others. -/
theorem WillFill.cons {r : SessionRegs} {m : BlockStep} {prog : List BlockStep} (h : WillFill r prog)
    (hm : m ≠ .finishOpen) : WillFill r (m :: prog) where
  last := by
    obtain ⟨before, rfl, hbefore⟩ := h.last
    exact ⟨m :: before, rfl, by simp [hm.symm, hbefore]⟩
  userId := h.userId.imp_right (.tail _)
  config := h.config.imp_right (.tail _)
  ids := h.ids.imp_right (.tail _)
  addr := h.addr.imp_right (.tail _)
  pmLen := h.pmLen.imp_right (.tail _)

/-! ## What a step does to session and registers -/

/-- What the steps of an operation other than the writes and the end of Open do to session, registers and steps left:
nothing; they wait, to be run again; or they end the operation, with no session made ready and no register of a ready
one left without its value. -/
inductive SessionStep (s t : State) : Prop
  | goesOn (sess : t.sess = s.sess) (regs : t.regs = s.regs)
      (prog : t.task.map Task.prog = s.task.map Task.prog)
  | waits (sess : t.sess = s.sess) (regs : t.regs = s.regs) (m : BlockStep) (notLast : m ≠ .finishOpen)
      (prog : t.task.map Task.prog = s.task.map fun a => m :: a.prog)
  | ends (task : t.task = none) (ready : t.sess = .ready → s.sess = .ready ∧ (s.regs.full → t.regs.full))

theorem SessionStep.of_same {s t : State} (h : SameSession s t) : SessionStep s t := by
  obtain ⟨-, hsess, -, hregs, htask⟩ := h
  exact .goesOn hsess hregs (by rw [htask])

/-- A change that leaves the session, and then a step. -/
theorem SessionStep.after {s t u : State} (h : SameSession s t) (k : SessionStep t u) : SessionStep s u := by
  obtain ⟨-, hsess, -, hregs, htask⟩ := h
  cases k with
  | goesOn sess regs prog => exact .goesOn (sess.trans hsess) (regs.trans hregs) (by rw [prog, htask])
  | waits sess regs m notLast prog => exact .waits (sess.trans hsess) (regs.trans hregs) m notLast (by rw [prog, htask])
  | ends task ready => exact .ends task (by rw [← hsess, ← hregs]; exact ready)

theorem SessionStep.endTask (s : State) (r : Result) : SessionStep s (s.endTask r) := .ends rfl fun h => ⟨h, id⟩

theorem SessionStep.fault (s : State) (f : Mark) : SessionStep s (s.fault f) := .ends rfl fun h => ⟨h, id⟩

theorem SessionStep.fatal (s : State) (op : OpName) (e : OpError) : SessionStep s (s.fatal op e) := by
  rw [State.fatal_eq]
  refine .ends rfl ?_
  simp only [State.failSession]
  split
  · exact fun h => ⟨h, id⟩
  · exact nofun

theorem SessionStep.transportError (s : State) (c : TransportCall) : SessionStep s (s.transportError c) := by
  unfold State.transportError
  split
  · exact .of_same (.refl s)
  · rename_i task htask
    split
    · exact .goesOn rfl rfl (by rw [htask]; rfl)
    · exact .fatal _ _ _

theorem SessionStep.again (s : State) {m : BlockStep} (hm : m ≠ .finishOpen) : SessionStep s (s.again m) :=
  .waits rfl rfl m hm (by rw [State.again_task, Option.map_map]; rfl)

theorem State.popAnswer_session (s : State) : SameSession s s.popAnswer := .refl s

theorem SessionStep.runEmitter {s t : State} {ch : Chan} {e : Emitter} (ht : s.turn = .block)
    (h : runEmitter ch e s = .next t) : SessionStep s t := by
  obtain ⟨mid, hsame, rfl | ⟨f, rfl⟩⟩ := runEmitter_cases ht h
  · exact .of_same hsame
  · exact .after hsame (.fault _ f)

theorem SessionStep.flushIcsp {s t : State} (h : s.flushIcsp = .next t) : SessionStep s t := by
  unfold State.flushIcsp at h
  split at h
  · cases h
  · rename_i u hu
    cases h
    exact .after (State.writeOut_session hu) (.of_same (.refl _))
  · rename_i u hu
    cases h
    exact .after (State.writeOut_session hu) (.transportError _ _)

theorem SessionStep.flushBoth {s t : State} (h : s.flushBoth = .next t) : SessionStep s t := by
  unfold State.flushBoth at h
  split at h
  · cases h
  · rename_i u hu
    cases h
    exact .after (State.writeHalf_session hu) (.transportError _ _)
  · rename_i u hu
    refine .after (State.writeHalf_session hu) ?_
    split at h
    · cases h
    · rename_i v hv
      cases h
      exact .after (State.writeHalf_session hv) (.transportError _ _)
    · rename_i v hv
      cases h
      exact .after (State.writeHalf_session hv) (.of_same (.refl _))

theorem SessionStep.readBack (s : State) (ch : Chan) : SessionStep s (s.readBack ch) := by
  unfold State.readBack
  split
  · exact .of_same (.refl s)
  · split
    · exact .after s.popAnswer_session (.transportError _ _)
    · split
      · exact .of_same (.refl s)
      · exact .after s.popAnswer_session (.again _ nofun)

theorem SessionStep.readEmpty (s : State) (o : SelfTest) : SessionStep s (s.readEmpty o) := by
  unfold State.readEmpty
  split
  · exact .after s.popAnswer_session (.transportError _ _)
  · simp only []
    split
    · exact .of_same s.popAnswer_session
    · exact .after (t := s.popAnswer.setEngine .icsp _) (.refl s) (.fatal _ _ _)

theorem SessionStep.readEcho (s : State) : SessionStep s s.readEcho := by
  unfold State.readEcho
  split
  · exact .after s.popAnswer_session (.transportError _ _)
  · have hread {e p} : SameSession s ((s.popAnswer.setEngine .icsp e).setPort .icsp p) := .refl s
    simp only []
    split
    · exact .after hread (.again _ nofun)
    · split
      · exact .of_same hread
      · exact .after hread (.fatal _ _ _)

theorem SessionStep.plainCall (s : State) (c : TransportCall) : SessionStep s (s.plainCall c) := by
  unfold State.plainCall
  split
  · exact .after s.popAnswer_session (.transportError _ _)
  · exact .of_same s.popAnswer_session

theorem SessionStep.advance (s : State) (n : Nat) (r : Result) : SessionStep s (s.advance n r) := by
  unfold State.advance
  split
  · exact .fault _ _
  · exact .ends rfl fun h => ⟨h, (regsWritten_addr _ _).full⟩

theorem SessionStep.finishClose (s : State) : SessionStep s s.finishClose := by
  unfold State.finishClose
  split <;> exact .ends rfl nofun

theorem SessionStep.collect (s : State) (want : Nat) : SessionStep s (s.collect want) :=
  .goesOn rfl rfl (by simp only [State.collect, Option.map_map]; rfl)

/-- Every step of an operation but the writes and the end of Open is a `SessionStep`. -/
theorem SessionStep.of_runStep {s t : State} {m : BlockStep} (hturn : s.turn = .block) (hw : m.writes = false)
    (hm : m ≠ .finishOpen) (h : runStep m s = .next t) : SessionStep s t := by
  cases m
  case emit ch e => exact .runEmitter hturn h
  case flush => exact .flushIcsp h
  case flushPair => exact .flushBoth h
  all_goals obtain rfl := Host.Outcome.next.inj h
  case begin => exact .of_same s.beginBuffer_session
  case readBack ch => exact .readBack s ch
  case readEmpty o => exact .readEmpty s o
  case readEcho => exact .readEcho s
  case storeUserId | storeConfig | storeIds | clearAddr | resolveLength => cases hw
  case finishOpen => exact absurd rfl hm
  case collect want => exact .collect s want
  case finishRead n => exact .advance s _ _
  case finishWrite n => exact .advance s _ _
  case finishPlain => exact .endTask s _
  case transport c => exact .plainCall s c
  case finishClose => exact .finishClose s
  case finishSetup => exact .ends rfl fun h => ⟨h, id⟩
  case finishRom => exact .endTask s _

/-! ## The invariant -/

theorem ReadyInv.full {s : State} (h : ReadyInv s) : s.sess = .ready → s.regs.full := ((readyInv_iff s).mp h).1

theorem ReadyInv.willFill {s : State} {t : Task} (h : ReadyInv s) (ht : s.task = some t)
    (hf : BlockStep.finishOpen ∈ t.prog) : WillFill s.regs t.prog := ((readyInv_iff s).mp h).2 t ht hf

/-- With no operation in progress the invariant is that of the registers. -/
theorem ReadyInv.of_idle {s : State} (hfull : s.sess = .ready → s.regs.full) (ht : s.task = none) : ReadyInv s :=
  (readyInv_iff s).mpr ⟨hfull, fun t h => by rw [ht] at h; cases h⟩

/-- With an operation in progress the invariant is that of the registers and of the steps it has left. -/
theorem ReadyInv.of_prog {s : State} {prog : List BlockStep} (hfull : s.sess = .ready → s.regs.full)
    (ht : s.task.map Task.prog = some prog) (hfill : BlockStep.finishOpen ∈ prog → WillFill s.regs prog) :
    ReadyInv s := by
  refine (readyInv_iff s).mpr ⟨hfull, fun t h => ?_⟩
  obtain rfl : t.prog = prog := by simpa [h] using ht
  exact hfill

theorem ReadyInv.congr {s t : State} (h : ReadyInv s) (k : SameSession s t) : ReadyInv t := by
  obtain ⟨-, hsess, -, hregs, htask⟩ := k
  unfold ReadyInv
  rw [hsess, hregs, htask]
  exact h

/-- A `SessionStep` keeps the registers of a ready session. -/
theorem SessionStep.full {s t : State} (k : SessionStep s t) (h : s.sess = .ready → s.regs.full) :
    t.sess = .ready → t.regs.full := by
  cases k with
  | goesOn sess regs => rw [sess, regs]; exact h
  | waits sess regs => rw [sess, regs]; exact h
  | ends task ready =>
    intro hr
    obtain ⟨hwas, hkeeps⟩ := ready hr
    exact hkeeps (h hwas)

/-- A `SessionStep` keeps the invariant. -/
theorem ReadyInv.step {s t : State} (h : ReadyInv s) (k : SessionStep s t) : ReadyInv t := by
  have hfull := k.full h.full
  cases hs : s.task with
  | none =>
    cases k with
    | goesOn sess regs prog => exact .of_idle hfull (by simpa [hs] using prog)
    | waits sess regs m notLast prog => exact .of_idle hfull (by simpa [hs] using prog)
    | ends task ready => exact .of_idle hfull task
  | some a =>
    cases k with
    | goesOn sess regs prog =>
      rw [hs] at prog
      exact .of_prog hfull prog (by rw [regs]; exact h.willFill hs)
    | waits sess regs m notLast prog =>
      rw [hs] at prog
      refine .of_prog hfull prog fun hf => ?_
      rw [regs]
      exact (h.willFill hs (List.mem_of_ne_of_mem notLast.symm hf)).cons notLast
    | ends task ready => exact .of_idle hfull task

/-! ## The steps of an operation -/

section Task
variable {s : State} {task : Task} {m : BlockStep} {rest : List BlockStep}

/-- The state a step of an operation runs in: that step is taken off. -/
def State.atStep (s : State) (task : Task) (rest : List BlockStep) : State :=
  { s with task := some { task with prog := rest } }

/-- A step that writes registers and leaves the session. -/
theorem ReadyInv.written {r : SessionRegs} (h : ReadyInv s) (ht : s.task = some task) (hp : task.prog = m :: rest)
    (w : RegsWritten m s.regs r) : ReadyInv { s.atStep task rest with regs := r } :=
  .of_prog (fun hr => w.full (h.full hr)) rfl fun hf =>
    (hp ▸ h.willFill ht (hp ▸ .tail _ hf) : WillFill s.regs (m :: rest)).next hf w

/-- The resolution of the length ends the operation, or writes the length (R235). -/
theorem ReadyInv.resolveLength (h : ReadyInv s) (ht : s.task = some task)
    (hp : task.prog = .resolveLength :: rest) : ReadyInv (s.atStep task rest).resolveLength := by
  have hfull : (s.atStep task rest).sess = .ready → (s.atStep task rest).regs.full := h.full
  unfold State.resolveLength
  split
  · exact .of_idle ((SessionStep.fault _ _).full hfull) rfl
  · split
    · exact .of_idle ((SessionStep.fatal _ _ _).full hfull) rfl
    · exact h.written ht hp (regsWritten_pmLen _ _)

/-- Open ends with every register written (R236). -/
theorem ReadyInv.finishOpen (h : ReadyInv s) (ht : s.task = some task) (hp : task.prog = .finishOpen :: rest) :
    ReadyInv (s.atStep task rest).finishOpen := by
  have hfill : WillFill s.regs (.finishOpen :: rest) := hp ▸ h.willFill ht (hp ▸ .head _)
  exact .of_idle (fun _ => (hfill.rest_nil ▸ hfill).full) rfl

/-- Every step of an operation keeps the invariant. -/
theorem ReadyInv.of_runStep {t : State} (h : ReadyInv s) (ht : s.task = some task) (hp : task.prog = m :: rest)
    (hturn : s.turn = .block) (hrun : runStep m (s.atStep task rest) = .next t) : ReadyInv t := by
  by_cases hother : m.writes = false ∧ m ≠ .finishOpen
  · obtain ⟨hw, hm⟩ := hother
    have htaken : ReadyInv (s.atStep task rest) := .of_prog h.full rfl fun hf =>
      (hp ▸ h.willFill ht (hp ▸ .tail _ hf) : WillFill s.regs (m :: rest)).tail hf hw
    exact htaken.step (.of_runStep hturn hw hm hrun)
  · cases m
    case storeUserId => cases hrun; exact h.written ht hp (regsWritten_userId _ _)
    case storeConfig => cases hrun; exact h.written ht hp (regsWritten_config _ _)
    case storeIds => cases hrun; exact h.written ht hp (regsWritten_ids _ _ _ _ _)
    case clearAddr => cases hrun; exact h.written ht hp (regsWritten_addr _ _)
    case resolveLength => cases hrun; exact h.resolveLength ht hp
    case finishOpen => cases hrun; exact h.finishOpen ht hp
    all_goals exact absurd ⟨rfl, nofun⟩ hother

end Task

/-! ## The beginning of a call -/

/-- No step ends an Open in another operation. -/
theorem finishOpen_notMem_of_fits {op : OpName} {prog : List BlockStep}
    (h : prog.all (BlockStep.fits op) = true) (hop : op ≠ .openIcsp) : BlockStep.finishOpen ∉ prog := fun hmem =>
  hop (beq_iff_eq.mp (List.all_eq_true.mp h _ hmem))

/-- An operation other than Open starts. -/
theorem ReadyInv.start {s : State} (h : ReadyInv s) {op : OpName} {prog : List BlockStep} (hop : op ≠ .openIcsp)
    (hfits : prog.all (BlockStep.fits op) = true) : ReadyInv (s.start op prog) :=
  .of_prog h.full rfl fun hf => absurd hf (finishOpen_notMem_of_fits hfits hop)

/-- Open starts with every register still to be written. -/
theorem willFill_openProgram (r : SessionRegs) (p : Config.Params) : WillFill r (openProgram p) := by
  obtain ⟨before, hprog, hbefore, -, huser, hconfig, hids, haddr⟩ := openProgram_shape p
  rw [hprog]
  exact ⟨⟨before ++ [.resolveLength], by simp, by simp [hbefore]⟩, by simp [huser], by simp [hconfig], by simp [hids],
    by simp [haddr], by simp⟩

theorem ReadyInv.callOpen {s : State} (h : ReadyInv s) : ReadyInv s.callOpen := by
  unfold State.callOpen
  split
  · exact .of_prog nofun rfl fun _ => willFill_openProgram _ _
  · exact h.step (.fault s _)

theorem ReadyInv.callRead {s : State} (h : ReadyInv s) (n : Nat) : ReadyInv (s.callRead n) := by
  unfold State.callRead
  split
  · exact h.step (.fault s _)
  · split_ifs
    · exact h.step (.endTask s _)
    · exact h.step (.fault s _)
    · exact h.step (.endTask s _)
    · exact h.start nofun (readProgram_fits _ _)

theorem ReadyInv.callSeek {s : State} (h : ReadyInv s) (offset : Int) (w : Whence) :
    ReadyInv (s.callSeek offset w) := by
  unfold State.callSeek
  split
  · exact h.step (.fault s _)
  · split
    · exact h.step (.fault s _)
    · split_ifs
      · exact h.step (.endTask s _)
      · exact h.step (.endTask s _)
      · exact h.step (.ends rfl fun hr => ⟨hr, (regsWritten_addr _ _).full⟩)

theorem ReadyInv.callWrite {s : State} (h : ReadyInv s) (bytes : List Byte) : ReadyInv (s.callWrite bytes) := by
  unfold State.callWrite
  split
  · exact h.step (.fault s _)
  · split_ifs
    · exact h.step (.endTask s _)
    · exact h.step (.fault s _)
    · exact h.step (.fault s _)
    · exact h.start nofun (writeProgram_fits _ _ _)

theorem ReadyInv.beginCall {s : State} (h : ReadyInv s) (c : Call) : ReadyInv (s.beginCall c) := by
  have hfault (f : Mark) : ReadyInv (s.fault f) := h.step (.fault s f)
  cases c with
  | openIcsp => exact h.callOpen
  | read n => exact h.callRead n
  | seek offset w => exact h.callSeek offset w
  | write bytes => exact h.callWrite bytes
  | bulkErase regions =>
    simp only [State.beginCall, State.callErase]
    split_ifs
    · exact hfault _
    · exact h.start nofun rfl
    · exact hfault _
  | close =>
    simp only [State.beginCall, State.callClose]
    split_ifs
    · exact h.step (.endTask s _)
    · exact h.start nofun rfl
  | setupPins =>
    simp only [State.beginCall, State.callSetup]
    split_ifs
    · exact ReadyInv.start (s := { s with mode := .cart }) h nofun (setupProgram_fits _)
    · exact hfault _
  | resetCart =>
    simp only [State.beginCall, State.callReset]
    split_ifs
    · exact h.start nofun (resetProgram_fits _)
    · exact hfault _
  | setAddress a =>
    simp only [State.beginCall, State.callAddress]
    split_ifs
    · exact h.start nofun (addressProgram_fits _ _)
    · exact hfault _
    · exact hfault _
  | readRom512 =>
    simp only [State.beginCall, State.callRom]
    split_ifs
    · exact h.start nofun (romProgram_fits _)
    · exact hfault _
  | releaseCart => exact h.step (.ends rfl fun hr => ⟨hr, id⟩)

/-! ## The step -/

theorem ReadyInv.of_blockStep {s t : State} (h : ReadyInv s) (hturn : s.turn = .block)
    (hstep : blockStep s = .next t) : ReadyInv t := by
  cases htask : s.task with
  | some task =>
    cases hprog : task.prog with
    | nil =>
      simp only [blockStep, htask, hprog, Host.Outcome.next.injEq] at hstep
      subst hstep
      exact h.step (.endTask s _)
    | cons m rest =>
      rw [blockStep_of_prog htask hprog] at hstep
      exact h.of_runStep htask hprog hturn hstep
  | none =>
    cases hcalls : s.calls with
    | nil =>
      rw [blockStep_idle htask hcalls] at hstep
      cases hstep
      exact h
    | cons c cs =>
      rw [blockStep_of_call htask hcalls] at hstep
      cases hstep
      exact ReadyInv.beginCall (s := { s with calls := cs }) h c

/-- Settles O57: the block's step is a call's beginning or a step of the operation, of which those that write registers
do so before the one that makes the session ready (`ReadyInv.of_runStep`); an engine's step and the drawing of the next
turn leave all the invariant speaks of. -/
theorem stepsKeepReadySessionsFull : Obligations.StepsKeepReadySessionsFull := by
  intro s t hi h
  obtain ⟨u, rfl, ⟨hturn, hblock, -⟩ | ⟨c, e, lv, -, -, rfl⟩⟩ := step_cases h
  · exact (hi.of_blockStep hturn hblock).congr (.refl _)
  · exact hi.congr (.refl _)

end Sys2Proof.Machine
end

section
/-! The layer-2 units on the block's side: the stream of pin writes each unit stands for, and what is written of it
where it fits and where it does not. -/

namespace Sys2Proof.Machine

/-! ## Streams of three-byte instructions -/

/-- Instructions of three bytes each that pass their check and request no sample: pin writes and long delays. -/
def ThreeByteStream (is : List Instr) : Prop := ∀ i ∈ is, passes i = true ∧ (encode i).length = 3 ∧ samplesOf i = 0

theorem ThreeByteStream.append {l m : List Instr} (hl : ThreeByteStream l) (hm : ThreeByteStream m) :
    ThreeByteStream (l ++ m) := fun i hi => (List.mem_append.mp hi).elim (hl i) (hm i)

theorem ThreeByteStream.left {l m : List Instr} (h : ThreeByteStream (l ++ m)) : ThreeByteStream l := fun i hi =>
  h i (List.mem_append_left m hi)

theorem ThreeByteStream.passes {is : List Instr} (h : ThreeByteStream is) : ∀ i ∈ is, passes i = true := fun i hi =>
  (h i hi).1

theorem ThreeByteStream.length_encode {is : List Instr} (h : ThreeByteStream is) :
    (is.flatMap encode).length = 3 * is.length := by
  induction is with
  | nil => rfl
  | cons i is ih =>
    obtain ⟨⟨-, hlen, -⟩, his⟩ := List.forall_mem_cons.mp h
    rw [List.flatMap_cons, List.length_append, hlen, ih his, List.length_cons]
    omega

theorem ThreeByteStream.samples {is : List Instr} (h : ThreeByteStream is) : (is.map samplesOf).sum = 0 :=
  List.sum_eq_zero fun x hx => by
    obtain ⟨i, hi, rfl⟩ := List.mem_map.mp hx
    obtain ⟨-, -, hsamples⟩ := h i hi
    exact hsamples

theorem threeByteStream_icspByte (p : Config.Params) (c : Byte) : ThreeByteStream (icspByte p c) := fun i hi =>
  ⟨passes_icspByte p c i hi, icspByte_pinWrites p c i hi⟩

theorem threeByteStream_frame (p : Config.Params) (bs : List Byte) :
    ThreeByteStream (bs.flatMap (icspByte p)) := by
  intro i hi
  obtain ⟨b, -, hb⟩ := List.mem_flatMap.mp hi
  exact threeByteStream_icspByte p b i hb

theorem threeByteStream_delay {n : Nat} (h : n ≤ 0xFFFF) : ThreeByteStream [.waitl n] := by
  rintro i hi
  obtain rfl := List.mem_singleton.mp hi
  exact ⟨decide_eq_true (by omega), rfl, rfl⟩

section
variable {s : State} {ch : Chan} {is : List Instr} (h : ThreeByteStream is)
include h

theorem ThreeByteStream.emitted (hfits : (s.port ch).cur + (is.flatMap encode).length ≤ s.limit ch) :
    Emitted ch (is.flatMap encode) 0 s (s.emitAll ch is) :=
  h.samples ▸ State.emitAll_fits s ch is h.passes hfits

/-- Where such a stream does not fit, as many whole instructions as fit are written, and the next is the fault
(R24). -/
theorem ThreeByteStream.overflow (hn : is ≠ [])
    (hover : s.limit ch < (s.port ch).cur + (is.flatMap encode).length) :
    ∃ mid, Emitted ch ((is.flatMap encode).take (3 * ((s.limit ch - (s.port ch).cur) / 3))) 0 s mid
      ∧ s.emitAll ch is = mid.fault .bufferOverflow := by
  obtain ⟨pre, next, post, mid, rfl, hemitted, hfits, hnext, hfault⟩ :=
    State.emitAll_overflow s ch is h.passes hn hover
  refine ⟨mid, ?_, hfault⟩
  have hpre := h.left
  obtain ⟨-, hnext3, -⟩ := h next (by simp)
  rw [hpre.samples] at hemitted
  have hlen : (pre.flatMap encode).length = 3 * ((s.limit ch - (s.port ch).cur) / 3) := by
    rw [hpre.length_encode] at hfits hnext ⊢
    rcases hfits with rfl | hfits
    · rw [List.length_nil] at hnext ⊢
      omega
    · omega
  rwa [List.flatMap_append, List.take_left' hlen]

end

/-! ## Bare commands -/

theorem length_commandBytes (p : Config.Params) (c : Byte) : (commandBytes p c).length = 48 := length_bitsBytes p 8 _

theorem length_payloadBytes (p : Config.Params) (x : Nat) : (payloadBytes p x).length = 144 := length_bitsBytes p 24 _

theorem icspByte_ne_nil (p : Config.Params) (c : Byte) : icspByte p c ≠ [] := nofun

/-- An instruction that is a bare command: eight clocked bits, or as many whole pin writes as fit. -/
theorem bareCommand_emission {i : Instr} {c : Byte} {s : State}
    (hexec : exec i s = .next (s.emitAll .icsp (icspByte s.params c))) :
    ((s.port .icsp).cur + 48 ≤ s.params.cap →
        ∃ t, exec i s = .next t ∧ Emitted .icsp (commandBytes s.params c) 0 s t)
      ∧ (s.params.cap < (s.port .icsp).cur + 48 →
        ∃ mid t, Emitted .icsp ((commandBytes s.params c).take (3 * ((s.params.cap - (s.port .icsp).cur) / 3))) 0 s mid
          ∧ exec i s = .next t ∧ Faulted .bufferOverflow mid t) := by
  have h3 := threeByteStream_icspByte s.params c
  rw [← length_commandBytes s.params c, ← encode_icspByte]
  refine ⟨fun hfits => ⟨_, hexec, h3.emitted hfits⟩, fun hover => ?_⟩
  obtain ⟨mid, hemitted, hfault⟩ := h3.overflow (ch := .icsp) (icspByte_ne_nil _ _) hover
  exact ⟨mid, _, hemitted, hfault ▸ hexec, mid.faulted_fault _⟩

/-- Settles O11: each of the five is the emission of its command alone. -/
theorem bareCommandsAreEightClockedBits : Obligations.BareCommandsAreEightClockedBits := by
  intro i c s hlisted
  refine ⟨length_commandBytes _ _, bareCommand_emission ?_⟩
  simp only [List.mem_cons, Prod.mk.injEq, List.not_mem_nil, or_false] at hlisted
  obtain ⟨rfl, rfl⟩ | ⟨rfl, rfl⟩ | ⟨rfl, rfl⟩ | ⟨rfl, rfl⟩ | ⟨rfl, rfl⟩ := hlisted <;> rfl

/-! ## Units with a payload -/

/-- The pin writes of a command and its payload frame. -/
def unitFront (p : Config.Params) (c : Byte) (x : Nat) : List Instr :=
  icspByte p c ++ (frameBytes (frameValue x)).flatMap (icspByte p)

/-- The stream of a unit with a payload: command and frame, and the delay where one follows. -/
def unitStream (p : Config.Params) (c : Byte) (x : Nat) (delay : Option Nat) : List Instr :=
  unitFront p c x ++ (delay.map Instr.waitl).toList

section
variable (p : Config.Params) (c : Byte) {x : Nat}

theorem threeByteStream_unitFront (x : Nat) : ThreeByteStream (unitFront p c x) :=
  (threeByteStream_icspByte p c).append (threeByteStream_frame p _)

theorem encode_unitFront (hx : x < 2 ^ 22) :
    (unitFront p c x).flatMap encode = commandBytes p c ++ payloadBytes p x := by
  rw [unitFront, List.flatMap_append, encode_icspByte, encode_frame p hx]

theorem unitFront_ne_nil (x : Nat) : unitFront p c x ≠ [] := nofun

theorem length_unitBytes (x : Nat) : (commandBytes p c ++ payloadBytes p x).length = 192 := by
  rw [List.length_append, length_commandBytes, length_payloadBytes]

theorem length_encode_unitFront (hx : x < 2 ^ 22) : ((unitFront p c x).flatMap encode).length = 192 := by
  rw [encode_unitFront p c hx, length_unitBytes]

theorem encode_unitStream (hx : x < 2 ^ 22) (n : Nat) :
    (unitStream p c x (some n)).flatMap encode = commandBytes p c ++ payloadBytes p x ++ longDelayBytes n := by
  rw [unitStream, List.flatMap_append, encode_unitFront p c hx, ← encode_waitl]
  simp

theorem threeByteStream_unitStream {delay : Option Nat} (h : ∀ n, delay = some n → n ≤ 0xFFFF) (x : Nat) :
    ThreeByteStream (unitStream p c x delay) := by
  refine (threeByteStream_unitFront p c x).append ?_
  cases delay with
  | none => exact nofun
  | some n => exact threeByteStream_delay (h n rfl)

end

theorem microLength_icsp (t : Nat) : microLength .icsp t = 2 * t * 2 / 8 := Nat.shiftRight_eq_div_pow _ 3

theorem milliLength_icsp (t : Nat) : milliLength .icsp t = 2000 * t * 2 / 8 := Nat.shiftRight_eq_div_pow _ 3

/-- Each of the four units is the emission of its command, its frame and its delay, for an operand of its width
(R104). -/
theorem payloadUnit_exec {i : Instr} {c : Byte} {x : Nat} {delay : Option Nat} {s : State}
    (hlisted : (i, c, delay) ∈
      [(Instr.loadaddr x, s.params.opLoadPc, none),
       (.progword x, s.params.opProgInc, some (2 * s.params.tProgWordUs * 2 / 8)),
       (.progbyte x, s.params.opProgByte, some (2 * s.params.tProgByteUs * 2 / 8)),
       (.erase x, s.params.opBulkErase, some (2000 * s.params.tEraseMs * 2 / 8))])
    (hw : i.wellFormed = true) :
    x < 2 ^ 22 ∧ exec i s = .next (s.emitAll .icsp (unitStream s.params c x delay)) := by
  have hunit {w : Nat} {delay : Option Nat} {after : List Instr} (c : Byte) (h4 : w ∈ [4, 8, 16, 22]) (hx : x < 2 ^ w)
      (hafter : after = (delay.map Instr.waitl).toList) :
      x < 2 ^ 22 ∧ s.emitStream .icsp (commandFrame s.params c w x after)
        = s.emitAll .icsp (unitStream s.params c x delay) := by
    have hw22 : w ≤ 22 := (by decide : ∀ v ∈ [4, 8, 16, 22], v ≤ 22) w h4
    refine ⟨hx.trans_le (Nat.pow_le_pow_right (by decide) hw22), ?_⟩
    rw [commandFrame_ok s.params c after h4 hx, State.emitStream, hafter]
    rfl
  simp only [List.mem_cons, Prod.mk.injEq, List.not_mem_nil, or_false] at hlisted
  obtain ⟨rfl, rfl, rfl⟩ | ⟨rfl, rfl, rfl⟩ | ⟨rfl, rfl, rfl⟩ | ⟨rfl, rfl, rfl⟩ := hlisted
  · exact (hunit (delay := none) s.params.opLoadPc (by decide) (of_decide_eq_true hw) rfl).imp_right
      (congrArg Host.Outcome.next)
  · exact (hunit _ (by decide) (of_decide_eq_true hw) (by rw [microLength_icsp]; rfl)).imp_right
      (congrArg Host.Outcome.next)
  · exact (hunit _ (by decide) (of_decide_eq_true hw) (by rw [microLength_icsp]; rfl)).imp_right
      (congrArg Host.Outcome.next)
  · exact (hunit _ (by decide) (of_decide_eq_true hw) (by rw [milliLength_icsp]; rfl)).imp_right
      (congrArg Host.Outcome.next)

/-- Settles O12: a unit is a stream of three-byte instructions, of which the delay alone can fail its check, at its
place after the frame. -/
theorem payloadUnitsAreCommandFrameDelay : Obligations.PayloadUnitsAreCommandFrameDelay := by
  intro i c x delay s hlisted hw
  obtain ⟨hx, hexec⟩ := payloadUnit_exec hlisted hw
  have hfront := threeByteStream_unitFront s.params c x
  have hlen := length_encode_unitFront s.params c hx
  refine ⟨length_unitBytes _ _ _, ?bare, ?delayed, ?long, ?overflow⟩
  case bare =>
    rintro rfl hfits
    refine ⟨_, hexec, ?_⟩
    rw [← encode_unitFront s.params c hx, unitStream, Option.map_none, Option.toList_none, List.append_nil]
    exact hfront.emitted (hlen ▸ hfits)
  case delayed =>
    rintro n rfl hn hfits
    refine ⟨_, hexec, ?_⟩
    rw [← encode_unitStream s.params c hx]
    refine (threeByteStream_unitStream s.params c (by simpa using hn) x).emitted ?_
    rw [encode_unitStream s.params c hx, List.length_append, length_unitBytes]
    exact hfits
  case long =>
    rintro n rfl hn hfits
    refine ⟨s.emitAll .icsp (unitFront s.params c x), _, ?_, hexec, ?_⟩
    · rw [← encode_unitFront s.params c hx]
      exact hfront.emitted (hlen ▸ hfits)
    · have hcheck (u : State) : u.emitCheck .icsp (.waitl n) = some .waitLengthOverflow := if_pos hn
      rw [unitStream, State.emitAll_append s .icsp _ _ hfront.passes (hlen ▸ hfits), Option.map_some,
        Option.toList_some, State.emitAll_refused (hcheck _)]
      exact State.faulted_fault _ _
  case overflow =>
    rintro bytes hover (rfl | ⟨n, rfl, hn, rfl⟩)
    · rw [← encode_unitFront s.params c hx] at hover ⊢
      obtain ⟨mid, hemitted, hfault⟩ := hfront.overflow (ch := .icsp) (unitFront_ne_nil _ _ _) hover
      rw [unitStream, State.emitAll_overflow_append s .icsp _ _ hfront.passes (unitFront_ne_nil _ _ _) hover] at hexec
      exact ⟨mid, _, hemitted, hfault ▸ hexec, mid.faulted_fault _⟩
    · rw [← encode_unitStream s.params c hx] at hover ⊢
      obtain ⟨mid, hemitted, hfault⟩ :=
        (threeByteStream_unitStream s.params c (delay := some n) (by simpa using hn) x).overflow (ch := .icsp)
          nofun hover
      exact ⟨mid, _, hemitted, hfault ▸ hexec, mid.faulted_fault _⟩

/-! ## Reading a word -/

theorem length_encode_le (i : Instr) : (encode i).length ≤ 3 := by
  cases i <;> simp [encode]

/-- Of a front part of the pulses a sample is requested for every whole pulse (R26, R176). -/
theorem samplesOf_readPulses_front (p : Config.Params) (n : Nat) {pre post : List Instr} {next : Instr}
    (h : (List.replicate n (readPulse p)).flatten ++ [pinRo p] = pre ++ next :: post) :
    (pre.map samplesOf).sum = (pre.flatMap encode).length / 7 := by
  induction n generalizing pre with
  | zero =>
    cases pre with
    | nil => rfl
    | cons i pre => simp at h
  | succ n ih =>
    rw [List.replicate_succ, List.flatten_cons] at h
    match pre with
    | [] => rfl
    | [a] =>
      obtain ⟨rfl, -⟩ : a = pinRh p ∧ _ := by simpa [readPulse, eq_comm] using h
      simp [pinRh, samplesOf, encode]
    | [a, b] =>
      obtain ⟨rfl, rfl, -⟩ : a = pinRh p ∧ b = pinRl p ∧ _ := by simpa [readPulse, eq_comm] using h
      simp [pinRh, pinRl, samplesOf, encode]
    | a :: b :: c :: pre =>
      simp only [readPulse, List.cons_append, List.nil_append, List.cons.injEq] at h
      obtain ⟨rfl, rfl, rfl, h⟩ := h
      simp only [List.map_cons, List.sum_cons, ih h, List.flatMap_cons, List.length_append]
      simp only [samplesOf, pinRh, pinRl, encode, List.length_cons, List.length_nil]
      omega

/-- What comes before the pulses of a word's read: the command, the data line as an input, and the gap (R176, R177). -/
def readFront (p : Config.Params) : List Instr := icspByte p p.opReadInc ++ [pinRl p, .waits Config.readGapM1]

theorem readWordStream_eq (p : Config.Params) :
    readWordStream p = readFront p ++ ((List.replicate 24 (readPulse p)).flatten ++ [pinRo p]) := by
  simp only [readWordStream, readFront, icspReadFrame, List.append_assoc]

theorem length_encode_readFront (p : Config.Params) : ((readFront p).flatMap encode).length = 53 := by
  rw [readFront, List.flatMap_append, List.length_append, encode_icspByte, length_commandBytes]
  rfl

theorem samplesOf_readFront (p : Config.Params) : ((readFront p).map samplesOf).sum = 0 := by
  rw [readFront, List.map_append, List.sum_append, samplesOf_icspByte]
  rfl

/-- Of a front part of a word's read a sample is requested for every whole pulse, the first of which begins after 53
bytes (R26, R177). -/
theorem samplesOf_readWord_front {p : Config.Params} {pre post : List Instr} {next : Instr}
    (h : readWordStream p = pre ++ next :: post) :
    (pre.map samplesOf).sum = ((pre.flatMap encode).length - 53) / 7 := by
  rw [readWordStream_eq] at h
  rcases List.append_eq_append_iff.mp h with ⟨pulses, rfl, hpulses⟩ | ⟨rest, hfront, -⟩
  · rw [List.map_append, List.sum_append, samplesOf_readFront, samplesOf_readPulses_front p 24 hpulses,
      List.flatMap_append, List.length_append, length_encode_readFront]
    omega
  · have hlen := length_encode_readFront p
    have hsamples := samplesOf_readFront p
    rw [hfront, List.flatMap_append, List.length_append] at hlen
    rw [hfront, List.map_append, List.sum_append] at hsamples
    omega

theorem passes_readWordStream (p : Config.Params) : ∀ i ∈ readWordStream p, passes i = true := fun i hi =>
  (List.mem_append.mp hi).elim (passes_icspByte p _ i) (passes_icspReadFrame p i)

theorem encode_readWordStream (p : Config.Params) :
    (readWordStream p).flatMap encode = commandBytes p p.opReadInc ++ readFrameBytes p := by
  rw [readWordStream, List.flatMap_append, encode_icspByte, encode_icspReadFrame]

theorem samplesOf_readWordStream (p : Config.Params) : ((readWordStream p).map samplesOf).sum = 24 := by
  rw [readWordStream, List.map_append, List.sum_append, samplesOf_icspByte, samplesOf_icspReadFrame]

theorem length_readWordBytes (p : Config.Params) :
    (commandBytes p p.opReadInc ++ readFrameBytes p).length = 224 := by
  rw [List.length_append, length_commandBytes, length_readFrameBytes]

/-- Settles O13: the command and the read frame are one stream, and the part of it that fits ends at a whole
instruction, with the samples of `samplesOf_readWord_front`. -/
theorem readWordIsCommandAndReadFrame : Obligations.ReadWordIsCommandAndReadFrame := by
  intro s
  have hpasses := passes_readWordStream s.params
  have hexec : exec .readword s = .next (s.emitAll .icsp (readWordStream s.params)) := rfl
  rw [← length_readWordBytes s.params, ← encode_readWordStream]
  refine ⟨rfl, fun hfits => ⟨_, hexec, ?_⟩, fun hover => ?_⟩
  · rw [← samplesOf_readWordStream s.params]
    exact State.emitAll_fits s .icsp _ hpasses hfits
  · obtain ⟨pre, next, post, mid, hsplit, hemitted, hfits, hnext, hfault⟩ :=
      State.emitAll_overflow s .icsp _ hpasses nofun hover
    refine ⟨(pre.flatMap encode).length, mid, _, ?_, ?_, fun hpos => ?_, hfault ▸ hexec, mid.faulted_fault _⟩
    · rw [← samplesOf_readWord_front hsplit, hsplit, List.flatMap_append, List.take_left]
      exact hemitted
    · exact hnext.trans_le (Nat.add_le_add_left (length_encode_le next) _)
    · refine hfits.resolve_left ?_
      rintro rfl
      exact absurd hpos (Nat.lt_irrefl 0)

end Sys2Proof.Machine
end

section
/-! The identity reads of Open: which words of the samples the registers keep. -/

namespace Sys2Proof.Machine

/-- Settles O27: each register element is decoded from the samples of its own answer (`wordSamples_flatten`). -/
theorem identityReadsKeepTheirWords : Obligations.IdentityReadsKeepTheirWords := by
  intro s answers h hgot
  refine ⟨fun _ => ⟨_, _, rfl, rfl, fun j => ?_⟩, fun _ => ⟨_, _, rfl, rfl, fun j => ?_⟩⟩ <;>
    simp [hgot, wordSamples_flatten h]

/-! ## The revision -/

theorem revMinorOf_eq (rev : Half) : revMinorOf rev = BitVec.ofNat 6 rev.toNat :=
  BitVec.eq_of_toNat_eq (by simp [revMinorOf])

theorem revMajorOf_eq (rev : Half) : revMajorOf rev = BitVec.ofNat 8 (0x41 + rev.toNat / 64 % 64) := by
  apply BitVec.eq_of_toNat_eq
  simp [revMajorOf, BitVec.extractLsb'_toNat, Nat.shiftRight_eq_div_pow]

/-- Settles O26: the two words are the answers of the two reads, and letter and minor are fields of the first. -/
theorem revisionSplitsIntoLetterAndMinor : Obligations.RevisionSplitsIntoLetterAndMinor := by
  intro s first second hfirst hsecond hgot
  have hanswers : (s.port .icsp).got = [first, second].flatten := by rw [hgot]; simp
  have hlen : ∀ a ∈ [first, second], a.length = 24 := by simp [hfirst, hsecond]
  refine ⟨_, rfl, ?_⟩
  simp only [State.storeIds, hanswers, wordSamples_flatten hlen, revMinorOf_eq, revMajorOf_eq]
  rfl

end Sys2Proof.Machine
end

section
/-! The program of a Read: one address load, its round trips, and what each makes of the samples. -/

namespace Sys2Proof.Machine

/-! ## The round trips -/

/-- The round trips of a Read of `m` bytes, each by its words and the bytes it keeps (R238). -/
def roundTrips (m : Nat) : List (Nat × Nat) :=
  List.replicate (m / 128) (64, 128) ++ List.replicate (m % 128 / 2) (1, 2) ++ List.replicate (m % 2) (1, 1)

/-- The steps of a round trip: its words in one buffer, the flush, the read-back and the decoding (R238, R239). -/
def roundSteps (r : Nat × Nat) : List BlockStep :=
  List.replicate r.1 (BlockStep.emit .icsp (.instr .readword)) ++ [BlockStep.flush, .readBack .icsp, .collect r.2]

theorem roundTrips_batch {m : Nat} (h : 128 ≤ m) : roundTrips m = (64, 128) :: roundTrips (m - 128) := by
  obtain ⟨n, rfl⟩ := Nat.exists_eq_add_of_le h
  have hdiv : (128 + n) / 128 = n / 128 + 1 := by omega
  have hmod : (128 + n) % 128 = n % 128 := by omega
  have hodd : (128 + n) % 2 = n % 2 := by omega
  rw [Nat.add_sub_cancel_left, roundTrips, roundTrips, hdiv, hmod, hodd, List.replicate_succ]
  rfl

theorem roundTrips_word {m : Nat} (h2 : 2 ≤ m) (h : m < 128) : roundTrips m = (1, 2) :: roundTrips (m - 2) := by
  obtain ⟨n, rfl⟩ := Nat.exists_eq_add_of_le h2
  have hdiv : (2 + n) / 128 = 0 := by omega
  have hdiv' : n / 128 = 0 := by omega
  have hmod : (2 + n) % 128 / 2 = n % 128 / 2 + 1 := by omega
  have hodd : (2 + n) % 2 = n % 2 := by omega
  rw [Nat.add_sub_cancel_left, roundTrips, roundTrips, hdiv, hdiv', hmod, hodd, List.replicate_succ]
  rfl

/-- The first round trip takes a batch while 128 bytes remain, a word while two do, and else the odd byte. -/
theorem roundTrips_first {m : Nat} (h : m ≠ 0) :
    roundTrips m = (roundWords m, min m (2 * roundWords m)) :: roundTrips (m - 2 * roundWords m) := by
  by_cases hbatch : 128 ≤ m
  · have hwords : roundWords m = 64 := if_pos hbatch
    rw [hwords, min_eq_right hbatch]
    exact roundTrips_batch hbatch
  · have hwords : roundWords m = 1 := if_neg hbatch
    rw [hwords]
    by_cases hword : 2 ≤ m
    · rw [min_eq_right hword]
      exact roundTrips_word hword (by omega)
    · obtain rfl : m = 1 := by omega
      rfl

theorem readRounds_zero (fuel : Nat) (load : List BlockStep) : readRounds fuel 0 load = [] := by
  cases fuel <;> rfl

theorem readRounds_eq (fuel : Nat) {rem : Nat} (hfuel : rem ≤ fuel) (h : rem ≠ 0) (load : List BlockStep) :
    readRounds fuel rem load = load ++ (roundTrips rem).flatMap roundSteps := by
  induction fuel generalizing rem load with
  | zero => omega
  | succ fuel ih =>
    have hrest : readRounds fuel (rem - 2 * roundWords rem) [] =
        (roundTrips (rem - 2 * roundWords rem)).flatMap roundSteps := by
      by_cases hlast : rem - 2 * roundWords rem = 0
      · rw [hlast, readRounds_zero]
        rfl
      · have hpos : 0 < roundWords rem := by unfold roundWords; split <;> decide
        exact ih (by omega) hlast []
    rw [readRounds, if_neg h, hrest, roundTrips_first h]
    simp [roundSteps, onIcsp]

/-- A Read, written out (R238). -/
theorem readProgram_eq (addr : Nat) {m : Nat} (h : 0 < m) :
    readProgram addr m = [.begin, .emit .icsp (.instr (.loadaddr addr))]
      ++ (roundTrips m).flatMap roundSteps ++ [.finishRead m] := by
  rw [readProgram, readRounds_eq m le_rfl h.ne']
  rfl

/-! ## What the round trips emit, keep and send -/

theorem emitted_replicate (ch : Chan) (n : Nat) (e : Emitter) :
    emitted ch (List.replicate n (.emit ch e)) = List.replicate n e := by
  induction n with
  | zero => rfl
  | succ n ih => rw [List.replicate_succ, emitted, if_pos rfl, ih, List.replicate_succ]

theorem emitted_roundSteps (r : Nat × Nat) : emitted .icsp (roundSteps r) = List.replicate r.1 (.instr .readword) := by
  rw [roundSteps, emitted_append, emitted_replicate]
  exact List.append_nil _

theorem emitted_rounds (rs : List (Nat × Nat)) :
    emitted .icsp (rs.flatMap roundSteps) = List.replicate (rs.map Prod.fst).sum (.instr .readword) := by
  induction rs with
  | nil => rfl
  | cons r rs ih =>
    rw [List.flatMap_cons, emitted_append, emitted_roundSteps, ih, ← List.replicate_add, List.map_cons, List.sum_cons]

theorem sum_words_roundTrips (m : Nat) : ((roundTrips m).map Prod.fst).sum = (m + 1) / 2 := by
  simp only [roundTrips, List.map_append, List.map_replicate, List.sum_append, List.sum_replicate, smul_eq_mul]
  omega

theorem sum_bytes_roundTrips (m : Nat) : ((roundTrips m).map Prod.snd).sum = m := by
  simp only [roundTrips, List.map_append, List.map_replicate, List.sum_append, List.sum_replicate, smul_eq_mul]
  omega

/-- The bytes a step keeps of what it decodes. -/
def keptBytes : BlockStep → Nat
  | .collect want => want
  | _ => 0

theorem keptBytes_rounds (rs : List (Nat × Nat)) :
    ((rs.flatMap roundSteps).map keptBytes).sum = (rs.map Prod.snd).sum := by
  induction rs with
  | nil => rfl
  | cons r rs ih =>
    rw [List.flatMap_cons, List.map_append, List.sum_append, ih]
    simp [roundSteps, keptBytes]

theorem flushSizes_words (n used : Nat) (rest : List BlockStep) :
    flushSizes used (List.replicate n (.emit .icsp (.instr .readword)) ++ rest) = flushSizes (used + 224 * n) rest := by
  induction n generalizing used with
  | zero => rfl
  | succ n ih =>
    rw [List.replicate_succ, List.cons_append, flushSizes, ih]
    congr 1
    simp only [footprint]
    omega

/-- Each round trip is one buffer, of 224 bytes a word and what stood in the buffer before it. -/
theorem flushSizes_roundSteps (r : Nat × Nat) (used : Nat) (rest : List BlockStep) :
    flushSizes used (roundSteps r ++ rest) = (used + 224 * r.1) :: flushSizes 0 rest := by
  rw [roundSteps, List.append_assoc, flushSizes_words]
  rfl

theorem flushSizes_rounds_le {words : Nat} (m : Nat) {rs : List (Nat × Nat)} (h : ∀ r ∈ rs, r.1 ≤ words) (used : Nat) :
    ∀ n ∈ flushSizes used (rs.flatMap roundSteps ++ [.finishRead m]), n ≤ used + 224 * words := by
  induction rs generalizing used with
  | nil => exact nofun
  | cons r rs ih =>
    obtain ⟨hr, hrs⟩ := List.forall_mem_cons.mp h
    intro n hn
    rw [List.flatMap_cons, List.append_assoc, flushSizes_roundSteps, List.mem_cons] at hn
    rcases hn with rfl | hn
    · omega
    · have := ih hrs 0 n hn
      omega

theorem words_roundTrips_le {m : Nat} : ∀ r ∈ roundTrips m, r.1 ≤ 64 := by
  intro r hr
  simp only [roundTrips, List.mem_append, List.mem_replicate] at hr
  obtain (⟨-, rfl⟩ | ⟨-, rfl⟩) | ⟨-, rfl⟩ := hr <;> decide

/-! ## The decoding of a round trip -/

/-- The samples of whole answers give the two bytes of each word, low byte first (R67, R238). -/
theorem State.collect_answers {s : State} {task : Task} {answers : List (List Byte)} (ht : s.task = some task)
    (h : ∀ a ∈ answers, a.length = 24) (hgot : (s.port .icsp).got = answers.flatten) (want : Nat) :
    s.collect want = { s with
      task := some { task with
        out := task.out ++ (answers.flatMap fun a => outputBytes (decodeWord a)).take want } } := by
  have hlen : answers.flatten.length / 24 = answers.length := by
    rw [List.length_flatten, List.map_congr_left h, List.map_const', List.sum_replicate_nat]
    omega
  simp only [State.collect, ht, hgot, hlen, batchBytes_flatten h, Option.map_some]

/-- Settles O30: the program is its round trips (`readProgram_eq`), and what they emit, keep and send is the sum over
`roundTrips`. -/
theorem readLoadsOnceAndReadsHalfTheBytes : Obligations.ReadLoadsOnceAndReadsHalfTheBytes := by
  refine ⟨fun addr m hm => ⟨readProgram_eq addr hm, ?emits, ?keeps, ?sizes⟩, fun s task answers want ht h hgot => ?_⟩
  case emits =>
    rw [readProgram_eq addr hm, emitted_append, emitted_append, emitted_rounds, sum_words_roundTrips]
    exact List.append_nil _
  case keeps =>
    have hkept : ((readProgram addr m).map keptBytes).sum = m := by
      rw [readProgram_eq addr hm, List.map_append, List.map_append, List.sum_append, List.sum_append,
        keptBytes_rounds, sum_bytes_roundTrips]
      simp [keptBytes]
    refine (congrArg List.sum (List.map_congr_left fun x _ => ?_)).trans hkept
    cases x <;> rfl
  case sizes =>
    rw [readProgram_eq addr hm]
    exact flushSizes_rounds_le m words_roundTrips_le 192
  · exact congrArg Host.Outcome.next (State.collect_answers ht h hgot want)

end Sys2Proof.Machine
end

section
/-! The program of a Write: its units, the buffers they are cut into, and how a Write begins. -/

namespace Sys2Proof.Machine

/-! ## The units -/

theorem length_writeUnits (bytes : List Byte) : (writeUnits bytes).length = (bytes.length + 1) / 2 := by
  induction bytes using writeUnits.induct with
  | case1 b0 b1 rest ih =>
    simp only [writeUnits, List.length_cons, ih]
    omega
  | case2 b => simp [writeUnits]
  | case3 => simp [writeUnits]

/-- Unit `k` of the whole words: the increment for the sentinel, the programming of any other word (R243, R244). -/
theorem getElem?_writeUnits_word (bytes : List Byte) (k : Nat) (hk : 2 * k + 1 < bytes.length) :
    (writeUnits bytes)[k]? =
      some (if le16 (bytes[2 * k]?.getD 0#8) (bytes[2 * k + 1]?.getD 0#8) = 0xFFFF then .incaddr
        else .progword (le16 (bytes[2 * k]?.getD 0#8) (bytes[2 * k + 1]?.getD 0#8))) := by
  induction bytes using writeUnits.induct generalizing k with
  | case1 b0 b1 rest ih =>
    cases k with
    | zero => rfl
    | succ k =>
      simp only [List.length_cons] at hk
      exact ih k (by omega)
  | case2 b =>
    simp only [List.length_singleton] at hk
    omega
  | case3 =>
    simp only [List.length_nil] at hk
    omega

/-- The odd last byte is programmed as a byte (R245). -/
theorem getElem?_writeUnits_byte (bytes : List Byte) (h : bytes.length % 2 = 1) :
    (writeUnits bytes)[bytes.length / 2]? = some (.progbyte (bytes[bytes.length - 1]?.getD 0#8).toNat) := by
  induction bytes using writeUnits.induct with
  | case1 b0 b1 rest ih =>
    simp only [List.length_cons] at h ⊢
    have hlast : rest.length + 1 + 1 - 1 = rest.length - 1 + 1 + 1 := by omega
    have hunit : (rest.length + 1 + 1) / 2 = rest.length / 2 + 1 := by omega
    rw [hlast, hunit]
    exact ih (by omega)
  | case2 b => simp [writeUnits]
  | case3 => exact absurd h (by decide)

/-- Settles O32, by recursion on the bytes, two at a time. -/
theorem writeUnitsAreTheWordsAndTheOddByte : Obligations.WriteUnitsAreTheWordsAndTheOddByte := fun bytes =>
  ⟨length_writeUnits bytes, getElem?_writeUnits_word bytes, getElem?_writeUnits_byte bytes⟩

/-! ## The buffers -/

theorem emitted_cutUnits (cap used : Nat) (us : List Instr) :
    emitted .icsp (cutUnits cap used us) = us.map .instr := by
  induction us generalizing used with
  | nil => rfl
  | cons u us ih =>
    rw [cutUnits]
    split
    · simp [onIcsp, emitted, ih]
    · simp [onIcsp, emitted, ih]

/-- The bytes an emission of a table instruction takes in a buffer (R250). -/
def emitterSize : Emitter → Nat
  | .instr i => footprint i
  | _ => 0

/-- The end of a Write: the last buffer is sent, and the bytes are counted. -/
def writeEnd (n : Nat) : List BlockStep := [.flush, .finishWrite n]

section
variable (cap n : Nat) (us : List Instr)

theorem buffers_cutUnits_flatten (used : Nat) (acc : List Emitter) :
    (buffers .icsp acc (cutUnits cap used us ++ writeEnd n)).flatten = acc ++ us.map .instr := by
  induction us generalizing used acc with
  | nil => simp [cutUnits, writeEnd, buffers]
  | cons u us ih =>
    rw [cutUnits]
    split
    · simp [onIcsp, buffers, ih]
    · simp [onIcsp, buffers, ih]

theorem transactions_cutUnits (used : Nat) (acc : List Emitter) :
    transactions (cutUnits cap used us ++ writeEnd n)
      = List.replicate (buffers .icsp acc (cutUnits cap used us ++ writeEnd n)).length .flush ++ [.finishWrite n] := by
  induction us generalizing used acc with
  | nil => rfl
  | cons u us ih =>
    rw [cutUnits]
    split
    · exact ih _ (acc ++ [.instr u])
    · exact congrArg (BlockStep.flush :: ·) (ih _ [.instr u])

/-- What is sent at each flush is counted in `flushSizes` as it is cut in `buffers`. -/
theorem flushSizes_cutUnits (used start : Nat) {acc : List Emitter} (h : start = (acc.map emitterSize).sum) :
    flushSizes start (cutUnits cap used us ++ writeEnd n)
      = (buffers .icsp acc (cutUnits cap used us ++ writeEnd n)).map fun es => (es.map emitterSize).sum := by
  induction us generalizing used start acc with
  | nil => simp [cutUnits, writeEnd, flushSizes, buffers, h]
  | cons u us ih =>
    rw [cutUnits]
    split
    · refine ih _ (start + footprint u) (acc := acc ++ [.instr u]) ?_
      simp [h, emitterSize]
    · simp only [List.cons_append, flushSizes, onIcsp, buffers, List.map_cons, ← h]
      refine congrArg (start :: ·) (ih _ (0 + footprint u) (acc := [.instr u]) ?_)
      simp [emitterSize]

/-- A unit is appended where it fits, and else begins a buffer of its own, which it fits (R251). -/
theorem flushSizes_cutUnits_le {used : Nat} (hused : used ≤ cap) (h : ∀ u ∈ us, footprint u ≤ cap) :
    ∀ k ∈ flushSizes used (cutUnits cap used us ++ writeEnd n), k ≤ cap := by
  induction us generalizing used with
  | nil =>
    intro k hk
    obtain rfl : k = used := by simpa [cutUnits, writeEnd, flushSizes] using hk
    exact hused
  | cons u us ih =>
    obtain ⟨hu, hus⟩ := List.forall_mem_cons.mp h
    rw [cutUnits]
    split
    · next hfits => exact ih hfits hus
    · simp only [List.cons_append, flushSizes, onIcsp, Nat.zero_add]
      exact List.forall_mem_cons.mpr ⟨hused, ih hu hus⟩

end

theorem footprint_writeUnits_le (bytes : List Byte) : ∀ u ∈ writeUnits bytes, footprint u ≤ 195 := by
  induction bytes using writeUnits.induct with
  | case1 b0 b1 rest ih =>
    refine List.forall_mem_cons.mpr ⟨?_, ih⟩
    split <;> simp [footprint]
  | case2 b => simp [writeUnits, footprint]
  | case3 => exact nofun

theorem writeProgram_eq (p : Config.Params) (addr : Nat) (bytes : List Byte) :
    writeProgram p addr bytes = .begin :: .emit .icsp (.instr (.loadaddr addr))
      :: (cutUnits p.cap 192 (writeUnits bytes) ++ writeEnd bytes.length) := by
  simp [writeProgram, writeEnd, onIcsp, footprint]

/-- Settles O33: after the address load, which fits, the units and their cuts are `cutUnits`. -/
theorem writeBuffersFitTheCapacity : Obligations.WriteBuffersFitTheCapacity := by
  intro p addr bytes hcap
  rw [writeProgram_eq]
  refine ⟨?emits, ?flattens, ?transacts, ?sizes, ?fits⟩
  case emits =>
    simp [emitted, emitted_append, emitted_cutUnits, writeEnd]
  case flattens => exact buffers_cutUnits_flatten _ _ _ _ _
  case transacts => exact congrArg (BlockStep.begin :: ·) (transactions_cutUnits _ _ _ _ _)
  case sizes =>
    refine (flushSizes_cutUnits p.cap bytes.length (writeUnits bytes) 192 192
      (acc := [.instr (.loadaddr addr)]) rfl).trans ?_
    refine List.map_congr_left fun es _ => congrArg List.sum (List.map_congr_left fun e _ => ?_)
    cases e <;> rfl
  case fits =>
    exact flushSizes_cutUnits_le p.cap _ _ (used := 192) (by omega) fun u hu =>
      (footprint_writeUnits_le bytes u hu).trans (by omega)

/-! ## How a Write begins and ends -/

theorem State.readyCursor_eq {s : State} {addr len : Nat} (hs : s.sess = .ready) (ha : s.regs.addr = some addr)
    (hl : s.regs.pmLen = some len) : s.readyCursor = .ok (addr, len) := by
  simp only [State.readyCursor, if_pos hs, ha, hl, readRegister]

theorem State.advance_eq {s : State} {addr : Nat} (h : s.regs.addr = some addr) (n : Nat) (r : Result) :
    s.advance n r = { s with regs := { s.regs with addr := some (addr + n) } }.endTask r := by
  simp only [State.advance, h, readRegister]

section
variable {s : State} {addr len : Nat} {bytes : List Byte} (hc : s.readyCursor = .ok (addr, len))
include hc

theorem State.callWrite_nil : s.callWrite [] = s.endTask (.count 0) := by
  simp only [State.callWrite, hc, List.length_nil, if_true]

theorem State.callWrite_unaligned (hb : bytes ≠ []) (h : addr % 2 = 1) :
    s.callWrite bytes = s.fault .unalignedCursor := by
  have hlen : bytes.length ≠ 0 := fun h0 => hb (List.length_eq_zero_iff.mp h0)
  simp only [State.callWrite, hc, if_neg hlen, if_pos h]

theorem State.callWrite_beyondEnd (hb : bytes ≠ []) (h : addr % 2 = 0) (hend : len < addr + bytes.length) :
    s.callWrite bytes = s.fault .writeBeyondEnd := by
  have hlen : bytes.length ≠ 0 := fun h0 => hb (List.length_eq_zero_iff.mp h0)
  have hodd : ¬ addr % 2 = 1 := by omega
  simp only [State.callWrite, hc, if_neg hlen, if_neg hodd, if_pos hend]

theorem State.callWrite_starts (hb : bytes ≠ []) (h : addr % 2 = 0) (hend : addr + bytes.length ≤ len) :
    s.callWrite bytes = s.start .write (writeProgram s.params addr bytes) := by
  have hlen : bytes.length ≠ 0 := fun h0 => hb (List.length_eq_zero_iff.mp h0)
  have hodd : ¬ addr % 2 = 1 := by omega
  simp only [State.callWrite, hc, if_neg hlen, if_neg hodd, if_neg (Nat.not_lt.mpr hend)]

end

/-- Settles O31: the checks of a Write in their order, and the counting of its bytes (`State.advance_eq`). -/
theorem writeBeginsByItsContract : Obligations.WriteBeginsByItsContract := by
  refine ⟨fun s bytes cs addr len htask hcalls hsess haddr hlen => ?_,
    fun s n addr haddr => congrArg Host.Outcome.next (State.advance_eq haddr n _)⟩
  have hcursor : ({ s with calls := cs } : State).readyCursor = .ok (addr, len) :=
    State.readyCursor_eq hsess haddr hlen
  rw [blockStep_of_call htask hcalls, State.beginCall]
  refine ⟨?_, fun hb hodd => ⟨_, rfl, ?_⟩, fun hb heven hend => ⟨_, rfl, ?_⟩, fun hb heven hend => ?_⟩
  · rintro rfl
    rw [State.callWrite_nil hcursor, State.endTask, htask]
  · rw [State.callWrite_unaligned hcursor hb hodd]
    exact State.faulted_fault _ _
  · rw [State.callWrite_beyondEnd hcursor hb heven hend]
    exact State.faulted_fault _ _
  · rw [State.callWrite_starts hcursor hb heven hend]
    rfl

end Sys2Proof.Machine
end

section
/-! How the operations begin: the checks of each call in the block's step, and what the programs emit at each flush. -/

namespace Sys2Proof.Machine

/-! ## Calls of a session that is not ready -/

theorem State.readyCursor_notReady {s : State} (h : s.sess ≠ .ready) : s.readyCursor = .error .notReady := if_neg h

/-- An operation of the ICSP session other than Open and Close faults where the session is not ready (R349). -/
theorem State.beginCall_icsp_notReady {s : State} (h : s.sess ≠ .ready) {c : Call}
    (hc : (∃ n, c = .read n) ∨ (∃ o w, c = .seek o w) ∨ (∃ bs, c = .write bs) ∨ ∃ m, c = .bulkErase m) :
    s.beginCall c = s.fault .notReady := by
  obtain ⟨n, rfl⟩ | ⟨o, w, rfl⟩ | ⟨bs, rfl⟩ | ⟨m, rfl⟩ := hc
  · simp only [State.beginCall, State.callRead, State.readyCursor_notReady h]
  · simp only [State.beginCall, State.callSeek, State.readyCursor_notReady h]
  · simp only [State.beginCall, State.callWrite, State.readyCursor_notReady h]
  · exact if_neg h

/-- An operation of the cartridge session other than SetupPins faults where the session is not ready (R349). -/
theorem State.beginCall_cart_notReady {s : State} (h : s.sessC ≠ .ready) {c : Call}
    (hc : c = .resetCart ∨ (∃ a, c = .setAddress a) ∨ c = .readRom512) :
    s.beginCall c = s.fault .notReady := by
  obtain rfl | ⟨a, rfl⟩ | rfl := hc <;> exact if_neg h

section
variable {s : State} {c : Call} {cs : List Call}

/-- The block's step at a call that is a fault at once. -/
theorem blockStep_call_faulted {f : Mark} (ht : s.task = none) (hc : s.calls = c :: cs)
    (h : ({ s with calls := cs } : State).beginCall c = ({ s with calls := cs } : State).fault f) :
    ∃ t, blockStep s = .next t ∧ Faulted f { s with calls := cs } t :=
  ⟨_, (blockStep_of_call ht hc).trans (congrArg Host.Outcome.next h), State.faulted_fault _ f⟩

/-- The block's step at a call that ends at once, or starts an operation, in a state given. -/
theorem blockStep_call_eq {t : State} (ht : s.task = none) (hc : s.calls = c :: cs)
    (h : ({ s with calls := cs } : State).beginCall c = t) : blockStep s = .next t :=
  (blockStep_of_call ht hc).trans (congrArg Host.Outcome.next h)

end

/-- Settles O34: the check of the session is the first of each of the seven calls. -/
theorem notReadyFaults : Obligations.NotReadyFaults := fun s _ cs htask hcalls =>
  ⟨fun hsess hc => blockStep_call_faulted htask hcalls
      (State.beginCall_icsp_notReady (s := { s with calls := cs }) hsess hc),
    fun hsess hc => blockStep_call_faulted htask hcalls
      (State.beginCall_cart_notReady (s := { s with calls := cs }) hsess hc)⟩

/-! ## What the programs emit -/

/-- A program of the cartridge session: A's stream, B's stream, the paired flush and what follows it (R283). -/
def pairProgram (a b : List Emitter) (tail : List BlockStep) : List BlockStep :=
  [.begin] ++ onChan .a a ++ onChan .b b ++ .flushPair :: tail

section
variable (a b : List Emitter) (tail : List BlockStep)

theorem buffers_pairProgram_a : buffers .a [] (pairProgram a b tail) = a :: buffers .a [] tail := by
  simp [pairProgram, buffers, buffers_onChan]

theorem buffers_pairProgram_b : buffers .b [] (pairProgram a b tail) = b :: buffers .b [] tail := by
  simp [pairProgram, buffers, buffers_onChan]

theorem transactions_pairProgram :
    transactions (pairProgram a b tail) = .begin :: .flushPair :: transactions tail := by
  have hbegin (l : List BlockStep) : transactions (.begin :: l) = .begin :: transactions l := rfl
  simp only [pairProgram, List.append_assoc, List.cons_append, List.nil_append, hbegin, transactions_onChan]
  rfl

end

theorem setupProgram_eq (p : Config.Params) : setupProgram p = pairProgram (setupA p) (setupB p) [.finishSetup] := rfl

theorem resetProgram_eq (p : Config.Params) : resetProgram p = pairProgram (resetA p) [] [.finishPlain] := rfl

theorem addressProgram_eq (p : Config.Params) (a : Nat) :
    addressProgram p a = pairProgram (addressA p a) (addressB p a) [.finishPlain] := rfl

theorem romProgram_eq (p : Config.Params) :
    romProgram p = pairProgram (cycles 256 (romCycleA p)) (cycles 256 (romCycleB p))
      [.readBack .b, .readBack .a, .finishRom] := rfl

/-- An identity read sends one buffer, and begins and ends with none composed (R230 to R232). -/
theorem buffers_identityRead (a : TargetAddr) (n : Nat) {store : BlockStep} (rest : List BlockStep)
    (hstore : ∀ l, buffers .icsp [] (store :: l) = buffers .icsp [] l) :
    buffers .icsp [] (identityRead a n store ++ rest)
      = (.instr (.loadaddr a.toNat) :: List.replicate n (.instr .readword)) :: buffers .icsp [] rest := by
  have hprog : identityRead a n store ++ rest =
      onChan .icsp (.instr (.loadaddr a.toNat) :: List.replicate n (.instr .readword))
        ++ .flush :: .readBack .icsp :: store :: rest := by
    simp [identityRead, onChan, onIcsp]
  rw [hprog, buffers_onChan, if_pos rfl, buffers, List.nil_append]
  exact congrArg _ (hstore rest)

/-- What Open does before its identity reads: the self-test, the divisor and the key entry (R222 to R227). -/
def openStart (p : Config.Params) : List BlockStep :=
  [.begin, onIcsp .loopon, .flush, .readEmpty .o1, onIcsp .probe, .flush, .readEcho, onIcsp .loopoff, .flush,
   .readEmpty .o3, onIcsp (.setdiv p.divIcsp.toNat), .flush, onIcsp (.setlo p.idleVal p.idleDir),
   .emit .icsp (.waitUs p.tIdleUs)] ++ keyEntry p ++ [.flush]

theorem openProgram_eq (p : Config.Params) :
    openProgram p = openStart p ++ (identityRead p.aUserId 32 .storeUserId ++ (identityRead p.aConfig 10 .storeConfig
      ++ (identityRead p.aDevId 2 .storeIds
        ++ [onIcsp (.loadaddr 0), .flush, .clearAddr, .resolveLength, .finishOpen]))) := by
  simp [openProgram, openStart, Config.nUserId, Config.nConfig, Config.nDevId]

theorem buffers_openStart (p : Config.Params) (rest : List BlockStep) :
    buffers .icsp [] (openStart p ++ rest) =
      [.instr .loopon] :: [.instr .probe] :: [.instr .loopoff] :: [.instr (.setdiv p.divIcsp.toNat)]
        :: [.instr (.setlo p.idleVal p.idleDir), .waitUs p.tIdleUs, .instr (.setlo p.icspBase p.icspDir),
            .waitUs p.tHoldUs, .instr .key0, .instr .key1, .instr .key2, .instr .key3, .waitUs p.tKeyUs]
        :: buffers .icsp [] rest := rfl

/-- The buffers of Open, one for each of its nine flushes (R220 to R235). -/
theorem buffers_openProgram (p : Config.Params) :
    buffers .icsp [] (openProgram p) =
      [[.instr .loopon], [.instr .probe], [.instr .loopoff], [.instr (.setdiv p.divIcsp.toNat)],
       [.instr (.setlo p.idleVal p.idleDir), .waitUs p.tIdleUs, .instr (.setlo p.icspBase p.icspDir),
        .waitUs p.tHoldUs, .instr .key0, .instr .key1, .instr .key2, .instr .key3, .waitUs p.tKeyUs],
       .instr (.loadaddr p.aUserId.toNat) :: List.replicate 32 (.instr .readword),
       .instr (.loadaddr p.aConfig.toNat) :: List.replicate 10 (.instr .readword),
       .instr (.loadaddr p.aDevId.toNat) :: List.replicate 2 (.instr .readword),
       [.instr (.loadaddr 0)]] := by
  rw [openProgram_eq, buffers_openStart, buffers_identityRead _ _ _ fun _ => rfl,
    buffers_identityRead _ _ _ fun _ => rfl, buffers_identityRead _ _ _ fun _ => rfl]
  rfl

/-- Settles O35: the checks of each call (`blockStep_call_eq`, `blockStep_call_faulted`), the buffers and the other
steps of the programs, and the two ends that write no register. -/
theorem otherOperationsBegin : Obligations.OtherOperationsBegin := by
  refine ⟨fun s cs htask => ?calls, fun p a m => ?programs, fun s => ⟨rfl, rfl⟩⟩
  case calls =>
    refine ⟨fun hc hsess hsessC => ?_, fun hc hsess => ?_, fun hc hsess => ?_, fun hc hsess => ?_, fun hc hsess => ?_,
      fun hc hsess => ?_, fun m hc hsess hm => ?_, fun m hc hsess hm => ?_, fun hc hsess => ?_, fun hc hsess => ?_,
      fun a hc hsess ha => ?_, fun a hc hsess ha => ?_, fun hc => ?_⟩
    · exact blockStep_call_eq htask hc (if_pos ⟨hsess, hsessC⟩)
    · refine blockStep_call_faulted htask hc (if_neg ?_)
      rintro ⟨hclosed, hsessC⟩
      rcases hsess with h | h | h
      · simp [h] at hclosed
      · simp [h] at hclosed
      · exact h hsessC
    · exact (blockStep_call_eq htask hc (if_pos hsess)).trans (by rw [State.endTask, ← htask])
    · exact blockStep_call_eq htask hc (if_neg hsess)
    · exact blockStep_call_eq htask hc (if_pos hsess)
    · exact blockStep_call_eq htask hc (if_pos hsess)
    · exact blockStep_call_eq htask hc ((if_pos hsess).trans (if_neg (Nat.not_lt.mpr hm)))
    · exact blockStep_call_faulted htask hc ((if_pos hsess).trans (if_pos hm))
    · exact blockStep_call_eq htask hc (if_pos hsess)
    · exact blockStep_call_faulted htask hc (if_neg hsess)
    · exact blockStep_call_eq htask hc ((if_pos hsess).trans (if_pos ha))
    · exact blockStep_call_faulted htask hc ((if_pos hsess).trans (if_neg (Nat.not_lt.mpr ha)))
    · exact (blockStep_call_eq htask hc rfl).trans (by rw [htask]; rfl)
  case programs =>
    simp only [setupProgram_eq, resetProgram_eq, addressProgram_eq, romProgram_eq, buffers_pairProgram_a,
      buffers_pairProgram_b, transactions_pairProgram]
    exact ⟨buffers_openProgram p, rfl, rfl, rfl, rfl, rfl, rfl, rfl, rfl, rfl, rfl, rfl, rfl, rfl, rfl, rfl, rfl, rfl⟩

end Sys2Proof.Machine
end

section
/-! The self-test of Open, its last steps, and Close. -/

namespace Sys2Proof.Machine

/-! ## The self-test -/

section
variable {s : State} {k : Nat}

theorem State.readEmpty_silent {o : SelfTest} (ha : s.answer = .count k) (h : (s.engine .icsp).rsp.take k = []) :
    s.readEmpty o = s.popAnswer := by
  simp only [State.readEmpty, ha, if_pos h]

theorem State.readEmpty_bytes {o : SelfTest} (ha : s.answer = .count k) (h : (s.engine .icsp).rsp.take k ≠ []) :
    s.readEmpty o =
      (s.popAnswer.setEngine .icsp { s.engine .icsp with rsp := (s.engine .icsp).rsp.drop k }).fatal .openIcsp
        (.protocolSync o []) := by
  simp only [State.readEmpty, ha, if_neg h]

/-- The state once O2 has read `n` bytes and collected `got` (R223). -/
def State.echoRead (s : State) (n : Nat) (got : List Byte) : State :=
  (s.popAnswer.setEngine .icsp { s.engine .icsp with rsp := (s.engine .icsp).rsp.drop n }).setPort .icsp
    { s.port .icsp with got := got }

/-- O2 in its three outcomes (R223). -/
theorem State.readEcho_eq (ha : s.answer = .count k) {n : Nat} {got : List Byte}
    (hn : n = min k (2 - (s.port .icsp).got.length))
    (hgot : got = (s.port .icsp).got ++ (s.engine .icsp).rsp.take n) :
    s.readEcho =
      if got.length < 2 then (s.echoRead n got).again .readEcho
      else if got = [0xFA, 0xAA] then s.echoRead n got
      else (s.echoRead n got).fatal .openIcsp (.protocolSync .o2 got) := by
  subst hn hgot
  simp only [State.readEcho, ha]
  rfl

end

theorem State.fatal_engines (s : State) (op : OpName) (e : OpError) : (s.fatal op e).engines = s.engines := by
  rw [State.fatal_eq]

theorem State.fatal_answers (s : State) (op : OpName) (e : OpError) : (s.fatal op e).answers = s.answers := by
  rw [State.fatal_eq]

theorem State.fatal_engine (s : State) (op : OpName) (e : OpError) (c : Chan) :
    (s.fatal op e).engine c = s.engine c := by
  rw [State.engine, State.fatal_engines, State.engine]

/-- Settles O40: O1 and O3 by what one `read` returns, O2 by the three outcomes of `State.readEcho_eq`. -/
theorem selfTestAcceptsOnlyTheEcho : Obligations.SelfTestAcceptsOnlyTheEcho := by
  intro s task k htask hop hanswer
  have hended {e : OpError} {u : State} (ht : u.task = some task)
      (h : { u with engines := s.engines, ports := s.ports, answers := s.answers } = s) :
      Ended e task s (u.fatal .openIcsp e) := hop ▸ State.fatal_ended e ht h
  refine ⟨fun o hsilent => congrArg Host.Outcome.next (State.readEmpty_silent hanswer hsilent),
    fun o hbytes => ?_, fun n got hn hgot => ?_⟩
  · refine ⟨_, congrArg Host.Outcome.next (State.readEmpty_bytes hanswer hbytes), hended htask rfl, ?_, ?_, ?_⟩ <;>
      rw [State.fatal_engine] <;> rfl
  · have hrun : runStep .readEcho s = .next s.readEcho := rfl
    rw [hrun, State.readEcho_eq hanswer hn hgot]
    split_ifs with hshort hecho
    · refine ⟨_, rfl, rfl, rfl, rfl, rfl, fun _ => ⟨rfl, rfl, rfl⟩, fun _ => ?_, fun he => ?_, fun hlong => ?_⟩
      · simp [State.echoRead, State.again, State.popAnswer, State.setEngine, State.setPort, htask]
      · simp [he] at hshort
      · omega
    · exact ⟨_, rfl, rfl, rfl, rfl, rfl, fun _ => ⟨rfl, rfl, rfl⟩, fun h => absurd h hshort, fun _ => rfl,
        fun _ hne => absurd hecho hne⟩
    · refine ⟨_, rfl, ?_, ?_, ?_, ?_, fun h => (h.elim hshort hecho).elim, fun h => absurd h hshort,
        fun h => absurd h hecho, fun _ _ => hended htask rfl⟩
      · rw [State.fatal_engine]; rfl
      · rw [State.fatal_engine]; rfl
      · rw [State.fatal_engine]; rfl
      · rw [State.fatal_answers]; rfl

/-! ## The last steps of Open -/

/-- The first pair with the device as its key gives the length (R235, log entry 36). -/
theorem pmLookup_first {p : Config.Params} {d : Half} {n : Nat} {pre post : List (Half × Nat)}
    (h : p.pmLen = pre ++ (d, n) :: post) (hpre : ∀ e ∈ pre, e.1 ≠ d) : pmLookup p d = some n := by
  have hnone : pre.find? (fun e => e.1 == d) = none := List.find?_eq_none.mpr fun e he => by simp [hpre e he]
  simp [pmLookup, h, List.find?_append, hnone]

theorem pmLookup_none {p : Config.Params} {d : Half} (h : ∀ e ∈ p.pmLen, e.1 ≠ d) : pmLookup p d = none := by
  have hnone : p.pmLen.find? (fun e => e.1 == d) = none := List.find?_eq_none.mpr fun e he => by simp [h e he]
  rw [pmLookup, hnone, Option.map_none]

section
variable {s : State} {d : Half}

theorem State.resolveLength_listed {n : Nat} (hd : s.regs.devId = some d) (h : pmLookup s.params d = some n) :
    s.resolveLength = { s with regs := { s.regs with pmLen := some n } } := by
  simp only [State.resolveLength, hd, readRegister, h]

theorem State.resolveLength_unlisted (hd : s.regs.devId = some d) (h : pmLookup s.params d = none) :
    s.resolveLength = s.fatal .openIcsp (.unsupportedDevice d) := by
  simp only [State.resolveLength, hd, readRegister, h]

end

/-- Settles O41: the table by its first pair with the key, O11 by whether the device is listed. -/
theorem unknownDevicesAreRejected : Obligations.UnknownDevicesAreRejected := by
  intro s d hd
  refine ⟨fun _ _ _ => pmLookup_first, pmLookup_none, rfl,
    fun _ hlisted => congrArg Host.Outcome.next (State.resolveLength_listed hd hlisted), fun hunlisted => ?_, rfl⟩
  refine ⟨_, congrArg Host.Outcome.next (State.resolveLength_unlisted hd hunlisted), ?_⟩
  refine ⟨by rw [State.fatal_eq], ?_, ?_, ?_, State.fatal_engines _ _ _, State.fatal_answers _ _ _,
    fun task htask hop => hop ▸ State.fatal_ended _ htask rfl⟩
  all_goals rw [State.fatal_eq]
  rfl

end Sys2Proof.Machine
end

section
/-! Close: what it composes, how each of its calls may fail, and the run of its steps to the end. -/

namespace Sys2Proof.Machine

/-! ## The steps of a program one after another -/

section
variable {s t : State} {m : BlockStep} {rest : List BlockStep}

theorem runProgram_step (h : runStep m s = .next t) (ht : t.task ≠ none) :
    runProgram (m :: rest) s = runProgram rest t := by
  simp only [runProgram, h, if_neg ht]

theorem runProgram_end (h : runStep m s = .next t) (ht : t.task = none) : runProgram (m :: rest) s = .next t := by
  simp only [runProgram, h, if_pos ht]

end

/-! ## The calls of Close and its end -/

/-- The error a Close has met once a call has been answered: the first stays (R249, log entry 20). -/
def noted (e : Option OpError) (c : TransportCall) : Answer → Option OpError
  | .error => some (e.getD (.transport .close c))
  | .count _ => e

/-- What a Close reports (R249). -/
def closeResult : Option OpError → Result
  | some e => .error e
  | none => .done

theorem noted_none_error (c : TransportCall) : noted none c .error = some (.transport .close c) := rfl

theorem noted_some (e : OpError) (c : TransportCall) (a : Answer) : noted (some e) c a = some e := by
  cases a <;> rfl

theorem noted_none_of_ne {a : Answer} (h : a ≠ .error) (c : TransportCall) : noted none c a = none := by
  cases a with
  | error => exact absurd rfl h
  | count k => rfl

section
variable {s : State} {task : Task}

/-- A failing call of Close is noted, and Close goes on (R249, log entry 20). -/
theorem State.plainCall_close_error (ht : s.task = some task) (hop : task.op = .close) (ha : s.answer = .error)
    (c : TransportCall) :
    s.plainCall c = { s with
      task := some { task with firstError := noted task.firstError c .error }, answers := s.answers.next } := by
  simp only [State.plainCall, ha]
  exact State.transportError_close c ht hop

/-- A call of Close and its answer. -/
theorem State.plainCall_close (ht : s.task = some task) (hop : task.op = .close) (c : TransportCall) :
    s.plainCall c = { s with
      task := some { task with firstError := noted task.firstError c s.answer }, answers := s.answers.next } := by
  cases ha : s.answer with
  | error => exact State.plainCall_close_error ht hop ha c
  | count k =>
    simp only [State.plainCall, ha, noted, State.popAnswer]
    rw [← ht]

theorem State.finishClose_error {e : OpError} (ht : s.task = some task) (he : task.firstError = some e) :
    s.finishClose = { s with
      sess := .closed, regs := SessionRegs.none, task := none, results := s.results ++ [.error e]
      buf := task.before.buf, ports := task.before.ports } := by
  simp only [State.finishClose, State.firstError, ht, he, State.restoreBuffer, State.before]
  rfl

theorem State.finishClose_done (ht : s.task = some task) (he : task.firstError = none) :
    s.finishClose = { s with
      sess := .closed, regs := SessionRegs.none, task := none, results := s.results ++ [.done] } := by
  simp only [State.finishClose, State.firstError, ht, he]
  rfl

end

/-- A Close that ends leaves the session closed without a register, reports what it has noted, and touches neither the
other session nor mark, mode and engines. -/
structure CloseEnds (e : Option OpError) (s t : State) : Prop where
  sess : t.sess = .closed
  regs : t.regs = SessionRegs.none
  task : t.task = none
  results : t.results = s.results ++ [closeResult e]
  sessC : t.sessC = s.sessC
  faulted : t.faulted = s.faulted
  mode : t.mode = s.mode
  engines : t.engines = s.engines

/-- Of the state before it the end of a Close depends on results, cartridge session, mark, mode and engines alone. -/
theorem CloseEnds.congr {e : Option OpError} {s t u : State} (h : CloseEnds e u t) (hresults : u.results = s.results)
    (hsessC : u.sessC = s.sessC) (hfaulted : u.faulted = s.faulted) (hmode : u.mode = s.mode)
    (hengines : u.engines = s.engines) : CloseEnds e s t where
  sess := h.sess
  regs := h.regs
  task := h.task
  results := hresults ▸ h.results
  sessC := h.sessC.trans hsessC
  faulted := h.faulted.trans hfaulted
  mode := h.mode.trans hmode
  engines := h.engines.trans hengines

theorem State.finishClose_ends {s : State} {task : Task} (ht : s.task = some task) :
    CloseEnds task.firstError s s.finishClose := by
  cases he : task.firstError with
  | some e =>
    rw [State.finishClose_error ht he]
    exact ⟨rfl, rfl, rfl, rfl, rfl, rfl, rfl, rfl⟩
  | none =>
    rw [State.finishClose_done ht he]
    exact ⟨rfl, rfl, rfl, rfl, rfl, rfl, rfl, rfl⟩

/-- A call of Close without bytes, as a step of its run: its answer is used up, and noted where it is an error. -/
theorem runProgram_closeCall {s : State} {task : Task} {a : Answer} {more : List Answer} {rest : List BlockStep}
    (ht : s.task = some task) (hop : task.op = .close) (ha : s.answers.script = a :: more) (c : TransportCall) :
    runProgram (.transport c :: rest) s = runProgram rest { s with
      task := some { task with firstError := noted task.firstError c a }
      answers := { s.answers with script := more } } := by
  refine runProgram_step (congrArg Host.Outcome.next ?_) (Option.some_ne_none _)
  rw [State.plainCall_close ht hop, State.answer, Draws.value_listed _ ha, Draws.next_listed ha]

/-- The steps of Close after its flush: two calls without bytes, each of which may fail, and the end. -/
theorem runProgram_closeCalls {s : State} {task : Task} {m c : Answer} {more : List Answer} (ht : s.task = some task)
    (hop : task.op = .close) (ha : s.answers.script = m :: c :: more) :
    ∃ t, runProgram [.transport .setBitMode, .transport .close, .finishClose] s = .next t
      ∧ CloseEnds (noted (noted task.firstError .setBitMode m) .close c) s t := by
  rw [runProgram_closeCall ht hop ha,
    runProgram_closeCall (task := { task with firstError := noted task.firstError .setBitMode m }) rfl hop rfl]
  have hends {u : State} (hu : u.task = some { task with
      firstError := noted (noted task.firstError .setBitMode m) .close c }) := State.finishClose_ends hu
  exact ⟨_, runProgram_end rfl (hends rfl).task, (hends rfl).congr rfl rfl rfl rfl rfl⟩

/-! ## The buffer of Close and its flush -/

/-- What has been emitted since the start of a composition is what a flush sends (R25, R65). -/
theorem State.composed_of_emitted {s t : State} {bytes : List Byte} {reads : Nat} (hok : BufferOk t)
    (h : Emitted .icsp bytes reads s t) (hcur : (s.port .icsp).cur = 0) : t.composed .icsp = .ok bytes := by
  obtain ⟨sent, hsent, hlen, hread⟩ := State.composed_ok hok .icsp
  obtain ⟨hport, hinside, -, -⟩ := h
  simp only [hport, hcur, State.base, Nat.zero_add, Nat.sub_zero] at hlen hread hinside
  have hbytes : sent = bytes := List.ext_getElem? fun k => by
    by_cases hk : k < bytes.length
    · rw [hread k (by omega), hinside k hk]
    · rw [List.getElem?_eq_none (by omega), List.getElem?_eq_none (by omega)]
  rw [hsent, hbytes]

/-- The buffer of Close: the reset line held high, and its delay (R249). -/
def closeBytes (p : Config.Params) : List Byte :=
  [0x80, p.closeVal, p.icspDir] ++ longDelayBytes (2 * p.tCloseUs * 2 / 8)

theorem waitUs_ne_instr (t : Nat) : ∀ i, Emitter.waitUs t ≠ .instr i := nofun

theorem Emitted.port {ch : Chan} {bytes : List Byte} {reads : Nat} {s t : State} (h : Emitted ch bytes reads s t) :
    t.port ch =
      { s.port ch with cur := (s.port ch).cur + bytes.length, nreq := (s.port ch).nreq + reads } := by
  obtain ⟨hport, -⟩ := h
  exact hport

theorem Emitted.frame {ch : Chan} {bytes : List Byte} {reads : Nat} {s t : State} (h : Emitted ch bytes reads s t) :
    SameButPort ch s t := by
  obtain ⟨-, -, -, hframe⟩ := h
  exact hframe

/-- The delay of Close is one long delay. -/
theorem expand_closeDelay (p : Config.Params) :
    expand p .icsp (.waitUs p.tCloseUs) = .ok [.waitl (2 * p.tCloseUs * 2 / 8)] := by
  rw [expand, Chan.mode, microLength_icsp]

/-- A layer-1 instruction that fits is emitted on the single channel by a step of an operation. -/
theorem runStep_onIcsp_fits {s : State} {i : Instr} (hturn : s.turn = .block) (h1 : i.layerOne = true)
    (hp : passes i = true) (hfits : (s.port .icsp).cur + (encode i).length ≤ s.params.cap) :
    ∃ u, runStep (onIcsp i) s = .next u ∧ Emitted .icsp (encode i) (samplesOf i) { s with emitCh := .icsp } u := by
  refine ⟨_, exec_layerOne_block (s := { s with emitCh := .icsp }) h1 hturn, ?_⟩
  have hemitted := State.emitAll_fits { s with emitCh := .icsp } .icsp [i] (by simpa using hp)
    (by rw [List.flatMap_singleton]; exact hfits)
  simpa using hemitted

theorem BufferOk.cap_ge {s : State} (h : BufferOk s) : 16384 ≤ s.params.cap := by
  obtain ⟨hwf, -⟩ := h
  simp only [Config.Params.capWf, Bool.and_eq_true, decide_eq_true_eq] at hwf
  obtain ⟨hcap, -⟩ := hwf
  exact hcap

section
variable {s : State} {task : Task} (hinv : BufferInv s) (hturn : s.turn = .block) (hmode : s.mode = .icsp)
  (ht : s.task = some task)
include hinv hturn hmode ht

/-- Close begins its buffer with the pin write (R249). -/
theorem runProgram_closeStart :
    ∃ b u buf ports, (∀ rest, runProgram (.begin :: onIcsp (.setlo s.params.closeVal s.params.icspDir) :: rest) s
        = runProgram rest u)
      ∧ (b.port .icsp).cur = 0 ∧ Emitted .icsp [0x80, s.params.closeVal, s.params.icspDir] 0 b u
      ∧ BufferInv u ∧ u = { s with buf, ports, emitCh := .icsp } := by
  obtain ⟨b, hb⟩ : ∃ b, b = s.setPort .icsp { s.port .icsp with cur := 0, nreq := 0 } := ⟨_, rfl⟩
  have hbegin : runStep .begin s = .next b := by rw [hb, ← State.beginBuffer_icsp hmode]; rfl
  have hcur : (b.port .icsp).cur = 0 := by rw [hb, State.port_setPort_same]
  have hbturn : b.turn = .block := by rw [hb]; exact hturn
  have hcap : 3 ≤ b.params.cap := by
    have := hinv.1.cap_ge
    rw [hb, State.setPort_params]
    omega
  obtain ⟨u, hemit, hemitted⟩ := runStep_onIcsp_fits (i := .setlo s.params.closeVal s.params.icspDir) hbturn rfl rfl
    (by rw [hcur]; exact hcap)
  obtain ⟨buf, ports, hu, -⟩ := hemitted.frame.fields
  rw [hb] at hu
  refine ⟨{ b with emitCh := .icsp }, u, buf, ports, fun rest => ?_, hcur, hemitted, ?_, hu⟩
  · rw [runProgram_step hbegin (by rw [hb]; simp [ht]), runProgram_step hemit (by rw [hu]; simp [ht])]
  · exact (BlockFrame.runStep hbturn hemit).buffer ((BlockFrame.runStep hturn hbegin).buffer hinv)

/-- A delay of Close that has a length of 16 bits is written after it. -/
theorem runProgram_closeComposed (hn : 2 * s.params.tCloseUs * 2 / 8 ≤ 0xFFFF) :
    ∃ u buf ports, runProgram (closeProgram s.params) s
        = runProgram [.flush, .transport .setBitMode, .transport .close, .finishClose] u
      ∧ u.composed .icsp = .ok (closeBytes s.params)
      ∧ u = { s with buf, ports, emitCh := .icsp } := by
  obtain ⟨b, v, bufV, portsV, hstart, hcur, hpins, hinvV, hv⟩ := runProgram_closeStart hinv hturn hmode ht
  have hcurV : (v.port .icsp).cur = 3 := by rw [hpins.port, hcur]; rfl
  have hvturn : v.turn = .block := by rw [hv]; exact hturn
  have hlimit : v.limit .icsp = v.params.cap := rfl
  have hcap := hinvV.1.cap_ge
  have hexp : expand v.params .icsp (.waitUs s.params.tCloseUs) = .ok [.waitl (2 * s.params.tCloseUs * 2 / 8)] := by
    rw [hv]
    exact expand_closeDelay _
  obtain ⟨u, hrun, hdelay⟩ := runEmitter_delay_fits (waitUs_ne_instr _) hexp hn (by omega)
  have hsame : { v with emitCh := .icsp } = v := by rw [hv]
  rw [hsame] at hdelay
  have hinvU : BufferInv u := (BlockFrame.runEmitter hvturn hrun).buffer hinvV
  obtain ⟨buf, ports, hu, -⟩ := hdelay.frame.fields
  rw [hv] at hu
  refine ⟨u, buf, ports, ?_, State.composed_of_emitted hinvU.1 (hpins.trans hdelay) hcur, hu⟩
  rw [closeProgram, hstart]
  exact runProgram_step hrun (by rw [hu]; simp [ht])

/-- A delay of Close too long for its 16 bits ends it before any call (R127, R348). -/
theorem runProgram_closeLong (hn : 0xFFFF < 2 * s.params.tCloseUs * 2 / 8) :
    ∃ buf ports, runProgram (closeProgram s.params) s
      = .next (({ s with buf, ports, emitCh := .icsp } : State).fault .waitLengthOverflow) := by
  obtain ⟨-, u, buf, ports, hstart, -, -, -, rfl⟩ := runProgram_closeStart hinv hturn hmode ht
  refine ⟨buf, ports, ?_⟩
  rw [closeProgram, hstart]
  refine runProgram_end ((runEmitter_of_expand (waitUs_ne_instr _) (expand_closeDelay _)).trans ?_) rfl
  exact congrArg Host.Outcome.next
    (State.emitAll_refused (i := .waitl (2 * s.params.tCloseUs * 2 / 8)) (if_pos hn) [])

end

/-! ## The flush of Close -/

section
variable {s : State} {task : Task} {bytes : List Byte} (hb : s.composed .icsp = .ok bytes) (ht : s.task = some task)
include hb ht

/-- A write of Close that is not taken whole is noted, whatever part of it was sent (R249, log entry 20). -/
theorem State.flushIcsp_close_fails (hop : task.op = .close) (ha : ∀ k, s.answer = .count k → k < bytes.length) :
    ∃ engines, s.flushIcsp = .next { s with
      engines, answers := s.answers.next
      task := some { task with firstError := noted task.firstError .write .error } } := by
  obtain ⟨engines, hwrite⟩ : ∃ engines,
      s.writeOut .icsp = .ok (false, { s with engines, answers := s.answers.next }) := by
    cases hanswer : s.answer with
    | error => exact ⟨_, by simp only [State.writeOut, hb, hanswer]; rfl⟩
    | count k => exact ⟨_, by simp only [State.writeOut, hb, hanswer, if_neg (Nat.not_le.mpr (ha k hanswer))]; rfl⟩
  refine ⟨engines, ?_⟩
  simp only [State.flushIcsp, hwrite]
  exact congrArg Host.Outcome.next (State.transportError_close _ ht hop)

end

/-! ## The statement -/

/-- The run of Close from its flush, whatever its three calls answer (R249). -/
theorem runProgram_closeFlush {s : State} {task : Task} {bytes : List Byte} {w m c : Answer} {more : List Answer}
    (ht : s.task = some task) (hop : task.op = .close) (he : task.firstError = none)
    (hb : s.composed .icsp = .ok bytes) (ha : s.answers.script = w :: m :: c :: more) :
    ∃ t e engines, runProgram [.flush, .transport .setBitMode, .transport .close, .finishClose] s = .next t
      ∧ CloseEnds e { s with engines } t
      ∧ ((∀ k, w = .count k → k < bytes.length) → e = some (.transport .close .write))
      ∧ ∀ k, w = .count k → bytes.length ≤ k →
        (engines.get .icsp).q = (s.engine .icsp).q ++ bytes
          ∧ e = noted (noted none .setBitMode m) .close c := by
  have hw : s.answer = w := Draws.value_listed _ ha
  have hnext : s.answers.next.script = m :: c :: more := by rw [Draws.next_listed ha]
  by_cases htaken : ∃ k, w = .count k ∧ bytes.length ≤ k
  · obtain ⟨k, rfl, hk⟩ := htaken
    have hflush : runStep .flush s = .next ((s.popAnswer.enqueue .icsp bytes).afterFlush .icsp) :=
      State.flushIcsp_whole hb hw hk
    obtain ⟨t, hrun, hends⟩ := runProgram_closeCalls
      (s := (s.popAnswer.enqueue .icsp bytes).afterFlush .icsp) ht hop hnext
    refine ⟨t, _, (s.popAnswer.enqueue .icsp bytes).engines, ?_, hends.congr rfl rfl rfl rfl rfl,
      fun hshort => ?_, fun j hj hlen => ?_⟩
    · rw [runProgram_step hflush (by simp [ht]), hrun]
    · exact absurd (hshort k rfl) (Nat.not_lt.mpr hk)
    · rw [he, State.enqueue_engines, PerChan.get_set_same]
      exact ⟨rfl, rfl⟩
  · have hshort : ∀ k, w = .count k → k < bytes.length := fun k hk =>
      Nat.lt_of_not_le fun hle => htaken ⟨k, hk, hle⟩
    obtain ⟨engines, hflush⟩ := State.flushIcsp_close_fails hb ht hop fun k hk => hshort k (hw ▸ hk)
    obtain ⟨t, hrun, hends⟩ := runProgram_closeCalls
      (s := { s with
        engines, answers := s.answers.next
        task := some { task with firstError := noted task.firstError .write .error } }) rfl hop hnext
    refine ⟨t, _, engines, ?_, hends.congr rfl rfl rfl rfl rfl, fun _ => ?_, fun k hk hlen => ?_⟩
    · exact (runProgram_step (m := .flush) hflush (Option.some_ne_none _)).trans hrun
    · simp only [he, noted_none_error, noted_some]
    · exact absurd ⟨k, hk, hlen⟩ htaken

/-- Settles O42: the calls and the end of Close by their equations, and the run by its parts: the buffer composed
(`runProgram_closeComposed`, `runProgram_closeLong`), its flush and the calls after it (`runProgram_closeFlush`). -/
theorem closeAlwaysCloses : Obligations.CloseAlwaysCloses := by
  intro s task ht hop
  refine ⟨fun c hanswer => ?call, fun e he => congrArg Host.Outcome.next (State.finishClose_error ht he),
    fun he => congrArg Host.Outcome.next (State.finishClose_done ht he),
    fun hinv hturn hmode he => ⟨fun hlong => ?long, fun w m c more hn ha => ?runs⟩⟩
  case call => exact ⟨_, congrArg Host.Outcome.next (State.plainCall_close_error ht hop hanswer c), rfl, rfl⟩
  case long =>
    obtain ⟨buf, ports, hrun⟩ := runProgram_closeLong hinv hturn hmode ht hlong
    exact ⟨_, hrun, rfl, rfl, rfl, rfl, rfl, rfl, rfl⟩
  case runs =>
    obtain ⟨u, buf, ports, hrun, hcomposed, rfl⟩ := runProgram_closeComposed hinv hturn hmode ht hn
    obtain ⟨t, e, engines, hflush, hends, hshort, hwhole⟩ := runProgram_closeFlush
      (s := { s with buf, ports, emitCh := .icsp }) ht hop he hcomposed ha
    refine ⟨t, closeResult e, hrun.trans hflush, hends.sess, hends.regs, hends.task, hends.results, hends.sessC,
      hends.faulted, hends.mode, fun hw => ?_, fun k hw hk => ?_⟩
    · rw [hshort hw]
      rfl
    · obtain ⟨hq, rfl⟩ := hwhole k hw hk
      refine ⟨?_, ?_, fun hm hc => ?_, fun hm hc => ?_⟩
      · rw [State.engine, hends.engines, List.append_assoc]
        exact hq
      · rintro rfl
        rw [noted_none_error, noted_some]
        rfl
      · rw [noted_none_of_ne hm, hc]
        rfl
      · rw [noted_none_of_ne hm, noted_none_of_ne hc]
        rfl

end Sys2Proof.Machine
end

section
/-! The cartridge streams byte for byte: what each emitter of a cartridge channel writes, the control writes and the
gates, then the streams of SetupPins, ResetCart, SetAddress and ReadROM512. -/

namespace Sys2Proof.Machine

/-! ## One emitter of a cartridge channel -/

section
variable (p : Config.Params) (ch : Chan) (es : List Emitter)

theorem streamBytes_cons_of_expand {e : Emitter} {is : List Instr} (h : expand p ch e = .ok is) :
    streamBytes p ch (e :: es) = is.flatMap encode ++ streamBytes p ch es := by
  rw [streamBytes, h]

@[simp] theorem streamBytes_nil : streamBytes p ch [] = [] := rfl

@[simp] theorem streamBytes_instr (i : Instr) :
    streamBytes p ch (.instr i :: es) = encode i ++ streamBytes p ch es := by
  rw [streamBytes_cons_of_expand p ch es rfl, List.flatMap_singleton]

/-- A delay on a cartridge channel lasts ten clocks for each microsecond (R8, R129). -/
@[simp] theorem streamBytes_waitUs (hch : ch ≠ .icsp) (t : Nat) :
    streamBytes p ch (.waitUs t :: es) = longDelayBytes (10 * t * 2 / 8) ++ streamBytes p ch es := by
  obtain ⟨-, hexpand⟩ := expand_delay p (ch := ch) (.inl ⟨rfl, rfl⟩)
  rw [streamBytes_cons_of_expand p ch es hexpand, List.flatMap_singleton, encode_waitl, if_neg hch]

@[simp] theorem streamBytes_cartLatch (x : Byte) :
    streamBytes p ch (.cartLatch x.toNat :: es) = [0x82, x, 0xFF] ++ streamBytes p ch es :=
  streamBytes_cons_of_expand p ch es (expandsTo_cartLatch p ch x).stream

@[simp] theorem streamBytes_cartRelease :
    streamBytes p ch (.cartRelease :: es) = [0x82, 0x00, 0x00] ++ streamBytes p ch es :=
  streamBytes_cons_of_expand p ch es (expandsTo_cartRelease p ch).stream

@[simp] theorem streamBytes_cartSample :
    streamBytes p ch (.cartSample :: es) = [0x83] ++ streamBytes p ch es :=
  streamBytes_cons_of_expand p ch es (expandsTo_cartSample p ch).stream

end

/-! ## Control writes and gates -/

/-- The bytes of the control write of channel A that asserts the lines `m` (R285). -/
def ctrlBytesA (p : Config.Params) (m : Byte) : List Byte := [0x80, p.ctrlIdleA ^^^ m, p.ctrlDirA]

/-- The bytes of the control write of channel B that asserts the lines `m` (R285). -/
def ctrlBytesB (p : Config.Params) (m : Byte) : List Byte := [0x80, p.ctrlIdleB ^^^ m, p.ctrlDirB]

/-- The bytes of the settle delay (R290, R291, R294, R295). -/
def settleBytes (p : Config.Params) : List Byte := longDelayBytes (10 * p.tCartSettleUs * 2 / 8)

@[simp] theorem length_ctrlBytesA (p : Config.Params) (m : Byte) : (ctrlBytesA p m).length = 3 := rfl

@[simp] theorem length_ctrlBytesB (p : Config.Params) (m : Byte) : (ctrlBytesB p m).length = 3 := rfl

@[simp] theorem length_longDelayBytes (n : Nat) : (longDelayBytes n).length = 3 := rfl

@[simp] theorem length_settleBytes (p : Config.Params) : (settleBytes p).length = 3 := rfl

@[simp] theorem orMasks_nil : orMasks [] = 0 := rfl

@[simp] theorem orMasks_concat (ms : List Byte) (m : Byte) : orMasks (ms ++ [m]) = orMasks ms ||| m :=
  List.foldl_concat ..

@[simp] theorem orMasks_singleton (m : Byte) : orMasks [m] = m := BitVec.zero_or

@[simp] theorem orMasks_pair (l m : Byte) : orMasks [l, m] = l ||| m := by
  rw [← List.singleton_append, orMasks_concat, orMasks_singleton]

@[simp] theorem encode_waithi : encode .waithi = [0x88] := rfl

@[simp] theorem encode_setA (p : Config.Params) (ms : List Byte) :
    encode (setA p ms) = ctrlBytesA p (orMasks ms) := rfl

@[simp] theorem encode_setB (p : Config.Params) (ms : List Byte) :
    encode (setB p ms) = ctrlBytesB p (orMasks ms) := rfl

@[simp] theorem streamBytes_gateA (p : Config.Params) (held : List Byte) (body : List Emitter) :
    streamBytes p .a (gateA p held body) =
      ctrlBytesA p (orMasks held ||| p.csA) ++ streamBytes p .a body ++ ctrlBytesA p (orMasks held) := by
  simp [gateA, streamBytes_append]

@[simp] theorem streamBytes_gateB (p : Config.Params) (body : List Emitter) :
    streamBytes p .b (gateB body) = 0x88 :: streamBytes p .b body :=
  streamBytes_instr p .b body .waithi

/-- A gate of B is one wait, beside those of its body (R286). -/
theorem count_waithi_gateB (body : List Emitter) :
    (gateB body).count (.instr .waithi) = body.count (.instr .waithi) + 1 :=
  List.count_cons_self

/-! ## SetupPins and ResetCart -/

theorem encode_setdiv_toNat (n : Half) :
    encode (.setdiv n.toNat) = [0x86, n.extractLsb' 0 8, n.extractLsb' 8 8] := by
  rw [encode, lo8_toNat, hi8_toNat]; rfl

theorem streamBytes_setupA (p : Config.Params) :
    streamBytes p .a (setupA p) =
      [0x86, p.divCart.extractLsb' 0 8, p.divCart.extractLsb' 8 8] ++ ctrlBytesA p 0 ++ [0x82, 0x00, 0x00] := by
  simp [setupA, encode_setdiv_toNat]

theorem streamBytes_setupB (p : Config.Params) :
    streamBytes p .b (setupB p) =
      [0x86, p.divCart.extractLsb' 0 8, p.divCart.extractLsb' 8 8] ++ ctrlBytesB p 0 ++ [0x82, 0x00, 0x00] := by
  simp [setupB, encode_setdiv_toNat]

theorem streamBytes_resetA (p : Config.Params) :
    streamBytes p .a (resetA p) =
      ctrlBytesA p p.rstA ++ longDelayBytes (10 * p.tCartResetUs * 2 / 8) ++ ctrlBytesA p 0 := by
  simp [resetA]

/-! ## SetAddress -/

/-- The bytes of one address half on channel A: the low byte `v` of the half on the data lines, then its
address-enable line `l` around the settle delay (R290). -/
def addressHalfBytesA (p : Config.Params) (v l : Byte) : List Byte :=
  ctrlBytesA p p.csA ++ [0x82, v, 0xFF] ++ ctrlBytesA p 0 ++ ctrlBytesA p (l ||| p.csA) ++ ctrlBytesA p l
    ++ ctrlBytesA p (l ||| p.csA) ++ settleBytes p ++ ctrlBytesA p l ++ ctrlBytesA p p.csA ++ ctrlBytesA p 0

/-- The bytes of one address half on channel B, with the high byte `v` of the half on the data lines (R291). -/
def addressHalfBytesB (p : Config.Params) (v : Byte) : List Byte :=
  [0x88, 0x82, v, 0xFF, 0x88, 0x88] ++ settleBytes p ++ [0x88]

theorem length_addressHalfBytesA (p : Config.Params) (v l : Byte) : (addressHalfBytesA p v l).length = 30 := by
  simp [addressHalfBytesA]

theorem length_addressHalfBytesB (p : Config.Params) (v : Byte) : (addressHalfBytesB p v).length = 10 := by
  simp [addressHalfBytesB]

theorem streamBytes_addressHalfA (p : Config.Params) (v : Nat) (l : Byte) :
    streamBytes p .a (addressHalfA p v l) = addressHalfBytesA p (lo8 v) l := by
  simp [addressHalfA, addressHalfBytesA, settleBytes, streamBytes_append]

theorem streamBytes_addressHalfB (p : Config.Params) (v : Nat) :
    streamBytes p .b (addressHalfB p v) = addressHalfBytesB p (hi8 v) := by
  simp [addressHalfB, addressHalfBytesB, settleBytes, streamBytes_append]

theorem streamBytes_addressA (p : Config.Params) (a : Nat) :
    streamBytes p .a (addressA p a) = addressHalfBytesA p (lo8 (a >>> 16)) p.alehA
      ++ addressHalfBytesA p (lo8 (a % 65536)) p.alelA ++ [0x82, 0x00, 0x00] := by
  simp [addressA, streamBytes_append, streamBytes_addressHalfA]

theorem streamBytes_addressB (p : Config.Params) (a : Nat) :
    streamBytes p .b (addressB p a) = addressHalfBytesB p (hi8 (a >>> 16))
      ++ addressHalfBytesB p (hi8 (a % 65536)) ++ [0x82, 0x00, 0x00] := by
  simp [addressB, streamBytes_append, streamBytes_addressHalfB]

theorem count_waithi_addressHalfB (p : Config.Params) (v : Nat) :
    (addressHalfB p v).count (.instr .waithi) = 4 := by
  simp [addressHalfB, count_waithi_gateB]

theorem count_waithi_addressB (p : Config.Params) (a : Nat) : (addressB p a).count (.instr .waithi) = 8 := by
  simp [addressB, count_waithi_addressHalfB]

section
variable (x : BitVec 32)

theorem lo8_highHalf : lo8 (x.toNat >>> 16) = x.extractLsb' 16 8 :=
  BitVec.eq_of_toNat_eq (by rw [lo8, BitVec.toNat_ofNat, BitVec.extractLsb'_toNat])

theorem hi8_highHalf : hi8 (x.toNat >>> 16) = x.extractLsb' 24 8 :=
  BitVec.eq_of_toNat_eq (by rw [hi8, BitVec.toNat_ofNat, BitVec.extractLsb'_toNat, ← Nat.shiftRight_add])

theorem lo8_lowHalf : lo8 (x.toNat % 65536) = x.extractLsb' 0 8 :=
  BitVec.eq_of_toNat_eq (by rw [lo8, BitVec.toNat_ofNat, BitVec.extractLsb'_toNat]; omega)

theorem hi8_lowHalf : hi8 (x.toNat % 65536) = x.extractLsb' 8 8 :=
  BitVec.eq_of_toNat_eq (by rw [hi8, BitVec.toNat_ofNat, BitVec.extractLsb'_toNat]; omega)

end

/-- Settles O44: the two halves of `streamBytes_addressB`, whose data bytes are bytes 3 and 1 of the address. -/
theorem addressStreamOfChannelB : Obligations.AddressStreamOfChannelB := by
  intro p a
  rw [streamBytes_addressB, hi8_highHalf, hi8_lowHalf]
  simp only [addressHalfBytesB, settleBytes, List.append_assoc]

/-! ## ReadROM512 -/

theorem streamBytes_cycles (p : Config.Params) (ch : Chan) (n : Nat) (c : List Emitter) :
    streamBytes p ch (cycles n c) = (List.replicate n (streamBytes p ch c)).flatten := by
  induction n with
  | zero => rfl
  | succ n ih =>
    have hcycles : cycles (n + 1) c = c ++ cycles n c := rfl
    rw [hcycles, streamBytes_append, ih, List.replicate_succ, List.flatten_cons]

theorem length_streamBytes_cycles (p : Config.Params) (ch : Chan) (n : Nat) (c : List Emitter) :
    (streamBytes p ch (cycles n c)).length = n * (streamBytes p ch c).length := by
  rw [streamBytes_cycles, List.length_flatten, List.map_replicate, List.sum_replicate, smul_eq_mul]

theorem count_cycles (n : Nat) (c : List Emitter) (e : Emitter) : (cycles n c).count e = n * c.count e := by
  rw [cycles, List.count_flatten, List.map_replicate, List.sum_replicate, smul_eq_mul]

theorem streamBytes_romCycleA (p : Config.Params) :
    streamBytes p .a (romCycleA p) = ctrlBytesA p p.csA ++ ctrlBytesA p (p.csA ||| p.rdA) ++ settleBytes p ++ [0x83]
      ++ ctrlBytesA p p.csA ++ ctrlBytesA p 0 := by
  simp [romCycleA, settleBytes]

theorem streamBytes_romCycleB (p : Config.Params) :
    streamBytes p .b (romCycleB p) = [0x88] ++ ctrlBytesB p p.rdB ++ settleBytes p ++ [0x83] ++ ctrlBytesB p 0 := by
  simp [romCycleB, settleBytes]

/-! ## The footprints -/

/-- Settles O43: the bytes of each stream by its equation, the footprints as the lengths of these bytes, and the waits
and samples of a read as those of its cycle, 256 times. -/
theorem cartridgeFootprints : Obligations.CartridgeFootprints := by
  intro p a
  refine ⟨⟨?setupA, ?setupB, ?resetA, ?addressA, ?addressB, ?romA, ?romB, count_waithi_addressB p a,
    count_cycles 256 _ _, count_cycles 256 _ _, count_cycles 256 _ _⟩,
    fun ctrlA ctrlB settle half x hctrlA hctrlB hsettle hhalf => ?bytes⟩
  case setupA => simp [streamBytes_setupA]
  case setupB => simp [streamBytes_setupB]
  case resetA => simp [streamBytes_resetA]
  case addressA => simp [streamBytes_addressA, length_addressHalfBytesA]
  case addressB => simp [streamBytes_addressB, length_addressHalfBytesB]
  case romA => simp [length_streamBytes_cycles, streamBytes_romCycleA]
  case romB => simp [length_streamBytes_cycles, streamBytes_romCycleB]
  case bytes =>
    obtain rfl : ctrlA = ctrlBytesA p := funext hctrlA
    obtain rfl : ctrlB = ctrlBytesB p := funext hctrlB
    obtain rfl : settle = settleBytes p := hsettle
    obtain rfl : half = addressHalfBytesA p := funext₂ hhalf
    refine ⟨streamBytes_setupA p, streamBytes_setupB p, streamBytes_resetA p, ?_, ?_, ?_⟩
    · rw [streamBytes_addressA, lo8_highHalf, lo8_lowHalf]
    · rw [streamBytes_cycles, streamBytes_romCycleA]
    · rw [streamBytes_cycles, streamBytes_romCycleB]

end Sys2Proof.Machine
end

section
/-! How Seek and Read begin: their checks in order, and what each leaves where it ends at once. -/

namespace Sys2Proof.Machine

/-! ## Seek -/

section
variable {s : State} {addr len : Nat} (hc : s.readyCursor = .ok (addr, len))
include hc

theorem State.callSeek_unsupported (offset : Int) : s.callSeek offset .other = s.fault .unsupportedWhence := by
  simp only [State.callSeek, hc, seekBase]

variable {w : Whence} {base offset : Int} (hw : seekBase addr w = .ok base)
include hw

theorem State.callSeek_odd (hodd : offset % 2 ≠ 0) :
    s.callSeek offset w = s.endTask (.error (.invalidOffset offset)) := by
  simp only [State.callSeek, hc, hw, if_pos hodd]

theorem State.callSeek_outOfRange (heven : offset % 2 = 0) (hout : base + offset < 0 ∨ (len : Int) ≤ base + offset) :
    s.callSeek offset w = s.endTask (.error (.outOfRange (base + offset))) := by
  simp only [State.callSeek, hc, hw, if_neg (not_not_intro heven), if_pos hout]

theorem State.callSeek_moves {new : Nat} (heven : offset % 2 = 0) (hnew : base + offset = new) (hlt : new < len) :
    s.callSeek offset w =
      { s with regs := { s.regs with addr := some new } }.endTask (.position new) := by
  have hin : ¬ ((new : Int) < 0 ∨ (len : Int) ≤ new) := by omega
  simp only [State.callSeek, hc, hw, if_neg (not_not_intro heven), hnew, if_neg hin, Int.toNat_natCast]

end

theorem seekBase_eq {addr : Nat} {w : Whence} {base : Int}
    (h : (w = .start ∧ base = 0) ∨ (w = .current ∧ base = addr)) : seekBase addr w = .ok base := by
  obtain ⟨rfl, rfl⟩ | ⟨rfl, rfl⟩ := h <;> rfl

/-- Settles O28: the checks of a Seek in their order, each ending the call at once. -/
theorem seekChecksParityThenRange : Obligations.SeekChecksParityThenRange := by
  intro s offset w cs addr len htask hcalls hsess haddr hlen
  have hcursor : ({ s with calls := cs } : State).readyCursor = .ok (addr, len) :=
    State.readyCursor_eq hsess haddr hlen
  refine ⟨?unsupported, fun base hbase => ?supported⟩
  case unsupported =>
    rintro rfl
    exact blockStep_call_faulted htask hcalls (State.callSeek_unsupported hcursor offset)
  case supported =>
    have hw := seekBase_eq hbase
    refine ⟨fun hodd => blockStep_call_eq htask hcalls ?_, fun heven hout => blockStep_call_eq htask hcalls ?_,
      fun new heven hnew hlt => blockStep_call_eq htask hcalls ?_⟩
    · rw [State.beginCall, State.callSeek_odd hcursor hw hodd, State.endTask, htask]
    · rw [State.beginCall, State.callSeek_outOfRange hcursor hw heven hout, State.endTask, htask]
    · rw [State.beginCall, State.callSeek_moves hcursor hw heven hnew hlt, State.endTask, htask]

/-! ## Read -/

section
variable {s : State} {n addr len : Nat} (hc : s.readyCursor = .ok (addr, len))
include hc

theorem State.callRead_atEnd (hend : len ≤ addr) : s.callRead n = s.endTask (.error .endOfMemory) := by
  simp only [State.callRead, hc, if_pos hend]

theorem State.callRead_unaligned (hlt : addr < len) (hodd : addr % 2 = 1) :
    s.callRead n = s.fault .unalignedCursor := by
  simp only [State.callRead, hc, if_neg (Nat.not_le.mpr hlt), if_pos hodd]

theorem State.callRead_nothing (hlt : addr < len) (heven : addr % 2 = 0) : s.callRead 0 = s.endTask (.bytes []) := by
  have hodd : ¬ addr % 2 = 1 := by omega
  simp only [State.callRead, hc, if_neg (Nat.not_le.mpr hlt), if_neg hodd, Nat.zero_min, if_true]

theorem State.callRead_starts (hlt : addr < len) (heven : addr % 2 = 0) (hn : 0 < n) :
    s.callRead n = s.start .read (readProgram addr (min n (len - addr))) := by
  have hodd : ¬ addr % 2 = 1 := by omega
  have hwanted : min n (len - addr) ≠ 0 := by omega
  simp only [State.callRead, hc, if_neg (Nat.not_le.mpr hlt), if_neg hodd, if_neg hwanted]

end

/-- Settles O29: the checks of a Read in their order, and the counting of its bytes (`State.advance_eq`). -/
theorem readBeginsByItsContract : Obligations.ReadBeginsByItsContract := by
  refine ⟨fun s n cs addr len htask hcalls hsess haddr hlen => ?begins, fun s task m addr htask haddr => ?ends⟩
  case begins =>
    have hcursor : ({ s with calls := cs } : State).readyCursor = .ok (addr, len) :=
      State.readyCursor_eq hsess haddr hlen
    refine ⟨fun hend => blockStep_call_eq htask hcalls ?_,
      fun hlt hodd => blockStep_call_faulted htask hcalls (State.callRead_unaligned hcursor hlt hodd),
      fun hlt heven hn => blockStep_call_eq htask hcalls ?_,
      fun hlt heven hn => blockStep_call_eq htask hcalls (State.callRead_starts hcursor hlt heven hn)⟩
    · rw [State.beginCall, State.callRead_atEnd hcursor hend, State.endTask, htask]
    · rw [State.beginCall, hn, State.callRead_nothing hcursor hlt heven, State.endTask, htask]
  case ends =>
    have houtput : s.output = task.out := by simp only [State.output, htask]
    rw [← houtput]
    exact congrArg Host.Outcome.next (State.advance_eq haddr m _)

end Sys2Proof.Machine
end

section
/-! Transport errors: at whichever call the transport fails, the step ends the operation by one and the same
`transportError`. -/

namespace Sys2Proof.Machine

/-! ## What a failing call answers -/

section
variable {s : State} (ha : s.answer = .error)
include ha

theorem State.readBack_error {ch : Chan} (ho : (s.port ch).owed ≠ 0) :
    s.readBack ch = s.popAnswer.transportError .readExact := by
  simp only [State.readBack, if_neg ho, ha]

theorem State.readEmpty_error (o : SelfTest) : s.readEmpty o = s.popAnswer.transportError .read := by
  simp only [State.readEmpty, ha]

theorem State.readEcho_error : s.readEcho = s.popAnswer.transportError .read := by
  simp only [State.readEcho, ha]

theorem State.plainCall_error (c : TransportCall) : s.plainCall c = s.popAnswer.transportError c := by
  simp only [State.plainCall, ha]

/-- A failing write of the single channel has appended nothing, whatever was composed (log entry 18). -/
theorem State.flushIcsp_error (h : BufferOk s) : s.flushIcsp = .next (s.popAnswer.transportError .write) := by
  obtain ⟨bytes, hbytes, -⟩ := State.composed_ok h .icsp
  simp only [State.flushIcsp, State.writeOut, hbytes, ha]

/-- The first call of a paired flush is B's, or A's where B's half is empty (R283). -/
theorem State.flushBoth_error (h : BufferOk s) (hcall : s.params.half < (s.port .b).cur ∨ 0 < (s.port .a).cur) :
    s.flushBoth = .next (s.popAnswer.transportError .write) := by
  by_cases hB : s.params.half < (s.port .b).cur
  · exact State.flushBoth_failsB (State.writeHalf_error h hB ha)
  · have ⟨_, _, _, hregion, _⟩ := h
    have hempty : (s.port .b).cur = s.base .b := le_antisymm (not_lt.mp hB) (hregion .b).1
    exact State.flushBoth_failsA (State.writeHalf_empty hempty)
      (State.writeHalf_error h (hcall.resolve_left hB) ha)

end

/-- A write of the single channel that counts `k` bytes of more has appended the first `k` (R45, log entry 18). -/
theorem State.flushIcsp_short {s : State} {k : Nat} (h : BufferOk s) (ha : s.answer = .count k)
    (hk : k < (s.port .icsp).cur) :
    ∃ bytes, s.flushIcsp = .next ((s.popAnswer.enqueue .icsp bytes).transportError .write)
      ∧ bytes.length = k ∧ ∀ i, i < k → bytes[i]? = Memory.read s.buf i := by
  have hbase : s.base .icsp = 0 := rfl
  obtain ⟨bytes, hwrite, hlen, hread⟩ := State.writeHalf_short (ch := .icsp) h ha (by omega)
  rw [State.writeHalf_call (by omega)] at hwrite
  simp only [hbase, Nat.zero_add] at hread
  exact ⟨bytes, by simp only [State.flushIcsp, hwrite], hlen, hread⟩

/-! ## The statement -/

/-- Settles O39: every failing call answers the same `transportError`, which outside Close ends the operation
(`State.transportError_ended`); a short count has besides sent what it counts (`State.flushIcsp_short`). -/
theorem transportErrorEndsTheOperation : Obligations.TransportErrorEndsTheOperation := by
  intro s task hinv htask hop
  refine ⟨fun m c hanswer hcall => ?error, fun k hanswer hk => ?short⟩
  case error =>
    have hrun : runStep m s = .next (s.popAnswer.transportError c) := by
      obtain ⟨ch, rfl, rfl, howed⟩ | ⟨rfl, rfl⟩ | ⟨rfl, rfl, hhalf⟩ | ⟨⟨o, rfl⟩, rfl⟩ | ⟨rfl, rfl⟩ | rfl := hcall
      · exact congrArg Host.Outcome.next (State.readBack_error hanswer howed)
      · exact State.flushIcsp_error hanswer hinv.1
      · exact State.flushBoth_error hanswer hinv.1 hhalf
      · exact congrArg Host.Outcome.next (State.readEmpty_error hanswer o)
      · exact congrArg Host.Outcome.next (State.readEcho_error hanswer)
      · exact congrArg Host.Outcome.next (State.plainCall_error hanswer c)
    exact ⟨_, hrun, State.transportError_ended c htask hop rfl, State.transportError_engines _ c,
      State.transportError_answers _ c⟩
  case short =>
    obtain ⟨bytes, hflush, hlen, hread⟩ := State.flushIcsp_short hinv.1 hanswer hk
    exact ⟨bytes, _, hflush, State.transportError_ended _ htask hop rfl, hlen, hread,
      State.transportError_engine _ _ _, State.transportError_engine _ _ _, State.transportError_engine _ _ _,
      State.transportError_answers _ _⟩

end Sys2Proof.Machine
end
